-- ==== Sys2Proof/Word.lean ====
section
/-!
DEFINITION. The word types of PL0VM core and the data width W (00_scope.md R8, R10; 30_encoding.md R101).
-/
namespace Sys2Proof

/-- One byte of the program buffer or of the runtime stack. -/
abbrev Byte := BitVec 8

/-- pc, fp, curProc, start_pos, frame_ptr: unsigned 64-bit (R10). -/
abbrev U64 := BitVec 64

/-- A fixed operand: a 16-bit two's-complement number (R101). -/
abbrev S16 := BitVec 16

/-- The data width W of a loaded program (R8): two, four or eight bytes, no other value. -/
inductive Width where
  | w2
  | w4
  | w8
  deriving DecidableEq, Repr

/-- W in bytes (R8). -/
def Width.bytes : Width → Nat
  | .w2 => 2
  | .w4 => 4
  | .w8 => 8

/-- N = 8 * W, the width in bits (R8). -/
def Width.bits (w : Width) : Nat := 8 * w.bytes

end Sys2Proof
end

