-- ==== Sys2Proof/Config.lean ====
section
/-!
DEFINITION. The parameters an implementation fixes (00_scope.md section 4). The dispatch table OPCODE_MAP (R14) is
the data table `opcodeMap` of Sys2Proof/Decode.lean; OUTPUT_RENDER and INPUT_PARSE (R13) are arguments of
Sys2Proof/Machine/HostPort.lean.
-/
namespace Sys2Proof

/-- ENTRY_LEN_MODE (R12): what EntryProc's first operand counts at load time. -/
inductive EntryLenMode where
  /-- the bytes after the 7-byte EntryProc instruction -/
  | afterHeader
  /-- the bytes from the EntryProc opcode byte on -/
  | fromOpcode
  deriving DecidableEq, Repr

/-- DESIGN CHOICE (log 23): which fault a stack address computed at or above 2^64 raises, where the spec says two
things. -/
inductive WideAddress where
  /-- R_ADDRESS_OVERFLOW, when the address is computed (R10, R35, R207, D7) -/
  | addressOverflow
  /-- what the length checks of R75, R76 and R81 raise, which have no test of their own for 2^64 -/
  | lengthChecks
  deriving DecidableEq, Repr

/-- The parameters of R11 and R12, and the model's own of log 23. They are part of the state so that every statement holds for every value of them. -/
structure Config where
  /-- MAX_STACK_BYTES (R11): the largest length of the runtime stack. DESIGN CHOICE (log 5): at most 2^64 - 1, as a
  stack address has 64 bits (R10). -/
  maxStackBytes : U64
  entryLenMode : EntryLenMode
  /-- the model's own (log 23) -/
  wideAddress : WideAddress
  deriving DecidableEq, Repr

/-- ENTRY_LEN_MODE as R12 gives it; MAX_STACK_BYTES is left open by the spec: DESIGN CHOICE 2^64 - 1 (log 5); an address
at or above 2^64 as R207 and D7 have it (log 23). -/
def Config.default : Config :=
  { maxStackBytes := 0xFFFFFFFFFFFFFFFF#64, entryLenMode := .afterHeader, wideAddress := .addressOverflow }

end Sys2Proof
end

