-- ==== Sys2Proof/Syntax.lean ====
section
/-!
DEFINITION. The instructions of PL0VM core: one constructor per row of spec/opcode_table.json (30_encoding.md R97),
with its operands (R94, R101).
-/
namespace Sys2Proof

/-- One instruction with its operands, in the order of R94. A 16-bit operand is kept as its bit pattern; its value is
`BitVec.toInt` (R101). -/
inductive Instr where
  | pushValueLocalVar (addr : S16)
  | pushValueMainVar (addr : S16)
  | pushValueGlobalVar (addr procIdx : S16)
  | pushAddressLocalVar (addr : S16)
  | pushAddressMainVar (addr : S16)
  | pushAddressGlobalVar (addr procIdx : S16)
  | pushConstant (idx : S16)
  | storeValue
  | outputValue
  | inputToAddr
  | minusify
  | isOdd
  | opAdd
  | opSubtract
  | opMultiply
  | opDivide
  | compareEq
  | compareNotEq
  | compareLT
  | compareGT
  | compareLTEq
  | compareGTEq
  | callProc (procId : S16)
  | returnProc
  | jump (offset : S16)
  | jumpIfFalse (offset : S16)
  | entryProc (bodyLen procId reservedBytes : S16)
  | putString (text : List Byte)
  | pop
  | swap
  | endOfCode
  | put
  | get
  | opAddAddr
  deriving DecidableEq, Repr

/-- The mnemonics of the dispatch table (R97): what an opcode byte alone selects (R96). -/
inductive Opcode where
  | pushValueLocalVar | pushValueMainVar | pushValueGlobalVar
  | pushAddressLocalVar | pushAddressMainVar | pushAddressGlobalVar
  | pushConstant | storeValue | outputValue | inputToAddr
  | minusify | isOdd | opAdd | opSubtract | opMultiply | opDivide
  | compareEq | compareNotEq | compareLT | compareGT | compareLTEq | compareGTEq
  | callProc | returnProc | jump | jumpIfFalse | entryProc | putString
  | pop | swap | endOfCode | put | get | opAddAddr
  deriving DecidableEq, Repr

/-- The instruction formats of R94; `unspecified` is the format column of the three reserved rows (R99). -/
inductive Format where
  | f0 | f1 | f2 | f3 | fs | unspecified
  deriving DecidableEq, Repr

/-- The class column of R97. -/
inductive OpcodeClass where
  | implemented | reserved
  deriving DecidableEq, Repr

/-- The operands an instruction carries (R94, R95). -/
inductive Operands where
  | none
  | one (a : S16)
  | two (a b : S16)
  | three (a b c : S16)
  | text (s : List Byte)
  deriving DecidableEq, Repr

end Sys2Proof
end

