-- ==== Sys2Proof/Decode.lean ====
section
/-!
DEFINITION. The byte-order helpers (20_memory.md R68 to R71), the opcode dispatch table (30_encoding.md R97), the
decoder (R106), well-formed UTF-8 (41_io.md R151) and the encoder.
-/
namespace Sys2Proof

/-! ## Byte order -/

/-- The unsigned number of a byte string in address order, least significant byte first (R68 to R71). -/
def leNat : List Byte → Nat
  | [] => 0
  | b :: bs => b.toNat + 256 * leNat bs

/-- The low `n` bytes of a number in address order, least significant byte first (R68 to R71). -/
def leBytes : Nat → Nat → List Byte
  | 0, _ => []
  | n + 1, v => BitVec.ofNat 8 v :: leBytes n (v / 256)

/-- A 16-bit operand from its two bytes, the low one first (R101). -/
def s16 (lo hi : Byte) : S16 := hi ++ lo

/-- The two bytes of a 16-bit operand, the low one first (R101). -/
def s16Bytes (v : S16) : List Byte := [v.extractLsb' 0 8, v.extractLsb' 8 8]

/-! ## The dispatch table -/

/-- One row of R97. -/
structure OpcodeRow where
  byte : Byte
  opcode : Opcode
  format : Format
  cls : OpcodeClass
  deriving DecidableEq, Repr

/-- OPCODE_MAP: the dispatch table of R97, as data (R14). UNVERIFIED (log 7): the source gives no byte values. -/
def opcodeMap : List OpcodeRow := [
  ⟨0x00#8, .pushValueLocalVar, .f1, .implemented⟩,
  ⟨0x01#8, .pushValueMainVar, .f1, .implemented⟩,
  ⟨0x02#8, .pushValueGlobalVar, .f2, .implemented⟩,
  ⟨0x03#8, .pushAddressLocalVar, .f1, .implemented⟩,
  ⟨0x04#8, .pushAddressMainVar, .f1, .implemented⟩,
  ⟨0x05#8, .pushAddressGlobalVar, .f2, .implemented⟩,
  ⟨0x06#8, .pushConstant, .f1, .implemented⟩,
  ⟨0x07#8, .storeValue, .f0, .implemented⟩,
  ⟨0x08#8, .outputValue, .f0, .implemented⟩,
  ⟨0x09#8, .inputToAddr, .f0, .implemented⟩,
  ⟨0x0A#8, .minusify, .f0, .implemented⟩,
  ⟨0x0B#8, .isOdd, .f0, .implemented⟩] ++ [
  ⟨0x0C#8, .opAdd, .f0, .implemented⟩,
  ⟨0x0D#8, .opSubtract, .f0, .implemented⟩,
  ⟨0x0E#8, .opMultiply, .f0, .implemented⟩,
  ⟨0x0F#8, .opDivide, .f0, .implemented⟩,
  ⟨0x10#8, .compareEq, .f0, .implemented⟩,
  ⟨0x11#8, .compareNotEq, .f0, .implemented⟩,
  ⟨0x12#8, .compareLT, .f0, .implemented⟩,
  ⟨0x13#8, .compareGT, .f0, .implemented⟩,
  ⟨0x14#8, .compareLTEq, .f0, .implemented⟩,
  ⟨0x15#8, .compareGTEq, .f0, .implemented⟩] ++ [
  ⟨0x16#8, .callProc, .f1, .implemented⟩,
  ⟨0x17#8, .returnProc, .f0, .implemented⟩,
  ⟨0x18#8, .jump, .f1, .implemented⟩,
  ⟨0x19#8, .jumpIfFalse, .f1, .implemented⟩,
  ⟨0x1A#8, .entryProc, .f3, .implemented⟩,
  ⟨0x1B#8, .putString, .fs, .implemented⟩,
  ⟨0x1C#8, .pop, .f0, .implemented⟩,
  ⟨0x1D#8, .swap, .f0, .implemented⟩,
  ⟨0x1E#8, .endOfCode, .f0, .implemented⟩,
  ⟨0x1F#8, .put, .unspecified, .reserved⟩,
  ⟨0x20#8, .get, .unspecified, .reserved⟩,
  ⟨0x21#8, .opAddAddr, .unspecified, .reserved⟩]

/-- The row an opcode byte selects; none for the unknown bytes of R98. -/
def rowOfByte (b : Byte) : Option OpcodeRow := opcodeMap.find? (fun r => r.byte == b)

/-- The mnemonic an opcode byte selects (R97). -/
def opcodeOf (b : Byte) : Option Opcode := (rowOfByte b).map (·.opcode)

/-- The opcode byte of a mnemonic (R97), read from the same table. -/
def opcodeByte (o : Opcode) : Byte :=
  match opcodeMap.find? (fun r => r.opcode == o) with
  | some r => r.byte
  | none => 0xFF#8

/-- The format column of a mnemonic (R94, R97). -/
def Opcode.format (o : Opcode) : Format :=
  match opcodeMap.find? (fun r => r.opcode == o) with
  | some r => r.format
  | none => .unspecified

/-- The class column of a mnemonic (R97). -/
def Opcode.cls (o : Opcode) : OpcodeClass :=
  match opcodeMap.find? (fun r => r.opcode == o) with
  | some r => r.cls
  | none => .reserved

/-! ## Well-formed UTF-8 -/

/-- The byte patterns of R151: each row is one sequence, each pair the bounds of one byte. PRESUMED (log 22): the
spec supplies the table from general knowledge (D51). -/
def utf8Patterns : List (List (Nat × Nat)) := [
  [(0x00, 0x7F)],
  [(0xC2, 0xDF), (0x80, 0xBF)],
  [(0xE0, 0xE0), (0xA0, 0xBF), (0x80, 0xBF)],
  [(0xE1, 0xEC), (0x80, 0xBF), (0x80, 0xBF)],
  [(0xED, 0xED), (0x80, 0x9F), (0x80, 0xBF)],
  [(0xEE, 0xEF), (0x80, 0xBF), (0x80, 0xBF)],
  [(0xF0, 0xF0), (0x90, 0xBF), (0x80, 0xBF), (0x80, 0xBF)],
  [(0xF1, 0xF3), (0x80, 0xBF), (0x80, 0xBF), (0x80, 0xBF)],
  [(0xF4, 0xF4), (0x80, 0x8F), (0x80, 0xBF), (0x80, 0xBF)]]

/-- What is left of a byte string after one sequence of the given pattern, if it begins with one. -/
def dropPattern : List (Nat × Nat) → List Byte → Option (List Byte)
  | [], s => some s
  | _ :: _, [] => none
  | (lo, hi) :: ps, b :: s => if lo ≤ b.toNat ∧ b.toNat ≤ hi then dropPattern ps s else none

/-- What is left of a byte string after its first well-formed sequence, if it begins with one. -/
def dropSequence (s : List Byte) : Option (List Byte) := utf8Patterns.findSome? (fun p => dropPattern p s)

/-- A byte string cut into sequences of R151, at most `fuel` of them. -/
def utf8Within : Nat → List Byte → Bool
  | _, [] => true
  | 0, _ :: _ => false
  | fuel + 1, b :: s =>
    match dropSequence (b :: s) with
    | some rest => utf8Within fuel rest
    | none => false

/-- WellFormedUTF8 of R151: a concatenation of well-formed sequences. Each sequence takes a byte at least, so the
length bounds their number. -/
def wellFormedUTF8 (s : List Byte) : Bool := utf8Within s.length s

/-! ## The decoder -/

/-- Why bytes are no instruction. Each is one of the verdicts of R106. -/
inductive DecodeError where
  /-- the bytes end inside the instruction: F_TRUNCATED -/
  | truncated
  /-- an opcode byte 0x22 to 0xFF: F_UNKNOWN_OPCODE -/
  | unknownOpcode (b : Byte)
  /-- PutString's string is not well-formed UTF-8: F_BAD_UTF8 -/
  | badUtf8
  deriving DecidableEq, Repr

/-- The bytes before the first 0x00 and those after it (R103); none where there is no 0x00. -/
def splitNul : List Byte → Option (List Byte × List Byte)
  | [] => none
  | b :: bs =>
    if b = 0#8 then some ([], bs)
    else match splitNul bs with
      | some (s, rest) => some (b :: s, rest)
      | none => none

/-- Format F1: one operand (R94). -/
def decodeF1 (mk : S16 → Instr) : List Byte → Except DecodeError (Instr × List Byte)
  | a0 :: a1 :: rest => .ok (mk (s16 a0 a1), rest)
  | _ => .error .truncated

/-- Format F2: two operands (R94). -/
def decodeF2 (mk : S16 → S16 → Instr) : List Byte → Except DecodeError (Instr × List Byte)
  | a0 :: a1 :: b0 :: b1 :: rest => .ok (mk (s16 a0 a1) (s16 b0 b1), rest)
  | _ => .error .truncated

/-- Format F3: three operands (R94). -/
def decodeF3 (mk : S16 → S16 → S16 → Instr) : List Byte → Except DecodeError (Instr × List Byte)
  | a0 :: a1 :: b0 :: b1 :: c0 :: c1 :: rest => .ok (mk (s16 a0 a1) (s16 b0 b1) (s16 c0 c1), rest)
  | _ => .error .truncated

/-- Format FS: a string up to its 0x00 (R103), which must be well-formed UTF-8 (R106). -/
def decodeFS (mk : List Byte → Instr) (bs : List Byte) : Except DecodeError (Instr × List Byte) :=
  match splitNul bs with
  | none => .error .truncated
  | some (s, rest) => if wellFormedUTF8 s then .ok (mk s, rest) else .error .badUtf8

/-- The operands after an opcode byte, by the format its row has (R94, R106). The reserved rows have no operand
layout: no byte after the opcode is read (R204; log 15). -/
def decodeOperands (o : Opcode) (bs : List Byte) : Except DecodeError (Instr × List Byte) :=
  match o with
  | .pushValueLocalVar => decodeF1 .pushValueLocalVar bs
  | .pushValueMainVar => decodeF1 .pushValueMainVar bs
  | .pushValueGlobalVar => decodeF2 .pushValueGlobalVar bs
  | .pushAddressLocalVar => decodeF1 .pushAddressLocalVar bs
  | .pushAddressMainVar => decodeF1 .pushAddressMainVar bs
  | .pushAddressGlobalVar => decodeF2 .pushAddressGlobalVar bs
  | .pushConstant => decodeF1 .pushConstant bs
  | .storeValue => .ok (.storeValue, bs)
  | .outputValue => .ok (.outputValue, bs)
  | .inputToAddr => .ok (.inputToAddr, bs)
  | .minusify => .ok (.minusify, bs)
  | .isOdd => .ok (.isOdd, bs)
  | .opAdd => .ok (.opAdd, bs)
  | .opSubtract => .ok (.opSubtract, bs)
  | .opMultiply => .ok (.opMultiply, bs)
  | .opDivide => .ok (.opDivide, bs)
  | .compareEq => .ok (.compareEq, bs)
  | .compareNotEq => .ok (.compareNotEq, bs)
  | .compareLT => .ok (.compareLT, bs)
  | .compareGT => .ok (.compareGT, bs)
  | .compareLTEq => .ok (.compareLTEq, bs)
  | .compareGTEq => .ok (.compareGTEq, bs)
  | .callProc => decodeF1 .callProc bs
  | .returnProc => .ok (.returnProc, bs)
  | .jump => decodeF1 .jump bs
  | .jumpIfFalse => decodeF1 .jumpIfFalse bs
  | .entryProc => decodeF3 .entryProc bs
  | .putString => decodeFS .putString bs
  | .pop => .ok (.pop, bs)
  | .swap => .ok (.swap, bs)
  | .endOfCode => .ok (.endOfCode, bs)
  | .put => .ok (.put, bs)
  | .get => .ok (.get, bs)
  | .opAddAddr => .ok (.opAddAddr, bs)

/-- The instruction at the head of a byte string, and the bytes after it; total, rejecting by name (R106). -/
def decode : List Byte → Except DecodeError (Instr × List Byte)
  | [] => .error .truncated
  | op :: rest =>
    match opcodeOf op with
    | none => .error (.unknownOpcode op)
    | some o => decodeOperands o rest

/-- The instruction at position `pos` of a program buffer. -/
def decodeAt (pb : List Byte) (pos : Nat) : Except DecodeError (Instr × List Byte) := decode (pb.drop pos)

/-! ## The encoder -/

/-- The mnemonic of an instruction (R97). -/
def Instr.opcode : Instr → Opcode
  | .pushValueLocalVar _ => .pushValueLocalVar
  | .pushValueMainVar _ => .pushValueMainVar
  | .pushValueGlobalVar _ _ => .pushValueGlobalVar
  | .pushAddressLocalVar _ => .pushAddressLocalVar
  | .pushAddressMainVar _ => .pushAddressMainVar
  | .pushAddressGlobalVar _ _ => .pushAddressGlobalVar
  | .pushConstant _ => .pushConstant
  | .storeValue => .storeValue
  | .outputValue => .outputValue
  | .inputToAddr => .inputToAddr
  | .minusify => .minusify
  | .isOdd => .isOdd
  | .opAdd => .opAdd
  | .opSubtract => .opSubtract
  | .opMultiply => .opMultiply
  | .opDivide => .opDivide
  | .compareEq => .compareEq
  | .compareNotEq => .compareNotEq
  | .compareLT => .compareLT
  | .compareGT => .compareGT
  | .compareLTEq => .compareLTEq
  | .compareGTEq => .compareGTEq
  | .callProc _ => .callProc
  | .returnProc => .returnProc
  | .jump _ => .jump
  | .jumpIfFalse _ => .jumpIfFalse
  | .entryProc _ _ _ => .entryProc
  | .putString _ => .putString
  | .pop => .pop
  | .swap => .swap
  | .endOfCode => .endOfCode
  | .put => .put
  | .get => .get
  | .opAddAddr => .opAddAddr

/-- The operands of an instruction, in the order of R94. -/
def Instr.operands : Instr → Operands
  | .pushValueLocalVar a => .one a
  | .pushValueMainVar a => .one a
  | .pushValueGlobalVar a p => .two a p
  | .pushAddressLocalVar a => .one a
  | .pushAddressMainVar a => .one a
  | .pushAddressGlobalVar a p => .two a p
  | .pushConstant k => .one k
  | .storeValue => .none
  | .outputValue => .none
  | .inputToAddr => .none
  | .minusify => .none
  | .isOdd => .none
  | .opAdd => .none
  | .opSubtract => .none
  | .opMultiply => .none
  | .opDivide => .none
  | .compareEq => .none
  | .compareNotEq => .none
  | .compareLT => .none
  | .compareGT => .none
  | .compareLTEq => .none
  | .compareGTEq => .none
  | .callProc p => .one p
  | .returnProc => .none
  | .jump o => .one o
  | .jumpIfFalse o => .one o
  | .entryProc l p r => .three l p r
  | .putString s => .text s
  | .pop => .none
  | .swap => .none
  | .endOfCode => .none
  | .put => .none
  | .get => .none
  | .opAddAddr => .none

/-- The operand bytes in address order (R94, R95): each fixed operand low byte first, a string with its 0x00. -/
def Operands.bytes : Operands → List Byte
  | .none => []
  | .one a => s16Bytes a
  | .two a b => s16Bytes a ++ s16Bytes b
  | .three a b c => s16Bytes a ++ s16Bytes b ++ s16Bytes c
  | .text s => s ++ [0#8]

/-- The bytes of an instruction: the opcode byte, then its operands (R93, R107). -/
def encode (i : Instr) : List Byte := opcodeByte i.opcode :: i.operands.bytes

/-- The length of an instruction in bytes (R94, R105). -/
def Instr.length (i : Instr) : Nat :=
  match i.operands with
  | .none => 1
  | .one _ => 3
  | .two _ _ => 5
  | .three _ _ _ => 7
  | .text s => s.length + 2

/-! ## The opcode table's words -/

/-- The bytes of an instruction whose bits, numbered as spec/opcode_table.json numbers them, are `w`: the first byte
is bits 7..0, the next bits 15..8. Every bit above `nbits` is 0, up to the longest fixed format, seven bytes (R94). -/
def tableBytes (nbits w : Nat) : List Byte := leBytes ((nbits + 7) / 8) (w % 2 ^ nbits) ++ leBytes 7 0

/-- The instruction the decoder reads from a word of the opcode table. -/
def decodeTableWord (nbits w : Nat) : Option Instr :=
  match decode (tableBytes nbits w) with
  | .ok (i, _) => some i
  | .error _ => none

end Sys2Proof
end

