-- ==== Sys2Proof/Machine/State.lean ====
section
/-!
DEFINITION. The architectural state of PL0VM core (10_state.md R57), its reset value (R58), and the outcomes a step
may have.
-/
namespace Sys2Proof.Machine

/-! ## Faults as the spec records them -/

/-- The three fault classes of R206. -/
inductive FaultClass where
  | loadError
  | formatError
  | runtimeFault
  deriving DecidableEq, Repr

/-- The fault codes of R207, by the spec's names. -/
inductive FaultCode where
  /-- L_TOO_SHORT -/
  | tooShort
  /-- L_BAD_WIDTH -/
  | badWidth
  /-- F_TRUNCATED -/
  | truncated
  /-- F_BAD_TARGET -/
  | badTarget
  /-- F_BAD_UTF8 -/
  | badUtf8
  /-- F_UNKNOWN_OPCODE -/
  | unknownOpcode
  /-- F_PROC_OUT_OF_RANGE -/
  | procOutOfRange
  /-- F_CONST_OUT_OF_RANGE -/
  | constOutOfRange
  /-- F_DUPLICATE_PROC -/
  | duplicateProc
  /-- F_ENTRY_MISMATCH -/
  | entryMismatch
  /-- F_BAD_LAYOUT -/
  | badLayout
  /-- R_STACK_BOUNDS -/
  | stackBounds
  /-- R_ADDRESS_OVERFLOW -/
  | addressOverflow
  /-- R_UNIMPLEMENTED -/
  | unimplemented
  /-- R_DIV_ZERO -/
  | divZero
  /-- R_STACK_OVERFLOW -/
  | stackOverflow
  /-- R_FRAME_UNSET -/
  | frameUnset
  deriving DecidableEq, Repr

/-- A fault record (R209): class, code, the offset of the opcode byte, and the argument of the raise. -/
structure FaultRecord where
  cls : FaultClass
  code : FaultCode
  pc0 : Nat
  info : Int
  deriving DecidableEq, Repr

/-! ## The pieces of state -/

/-- The two ways a run ends without a fault (R38, R215). -/
inductive HaltKind where
  | normal
  | endOfCode
  deriving DecidableEq, Repr

/-- The run status (R38). -/
inductive RunStatus where
  | running
  | halted (k : HaltKind)
  | faulted (r : FaultRecord)
  deriving DecidableEq, Repr

/-- An output event (R50, R146). -/
inductive OutEvent where
  | outValue (v : Int)
  | outString (s : List Byte)
  deriving DecidableEq, Repr

/-- One entry of the procedure table (R42). `framePtr` is none where the spec says Unset. -/
structure ProcEntry where
  startPos : U64
  framePtr : Option U64
  deriving DecidableEq, Repr

/-- The runtime stack S (R44): its length, and those of its bytes that are not 0, in rising order of address
(Memory.wf of Sys2Proof/Machine/Ops.lean). A byte below the length that is not listed is 0 (log 13). -/
structure Memory where
  len : Nat
  cells : List Host.Cell
  deriving DecidableEq, Repr

/-- Everything R57 names, and the host's side of the input port and of the debug trace. -/
structure State where
  /-- MAX_STACK_BYTES and ENTRY_LEN_MODE (R11, R12) -/
  config : Config
  /-- PB, the program buffer (R46) -/
  pb : List Byte
  /-- W (R39) -/
  width : Width
  /-- R40 -/
  procCount : Nat
  /-- R41 -/
  cpStart : Nat
  /-- R41 -/
  constCount : Nat
  /-- the procedure table (R42) -/
  procTable : List ProcEntry
  /-- CP, the constant pool (R45) -/
  cp : List Int
  /-- S, the runtime stack (R44) -/
  stack : Memory
  /-- R33 -/
  pc : U64
  /-- R35 -/
  fp : U64
  /-- R36 -/
  curProc : U64
  /-- R38 -/
  status : RunStatus
  /-- the output stream, oldest event first (R50) -/
  output : List OutEvent
  /-- the host's answers not yet taken, the next one first (R49, R55). DESIGN CHOICE (log 3): held here. -/
  input : List Int
  /-- the argument of execute (R225, R244) -/
  debugTrace : Bool
  /-- how many trace records the host has been sent (R225, R244). DESIGN CHOICE (log 9): counted, content left out. -/
  traceRecords : Nat
  deriving DecidableEq, Repr

/-- Why no machine exists. No step ends in a fault: a fault of the spec's is the run status Faulted, a next state
(R214; log 2). -/
inductive Fault where
  /-- Raised by `boot` (Sys2Proof/Machine/HostPort.lean) when `load` refuses the bytes: "no VM exists" (R210). Safe:
  the spec gives no state here. -/
  | loadError (r : FaultRecord)
  deriving DecidableEq, Repr

/-- Why an instruction has no meaning. -/
inductive Refusal where
  /-- Raised by an arm of `exec` for an instruction without a meaning; no arm does. Safe: nothing follows from it. -/
  | notModelled (mnemonic : String)
  deriving DecidableEq, Repr

/-- The start of `execute` (R58, R244) of a machine with nothing loaded: S empty, fp = 0, curProc = 0, status Running,
output empty, procTable[0].frame_ptr = 0, pc = procTable[0].start_pos. DESIGN CHOICE (log 4): the values the loader
would set from a program, which has none to set them from. -/
def State.reset : State where
  config := Config.default
  pb := []
  width := .w2
  procCount := 1
  cpStart := 4
  constCount := 0
  procTable := [{ startPos := 4#64, framePtr := some 0#64 }]
  cp := []
  stack := { len := 0, cells := [] }
  pc := 4#64
  fp := 0#64
  curProc := 0#64
  status := .running
  output := []
  input := []
  debugTrace := false
  traceRecords := 0

end Sys2Proof.Machine
end

