-- ==== Sys2Proof/Machine/Ops.lean ====
section
/-!
DEFINITION. The named operations of the machine: raising and taking a fault (60_exceptions.md), the access primitives
of 20_memory.md R72 to R81, the number conversions of 00_scope.md section 5, and the end of an instruction.
-/
namespace Sys2Proof.Machine

/-! ## Faults -/

/-- The class column of R207. -/
def FaultCode.cls : FaultCode → FaultClass
  | .tooShort => .loadError
  | .badWidth => .loadError
  | .truncated => .formatError
  | .badTarget => .formatError
  | .badUtf8 => .formatError
  | .unknownOpcode => .formatError
  | .procOutOfRange => .formatError
  | .constOutOfRange => .formatError
  | .duplicateProc => .formatError
  | .entryMismatch => .formatError
  | .badLayout => .formatError
  | .stackBounds => .runtimeFault
  | .addressOverflow => .runtimeFault
  | .unimplemented => .runtimeFault
  | .divZero => .runtimeFault
  | .stackOverflow => .runtimeFault
  | .frameUnset => .runtimeFault

/-- The code column of R207. -/
def FaultCode.number : FaultCode → Nat
  | .tooShort => 0x01
  | .badWidth => 0x02
  | .truncated => 0x10
  | .badTarget => 0x11
  | .badUtf8 => 0x12
  | .unknownOpcode => 0x13
  | .procOutOfRange => 0x14
  | .constOutOfRange => 0x15
  | .duplicateProc => 0x16
  | .entryMismatch => 0x17
  | .badLayout => 0x18
  | .stackBounds => 0x20
  | .addressOverflow => 0x21
  | .unimplemented => 0x22
  | .divZero => 0x23
  | .stackOverflow => 0x24
  | .frameUnset => 0x25

/-- A `raise` of the spec's pseudocode: a fault code and its argument (00_scope.md section 5). -/
structure Raise where
  code : FaultCode
  info : Int
  deriving DecidableEq, Repr

/-- The record of a raise found at offset `pc0` (R209). -/
def Raise.record (e : Raise) (pc0 : Nat) : FaultRecord :=
  { cls := e.code.cls, code := e.code, pc0 := pc0, info := e.info }

/-- The result of pseudocode that may raise. The first raise reached ends it (R213). -/
abbrev Checked (α : Type) := Except Raise α

/-- `raise <Kind>(info)`. -/
def raise {α : Type} (code : FaultCode) (info : Int) : Checked α := .error { code := code, info := info }

/-! ## The program buffer (R72 to R74) -/

/-- PbByte (R72). -/
def pbByte (pb : List Byte) (pos : Int) : Checked Byte :=
  if pos < 0 ∨ (pb.length : Int) ≤ pos then raise .truncated pos
  else .ok (pb.getD pos.toNat 0#8)

/-- PbS16 (R73): the low byte is read first, so a fault names the first byte not present. -/
def pbS16 (pb : List Byte) (pos : Int) : Checked S16 := do
  let b0 ← pbByte pb pos
  let b1 ← pbByte pb (pos + 1)
  return s16 b0 b1

/-- PbU16 (R74). -/
def pbU16 (pb : List Byte) (pos : Int) : Checked Nat := do
  let b0 ← pbByte pb pos
  let b1 ← pbByte pb (pos + 1)
  return leNat [b0, b1]

/-! ## Number conversions (00_scope.md section 5) -/

/-- wrap_N: the N-bit pattern of an integer. -/
def wrap (w : Width) (x : Int) : Nat := (x % 2 ^ w.bits).toNat

/-- sext_N: an N-bit pattern read as a two's-complement number. -/
def sext (w : Width) (v : Nat) : Int := if v < 2 ^ (w.bits - 1) then (v : Int) else (v : Int) - 2 ^ w.bits

/-- narrow_W. -/
def narrow (w : Width) (x : Int) : Int := sext w (wrap w x)

/-- wrap_64: the 64-bit accumulator's pattern of an integer (R156). -/
def wrap64 (x : Int) : Nat := (x % 2 ^ 64).toNat

/-! ## The runtime stack's bytes -/

/-- What a byte of the stack that no cell lists reads as: the zero fill of R76 and R81 (log 13). -/
def Memory.unlisted : Byte := 0#8

/-- The byte a cell list gives an address. -/
def lookupCell : List Host.Cell → Nat → Byte
  | [], _ => Memory.unlisted
  | (a', b) :: cs, a => if a' = a then b else lookupCell cs a

/-- One byte written into a cell list, keeping its canonical form: addresses rising, no cell that equals what an
unlisted address reads as. -/
def setCell : List Host.Cell → Nat → Byte → List Host.Cell
  | [], a, b => if b = Memory.unlisted then [] else [(a, b)]
  | (a', b') :: cs, a, b =>
    if a < a' then (if b = Memory.unlisted then (a', b') :: cs else (a, b) :: (a', b') :: cs)
    else if a = a' then (if b = Memory.unlisted then cs else (a, b) :: cs)
    else (a', b') :: setCell cs a b

/-- Bytes written in rising order of address from `a` on. -/
def storeBytes : List Host.Cell → Nat → List Byte → List Host.Cell
  | cs, _, [] => cs
  | cs, a, b :: bs => storeBytes (setCell cs a b) (a + 1) bs

/-- Addresses strictly rising. -/
def risingCells : List Host.Cell → Bool
  | [] => true
  | [_] => true
  | (a, _) :: (a', b') :: cs => decide (a < a') && risingCells ((a', b') :: cs)

/-- The canonical form of a stack: addresses strictly rising and below the length, no listed byte equal to what an
unlisted one reads as. -/
def Memory.wf (m : Memory) : Bool :=
  risingCells m.cells && m.cells.all (fun c => decide (c.1 < m.len) && c.2 != Memory.unlisted)

/-- The byte at an address of the stack, whatever its length. -/
def Memory.byte (m : Memory) (a : Nat) : Byte := lookupCell m.cells a

/-- S[a], where it exists: none at or past S.len. -/
def Memory.byte? (m : Memory) (a : Nat) : Option Byte := if a < m.len then some (m.byte a) else none

/-- S[a .. a + n). -/
def Memory.bytesAt (m : Memory) (a : Nat) : Nat → List Byte
  | 0 => []
  | n + 1 => m.byte a :: m.bytesAt (a + 1) n

/-- The Data value of width W that the bytes from `a` on hold (R70). -/
def Memory.data (m : Memory) (w : Width) (a : Nat) : Int := sext w (leNat (m.bytesAt a w.bytes))

/-- The unsigned 8-byte field that the bytes from `a` on hold (R71). -/
def Memory.field (m : Memory) (a : Nat) : Nat := leNat (m.bytesAt a 8)

/-- The stack cut to a shorter length: the bytes above it are gone (R81). -/
def Memory.cut (m : Memory) (n : Nat) : Memory :=
  { len := n, cells := m.cells.filter (fun c => decide (c.1 < n)) }

/-! ## The access primitives (R75 to R81) -/

/-- MemRead (R75). An address at or above 2^64 is told apart where it is computed (`State.address`; log 23). -/
def Memory.read (m : Memory) (addr : Int) (n : Nat) : Checked Nat :=
  if addr < 0 then raise .addressOverflow addr
  else if (m.len : Int) < addr + n then raise .stackBounds addr
  else .ok (leNat (m.bytesAt addr.toNat n))

/-- MemWrite (R76); `max` is MAX_STACK_BYTES. The bytes between the old length and `addr` are unlisted, so zero. An
address at or above 2^64 is told apart where it is computed (`State.address`; log 23). -/
def Memory.write (max : Nat) (m : Memory) (addr : Int) (n v : Nat) : Checked Memory :=
  if addr < 0 then raise .addressOverflow addr
  else if (max : Int) < addr + n then raise .stackOverflow (addr + n)
  else .ok { len := Nat.max m.len (addr.toNat + n), cells := storeBytes m.cells addr.toNat (leBytes n v) }

/-- push_W (R77). -/
def Memory.pushW (max : Nat) (w : Width) (m : Memory) (v : Int) : Checked Memory :=
  m.write max m.len w.bytes (wrap w v)

/-- pop_W (R78): the value popped, and the stack without it. -/
def Memory.popW (w : Width) (m : Memory) : Checked (Int × Memory) :=
  if m.len < w.bytes then raise .stackBounds m.len
  else do
    let v ← m.read ((m.len : Int) - w.bytes) w.bytes
    return (sext w v, m.cut (m.len - w.bytes))

/-- push_64 (R79). -/
def Memory.push64 (max : Nat) (m : Memory) (u : U64) : Checked Memory := m.write max m.len 8 u.toNat

/-- pop_64 (R80): the field popped, and the stack without it. -/
def Memory.pop64 (m : Memory) : Checked (U64 × Memory) :=
  if m.len < 8 then raise .stackBounds m.len
  else do
    let u ← m.read ((m.len : Int) - 8) 8
    return (BitVec.ofNat 64 u, m.cut (m.len - 8))

/-- Resize (R81), EntryProc only: the length becomes `n` exactly, new bytes zero. A length at or above
2^64 is told apart where it is computed (`State.address`; log 23). -/
def Memory.resize (max : Nat) (m : Memory) (n : Int) : Checked Memory :=
  if n < 0 then raise .addressOverflow n
  else if (max : Int) < n then raise .stackOverflow n
  else .ok (m.cut n.toNat)

/-- Truncate (R81), ReturnProc only. -/
def Memory.truncate (m : Memory) (n : Nat) : Checked Memory :=
  if m.len < n then raise .stackBounds n
  else .ok (m.cut n)

/-! ## The end of an instruction -/

/-- MAX_STACK_BYTES as a number. -/
def State.maxStack (s : State) : Nat := s.config.maxStackBytes.toNat

/-- pc moved `n` bytes on, exactly: at or above 2^64 it faults and never wraps (R34). DEDUCED (log 8): the spec's
per-instruction fault lists leave this fault out, as no program buffer is that long. -/
def State.pcAfter (s : State) (n : Nat) : Checked U64 :=
  if s.pc.toNat + n < 2 ^ 64 then .ok (BitVec.ofNat 64 (s.pc.toNat + n))
  else raise .addressOverflow (s.pc.toNat + n)

/-- `emit <Event>` (R146): events are appended and never withdrawn. -/
def State.emit (s : State) (e : OutEvent) : State := { s with output := s.output ++ [e] }

/-- The trace record that follows an instruction when `execute` was given debugTrace (R244); it goes to the host and
changes nothing else (R225; log 9). -/
def State.emitTrace (s : State) : State :=
  { s with traceRecords := s.traceRecords + (if s.debugTrace then 1 else 0) }

/-- FAULT ENTRY (R214): the status becomes Faulted with the record of R209, whose pc0 is the offset of the opcode byte;
nothing is saved and no handler runs. DESIGN CHOICE (log 2): the state that R214 leaves open stays as it was before
the instruction. There is no return from a fault (R217). -/
def State.takeFault (s : State) (e : Raise) : State := { s with status := .faulted (e.record s.pc.toNat) }

/-- How an instruction that began in `s` ends: with its state, or with the fault it raised. -/
def State.finish (s : State) (r : Checked State) : Host.Outcome State Fault Refusal :=
  match r with
  | .ok t => .next t.emitTrace
  | .error e => .next (s.takeFault e).emitTrace

/-- `halt <Kind>` (R215): pc = pc0 + 1, and nothing else changes. -/
def State.halt (s : State) (k : HaltKind) : Checked State := do
  let pc ← s.pcAfter 1
  return { s with pc := pc, status := .halted k }

/-- procTable[i].frame_ptr <- f (R42). -/
def State.setFramePtr (s : State) (i : Nat) (f : U64) : State :=
  { s with procTable := s.procTable.modify i (fun e => { e with framePtr := some f }) }

end Sys2Proof.Machine
end

