-- ==== Sys2Proof/Machine/Flags.lean ====
section
/-!
DEFINITION. The machine has no flags (10_state.md R37). A condition is a Data value on the stack: how one is made
(42_alu.md R158, R160) and how one is tested (43_control_linkage.md R185).
-/
namespace Sys2Proof.Machine

/-- A boolean as a Data value: 1 for true, 0 for false (R158). -/
def boolData (b : Bool) : Int := if b then 1 else 0

/-- Bit 0 of the two's-complement value (R160). -/
def oddBit (w : Width) (v : Int) : Bool := (wrap w v).testBit 0

/-- JumpIfFalse takes its branch on 0 and on no other value (R158, R185). -/
def falseData (v : Int) : Bool := decide (v = 0)

end Sys2Proof.Machine
end

