-- ==== Sys2Proof/Machine/Alu.lean ====
section
/-!
DEFINITION. The stack-machine ALU (42_alu.md). Every instruction is one byte long and writes no flag.
-/
namespace Sys2Proof.Machine

/-- The datapath of R156: the exact result in the 64-bit accumulator, then its low W bytes as a signed number. -/
def aluResult (w : Width) (x : Int) : Int := sext w (wrap64 x % 2 ^ w.bits)

/-- pop, compute, push (R159, R160). -/
def State.unary (s : State) (f : Int → Int) : Checked State := do
  let pc ← s.pcAfter 1
  let (v, m1) ← s.stack.popW s.width
  let m ← m1.pushW s.maxStack s.width (f v)
  return { s with stack := m, pc := pc }

/-- pop right, pop left, compute, push (R161 to R170): the left operand was pushed first (R171). -/
def State.binary (s : State) (f : Int → Int → Checked Int) : Checked State := do
  let pc ← s.pcAfter 1
  let (r, m1) ← s.stack.popW s.width
  let (l, m2) ← m1.popW s.width
  let v ← f l r
  let m ← m2.pushW s.maxStack s.width v
  return { s with stack := m, pc := pc }

/-- A binary instruction whose result the datapath narrows (R156). -/
def State.arithmetic (s : State) (f : Int → Int → Int) : Checked State :=
  s.binary (fun l r => .ok (aluResult s.width (f l r)))

/-- A comparison: it pushes a boolean (R158). -/
def State.compare (s : State) (f : Int → Int → Bool) : Checked State :=
  s.binary (fun l r => .ok (boolData (f l r)))

/-- The quotient rounded toward zero (D15); a right operand 0 faults (R164). -/
def divide (w : Width) (l r : Int) : Checked Int :=
  if r = 0 then raise .divZero 0 else .ok (aluResult w (l.tdiv r))

/-- R159. -/
def execMinusify (s : State) : Host.Outcome State Fault Refusal :=
  s.finish (s.unary (fun v => aluResult s.width (0 - v)))

/-- R160. -/
def execIsOdd (s : State) : Host.Outcome State Fault Refusal :=
  s.finish (s.unary (fun v => boolData (oddBit s.width v)))

/-- R161. -/
def execOpAdd (s : State) : Host.Outcome State Fault Refusal :=
  s.finish (s.arithmetic (fun l r => l + r))

/-- R162. -/
def execOpSubtract (s : State) : Host.Outcome State Fault Refusal :=
  s.finish (s.arithmetic (fun l r => l - r))

/-- R163. -/
def execOpMultiply (s : State) : Host.Outcome State Fault Refusal :=
  s.finish (s.arithmetic (fun l r => l * r))

/-- R164: the zero test comes after both pops. -/
def execOpDivide (s : State) : Host.Outcome State Fault Refusal :=
  s.finish (s.binary (fun l r => divide s.width l r))

/-- R165. -/
def execCompareEq (s : State) : Host.Outcome State Fault Refusal :=
  s.finish (s.compare (fun l r => decide (l = r)))

/-- R166. -/
def execCompareNotEq (s : State) : Host.Outcome State Fault Refusal :=
  s.finish (s.compare (fun l r => decide (l ≠ r)))

/-- R167. -/
def execCompareLT (s : State) : Host.Outcome State Fault Refusal :=
  s.finish (s.compare (fun l r => decide (l < r)))

/-- R168. -/
def execCompareGT (s : State) : Host.Outcome State Fault Refusal :=
  s.finish (s.compare (fun l r => decide (l > r)))

/-- R169. -/
def execCompareLTEq (s : State) : Host.Outcome State Fault Refusal :=
  s.finish (s.compare (fun l r => decide (l ≤ r)))

/-- R170. -/
def execCompareGTEq (s : State) : Host.Outcome State Fault Refusal :=
  s.finish (s.compare (fun l r => decide (l ≥ r)))

end Sys2Proof.Machine
end

