-- ==== Sys2Proof/Machine/Operands.lean ====
section
/-!
DEFINITION. Operand forms: the frame pointers (10_state.md R43), the three addressing modes (40_stack_access.md R130),
the address as a Data value (R131), the index operands (30_encoding.md R101) and the execution-time operand read
(R102).
-/
namespace Sys2Proof.Machine

/-- The operand at position `pos` of the program buffer (R102). -/
def State.fetchS16 (s : State) (pos : Nat) : Checked Int := do
  let v ← pbS16 s.pb pos
  return v.toInt

/-- procTable[i], for an index that exists: 0 ≤ i < procCount (R42, R43). -/
def State.procEntry (s : State) (i : Int) : Checked ProcEntry :=
  if i < 0 ∨ (s.procCount : Int) ≤ i then raise .procOutOfRange i
  else match s.procTable[i.toNat]? with
    | none => raise .procOutOfRange i
    | some e => .ok e

/-- FramePtr(i) (R43). -/
def State.framePtr (s : State) (i : Int) : Checked U64 := do
  let e ← s.procEntry i
  match e.framePtr with
  | none => raise .frameUnset i
  | some f => return f

/-- CP[idx], for an index that exists: 0 ≤ idx < constCount (R138). -/
def State.constant (s : State) (idx : Int) : Checked Int :=
  if idx < 0 ∨ (s.constCount : Int) ≤ idx then raise .constOutOfRange idx
  else match s.cp[idx.toNat]? with
    | none => raise .constOutOfRange idx
    | some v => .ok v

/-- The test of R190 on EntryProc's id operand. -/
def State.checkEntryId (s : State) (id : Int) : Checked Unit :=
  if id < 0 ∨ id ≠ (s.curProc.toNat : Int) then raise .entryMismatch id else .ok ()

/-- The addressing modes of R130. -/
inductive Base where
  /-- fp -/
  | current
  /-- procTable[0].frame_ptr -/
  | main
  /-- procTable[procIdx].frame_ptr -/
  | global (procIdx : S16)
  deriving DecidableEq, Repr

/-- The base an addressing mode reads (R130). -/
def State.baseOf (s : State) : Base → Checked U64
  | .current => .ok s.fp
  | .main => s.framePtr 0
  | .global p => s.framePtr p.toInt

/-- A stack address or length computed on unbounded integers (R10, R35, D7). At or above 2^64, which a frame pointer
restored from an overwritten link record can give, R207 and D7 have it raise R_ADDRESS_OVERFLOW, and R75, R76 and R81
leave it to their length checks: DESIGN CHOICE (log 23), the configuration says which. A negative one is left to R75, R76,
R81 and R131, which raise R_ADDRESS_OVERFLOW. -/
def State.address (s : State) (a : Int) : Checked Int :=
  match s.config.wideAddress with
  | .addressOverflow => if (2 : Int) ^ 64 ≤ a then raise .addressOverflow a else .ok a
  | .lengthChecks => .ok a

/-- The effective address (R130). -/
def State.ea (s : State) (b : Base) (addr : S16) : Checked Int := do
  let f ← s.baseOf b
  s.address ((f.toNat : Int) + addr.toInt)

/-- AddrValue (R131): an address that does not fit a W-bit signed value faults. -/
def addrValue (w : Width) (ea : Int) : Checked Int :=
  if ea < 0 then raise .addressOverflow ea
  else if (2 : Int) ^ (w.bits - 1) - 1 < ea then raise .addressOverflow ea
  else .ok ea

end Sys2Proof.Machine
end

