-- ==== Sys2Proof/Machine/HostIO.lean ====
section
/-!
DEFINITION. The host I/O instructions (41_io.md).
-/
namespace Sys2Proof.Machine

/-- R147. -/
def execOutputValue (s : State) : Host.Outcome State Fault Refusal :=
  s.finish (do
    let pc ← s.pcAfter 1
    let (v, m) ← s.stack.popW s.width
    return { s.emit (.outValue v) with stack := m, pc := pc })

/-- The store of R149, once the host has answered `v`: at fp + a, growing the stack as StoreValue does. -/
def State.storeInput (s : State) (pc : U64) (m : Memory) (a v : Int) : Checked State := do
  let ea ← s.address ((s.fp.toNat : Int) + a)
  let m' ← m.write s.maxStack ea s.width.bytes (wrap s.width v)
  return { s with stack := m', pc := pc }

/-- The state while InputToAddr waits for the host (R148, R227): "no state changes while waiting". DESIGN CHOICE
(log 3): the wait is a step to the same state, so the instruction runs when an answer is there. -/
def State.waitForInput (s : State) : Host.Outcome State Fault Refusal := .next s

/-- R149. The pop comes first; the host's answer is taken before the address is checked, so a fault of the store
leaves it taken (D45). -/
def execInputToAddr (s : State) : Host.Outcome State Fault Refusal :=
  match (do
      let pc ← s.pcAfter 1
      let (a, m) ← s.stack.popW s.width
      return (pc, a, m) : Checked (U64 × Int × Memory)) with
  | .error e => s.finish (.error e)
  | .ok (pc, a, m) =>
    match s.input with
    | [] => s.waitForInput
    | v :: rest =>
      let taken : State := { s with input := rest }
      taken.finish (taken.storeInput pc m a v)

/-- R150: the string is checked whole before anything is emitted; pc moves past its 0x00. -/
def execPutString (text : List Byte) (s : State) : Host.Outcome State Fault Refusal :=
  s.finish (do
    if wellFormedUTF8 text then
      let pc ← s.pcAfter (text.length + 2)
      return { s.emit (.outString text) with pc := pc }
    else raise .badUtf8 ((s.pc.toNat : Int) + 1))

end Sys2Proof.Machine
end

