-- ==== Sys2Proof/Machine/Linkage.lean ====
section
/-!
DEFINITION. Call and return linkage and control transfer (43_control_linkage.md).
-/
namespace Sys2Proof.Machine

/-- The link record of R180: three 8-byte fields, pc at the lowest address, then fp, then curProc. -/
def pushLink (max : Nat) (m : Memory) (pc fp curProc : U64) : Checked Memory := do
  let m1 ← m.push64 max pc
  let m2 ← m1.push64 max fp
  m2.push64 max curProc

/-- R180: the saved pc is the address after the operand (D5); the id is checked before any push (D46). -/
def execCallProc (procId : S16) (s : State) : Host.Outcome State Fault Refusal :=
  s.finish (do
    let ret ← s.pcAfter 3
    let e ← s.procEntry procId.toInt
    let m ← pushLink s.maxStack s.stack ret s.fp s.curProc
    let top : U64 := BitVec.ofNat 64 m.len
    return { s.setFramePtr procId.toInt.toNat top with
      stack := m
      fp := top
      curProc := BitVec.ofInt 64 procId.toInt
      pc := e.startPos })

/-- R182: truncate first, then pop the three fields in reverse order; what is restored is not checked (D42). -/
def execReturnProc (s : State) : Host.Outcome State Fault Refusal :=
  s.finish (
    if s.curProc = 0#64 then s.halt .normal
    else do
      let _ ← s.pcAfter 1
      let f ← s.framePtr s.curProc.toNat
      let m ← s.stack.truncate f.toNat
      let (c, m1) ← m.pop64
      let (f2, m2) ← m1.pop64
      let (p2, m3) ← m2.pop64
      return { s with stack := m3, curProc := c, fp := f2, pc := p2 })

/-- The target of a jump: the address after the operand plus the offset, exactly (R184, R186). -/
def jumpTarget (next : U64) (offset : S16) : Checked U64 :=
  let t : Int := (next.toNat : Int) + offset.toInt
  if t < 0 ∨ (2 : Int) ^ 64 ≤ t then raise .addressOverflow t
  else .ok (BitVec.ofInt 64 t)

/-- R184. -/
def execJump (offset : S16) (s : State) : Host.Outcome State Fault Refusal :=
  s.finish (do
    let next ← s.pcAfter 3
    let t ← jumpTarget next offset
    return { s with pc := t })

/-- R185: the pop comes first; the target is computed only when the branch is taken (D44). -/
def execJumpIfFalse (offset : S16) (s : State) : Host.Outcome State Fault Refusal :=
  s.finish (do
    let (v, m) ← s.stack.popW s.width
    let next ← s.pcAfter 3
    if falseData v then
      let t ← jumpTarget next offset
      return { s with stack := m, pc := t }
    else return { s with stack := m, pc := next })

/-- R190: the body length is skipped unread; the stack's length becomes fp + r exactly (D19). -/
def execEntryProc (_bodyLen procId reservedBytes : S16) (s : State) : Host.Outcome State Fault Refusal :=
  s.finish (do
    let pc ← s.pcAfter 7
    s.checkEntryId procId.toInt
    if reservedBytes.toInt < 0 then raise .addressOverflow reservedBytes.toInt
    else
      let len ← s.address ((s.fp.toNat : Int) + reservedBytes.toInt)
      let m ← s.stack.resize s.maxStack len
      return { s with stack := m, pc := pc })

/-- R191. -/
def execEndOfCode (s : State) : Host.Outcome State Fault Refusal := s.finish (s.halt .endOfCode)

end Sys2Proof.Machine
end

