-- ==== Sys2Proof/Machine/Reserved.lean ====
section
/-!
DEFINITION. The reserved instructions (44_reserved.md): their one effect is the fault R_UNIMPLEMENTED.
-/
namespace Sys2Proof.Machine

/-- The raise of R200 to R202. Its argument is the opcode byte. -/
def unimplemented (o : Opcode) : Checked State := raise .unimplemented (opcodeByte o).toNat

/-- R200. -/
def execPut (s : State) : Host.Outcome State Fault Refusal := s.finish (unimplemented .put)

/-- R201: no input is taken. -/
def execGet (s : State) : Host.Outcome State Fault Refusal := s.finish (unimplemented .get)

/-- R202: nothing is popped. -/
def execOpAddAddr (s : State) : Host.Outcome State Fault Refusal := s.finish (unimplemented .opAddAddr)

end Sys2Proof.Machine
end

