-- ==== Sys2Proof/Machine/StackAccess.lean ====
section
/-!
DEFINITION. The stack-access instructions (40_stack_access.md). Each meaning takes the state whose pc is pc0, the
offset of the opcode byte, and the operands the decoder read.
-/
namespace Sys2Proof.Machine

/-- PushValue* (R132 to R134): read W bytes at the effective address, then push them. `n` is the length of the form. -/
def State.pushValue (s : State) (n : Nat) (b : Base) (addr : S16) : Checked State := do
  let pc ← s.pcAfter n
  let ea ← s.ea b addr
  let v ← s.stack.read ea s.width.bytes
  let m ← s.stack.pushW s.maxStack s.width (sext s.width v)
  return { s with stack := m, pc := pc }

/-- PushAddress* (R135 to R137): push the effective address as a Data value. -/
def State.pushAddress (s : State) (n : Nat) (b : Base) (addr : S16) : Checked State := do
  let pc ← s.pcAfter n
  let ea ← s.ea b addr
  let v ← addrValue s.width ea
  let m ← s.stack.pushW s.maxStack s.width v
  return { s with stack := m, pc := pc }

/-- R132. -/
def execPushValueLocalVar (addr : S16) (s : State) : Host.Outcome State Fault Refusal :=
  s.finish (s.pushValue 3 .current addr)

/-- R133. -/
def execPushValueMainVar (addr : S16) (s : State) : Host.Outcome State Fault Refusal :=
  s.finish (s.pushValue 3 .main addr)

/-- R134. -/
def execPushValueGlobalVar (addr procIdx : S16) (s : State) : Host.Outcome State Fault Refusal :=
  s.finish (s.pushValue 5 (.global procIdx) addr)

/-- R135. -/
def execPushAddressLocalVar (addr : S16) (s : State) : Host.Outcome State Fault Refusal :=
  s.finish (s.pushAddress 3 .current addr)

/-- R136. -/
def execPushAddressMainVar (addr : S16) (s : State) : Host.Outcome State Fault Refusal :=
  s.finish (s.pushAddress 3 .main addr)

/-- R137. -/
def execPushAddressGlobalVar (addr procIdx : S16) (s : State) : Host.Outcome State Fault Refusal :=
  s.finish (s.pushAddress 5 (.global procIdx) addr)

/-- R138. -/
def execPushConstant (idx : S16) (s : State) : Host.Outcome State Fault Refusal :=
  s.finish (do
    let pc ← s.pcAfter 3
    let v ← s.constant idx.toInt
    let m ← s.stack.pushW s.maxStack s.width v
    return { s with stack := m, pc := pc })

/-- R139: the value is on top, the absolute address below it. -/
def execStoreValue (s : State) : Host.Outcome State Fault Refusal :=
  s.finish (do
    let pc ← s.pcAfter 1
    let (v, m1) ← s.stack.popW s.width
    let (a, m2) ← m1.popW s.width
    let m ← m2.write s.maxStack a s.width.bytes (wrap s.width v)
    return { s with stack := m, pc := pc })

/-- R140. -/
def execPop (s : State) : Host.Outcome State Fault Refusal :=
  s.finish (do
    let pc ← s.pcAfter 1
    let (_, m) ← s.stack.popW s.width
    return { s with stack := m, pc := pc })

/-- R141: a dereference; the read is checked against the length after the pop. -/
def execSwap (s : State) : Host.Outcome State Fault Refusal :=
  s.finish (do
    let pc ← s.pcAfter 1
    let (a, m1) ← s.stack.popW s.width
    let v ← m1.read a s.width.bytes
    let m ← m1.pushW s.maxStack s.width (sext s.width v)
    return { s with stack := m, pc := pc })

end Sys2Proof.Machine
end

