-- ==== Sys2Proof/Machine/Dispatch.lean ====
section
/-!
DEFINITION. One arm per instruction: which meaning it has.
-/
namespace Sys2Proof.Machine

/-- The rule of an instruction (the rule column of R97), at a state whose pc is the offset of its opcode byte. -/
def exec (i : Instr) (s : State) : Host.Outcome State Fault Refusal :=
  match i with
  | .pushValueLocalVar addr => Sys2Proof.Machine.execPushValueLocalVar addr s
  | .pushValueMainVar addr => Sys2Proof.Machine.execPushValueMainVar addr s
  | .pushValueGlobalVar addr procIdx => Sys2Proof.Machine.execPushValueGlobalVar addr procIdx s
  | .pushAddressLocalVar addr => Sys2Proof.Machine.execPushAddressLocalVar addr s
  | .pushAddressMainVar addr => Sys2Proof.Machine.execPushAddressMainVar addr s
  | .pushAddressGlobalVar addr procIdx => Sys2Proof.Machine.execPushAddressGlobalVar addr procIdx s
  | .pushConstant idx => Sys2Proof.Machine.execPushConstant idx s
  | .storeValue => Sys2Proof.Machine.execStoreValue s
  | .outputValue => Sys2Proof.Machine.execOutputValue s
  | .inputToAddr => Sys2Proof.Machine.execInputToAddr s
  | .minusify => Sys2Proof.Machine.execMinusify s
  | .isOdd => Sys2Proof.Machine.execIsOdd s
  | .opAdd => Sys2Proof.Machine.execOpAdd s
  | .opSubtract => Sys2Proof.Machine.execOpSubtract s
  | .opMultiply => Sys2Proof.Machine.execOpMultiply s
  | .opDivide => Sys2Proof.Machine.execOpDivide s
  | .compareEq => Sys2Proof.Machine.execCompareEq s
  | .compareNotEq => Sys2Proof.Machine.execCompareNotEq s
  | .compareLT => Sys2Proof.Machine.execCompareLT s
  | .compareGT => Sys2Proof.Machine.execCompareGT s
  | .compareLTEq => Sys2Proof.Machine.execCompareLTEq s
  | .compareGTEq => Sys2Proof.Machine.execCompareGTEq s
  | .callProc procId => Sys2Proof.Machine.execCallProc procId s
  | .returnProc => Sys2Proof.Machine.execReturnProc s
  | .jump offset => Sys2Proof.Machine.execJump offset s
  | .jumpIfFalse offset => Sys2Proof.Machine.execJumpIfFalse offset s
  | .entryProc bodyLen procId reservedBytes => Sys2Proof.Machine.execEntryProc bodyLen procId reservedBytes s
  | .putString text => Sys2Proof.Machine.execPutString text s
  | .pop => Sys2Proof.Machine.execPop s
  | .swap => Sys2Proof.Machine.execSwap s
  | .endOfCode => Sys2Proof.Machine.execEndOfCode s
  | .put => Sys2Proof.Machine.execPut s
  | .get => Sys2Proof.Machine.execGet s
  | .opAddAddr => Sys2Proof.Machine.execOpAddAddr s

end Sys2Proof.Machine
end

