-- ==== Sys2Proof/Machine/Fetch.lean ====
section
/-!
DEFINITION. Fetching an instruction (30_encoding.md R108, R109): the decoded instruction at pc, or the fault that its
bytes raise; and where a word of the opcode table is placed so that it is fetched next.
-/
namespace Sys2Proof.Machine

/-- The instruction at pc and the bytes after it. -/
def State.fetch (s : State) : Except DecodeError (Instr × List Byte) := decodeAt s.pb s.pc.toNat

/-- What an instruction whose operands do not all lie in the program buffer does before it raises, in the order of its
rule (R109, R213): its checks that come before the missing byte, and its operand reads. DEDUCED (log 14). -/
def State.operandReads (s : State) (o : Opcode) : Checked Unit :=
  match o.format, o with
  | .f1, .jumpIfFalse => do
    let _ ← s.stack.popW s.width
    let _ ← s.fetchS16 (s.pc.toNat + 1)
  | .f1, _ => do
    let _ ← s.fetchS16 (s.pc.toNat + 1)
  | .f2, _ => do
    let _ ← s.fetchS16 (s.pc.toNat + 1)
    let _ ← s.fetchS16 (s.pc.toNat + 3)
  | .f3, _ => do
    let id ← s.fetchS16 (s.pc.toNat + 3)
    s.checkEntryId id
    let _ ← s.fetchS16 (s.pc.toNat + 5)
  | .fs, _ => raise .truncated s.pb.length
  | .f0, _ => .ok ()
  | .unspecified, _ => .ok ()

/-- The raise of an instruction that is cut short by the end of the program buffer: at its opcode byte (R108), or where
its rule first misses a byte. -/
def State.truncatedRaise (s : State) : Raise :=
  match pbByte s.pb s.pc.toNat with
  | .error e => e
  | .ok op =>
    match opcodeOf op with
    | none => { code := .truncated, info := s.pb.length }
    | some o =>
      match s.operandReads o with
      | .error e => e
      | .ok _ => { code := .truncated, info := s.pb.length }

/-- The raise of bytes that are no instruction: F_UNKNOWN_OPCODE before pc moves (R203), F_BAD_UTF8 at the string's first
byte (R150), or the truncated case. -/
def State.fetchRaise (s : State) : DecodeError → Raise
  | .truncated => s.truncatedRaise
  | .unknownOpcode b => { code := .unknownOpcode, info := b.toNat }
  | .badUtf8 => { code := .badUtf8, info := (s.pc.toNat : Int) + 1 }

/-- A program buffer with `bs` at offset `pos`, and zero bytes before it where the buffer was shorter. -/
def placeBytes (pb : List Byte) (pos : Nat) (bs : List Byte) : List Byte :=
  pb.take pos ++ List.replicate (pos - pb.length) 0#8 ++ bs ++ pb.drop (pos + bs.length)

end Sys2Proof.Machine
end

