-- ==== Sys2Proof/Machine/Step.lean ====
section
/-!
DEFINITION. One execution step (30_encoding.md R108), and the placing of a word of the opcode table where the next step
fetches.
-/
namespace Sys2Proof.Machine

/-- One step. While the status is Running: fetch, then the instruction's rule, or the fault its bytes raise (R108).
Halted and Faulted are terminal (R38): DESIGN CHOICE (log 1), the step then answers the same state. -/
def step (s : State) : Host.Outcome State Fault Refusal :=
  match s.status with
  | .running =>
    match s.fetch with
    | .ok (i, _) => exec i s
    | .error e => s.finish (.error (s.fetchRaise e))
  | .halted _ => .next s
  | .faulted _ => .next s

/-- The state with the instruction of a table word stored at pc, the status Running, and nothing else changed
(log 21). -/
def State.withFetchWord (s : State) (nbits w : Nat) : State :=
  { s with pb := placeBytes s.pb s.pc.toNat (tableBytes nbits w), status := .running }

end Sys2Proof.Machine
end

