-- ==== Sys2Proof/Machine/Loader.lean ====
section
/-!
DEFINITION. Load, the loader scan and the reset of `execute` (70_reset_and_hazards.md R236 to R246).
-/
namespace Sys2Proof.Machine

/-- What a successful `load` keeps (R236, R247): the bytes, W and procCount. -/
structure VM where
  pb : List Byte
  width : Width
  procCount : Nat
  deriving DecidableEq, Repr

/-- The legal values of the header's width field (R237). -/
def widthOfField (v : Nat) : Option Width :=
  if v = 2 then some .w2 else if v = 4 then some .w4 else if v = 8 then some .w8 else none

/-- load(bytes) (R236): the length is checked before the width. DEDUCED (log 10): pc0 of a LoadError is the offset of
what is read, 0 for the length check and 2 for the width field. -/
def load (bytes : List Byte) : Except FaultRecord VM :=
  if bytes.length ≤ 4 then .error (Raise.record { code := .tooShort, info := bytes.length } 0)
  else match pbU16 bytes 2, pbU16 bytes 0 with
    | .ok v, .ok n =>
      match widthOfField v with
      | some w => .ok { pb := bytes, width := w, procCount := n }
      | none => .error (Raise.record { code := .badWidth, info := v } 2)
    | .error e, _ => .error (e.record 2)
    | _, .error e => .error (e.record 0)

/-! ## The loader scan -/

/-- Where each procedure's EntryProc was found, so far (R241: `found` and `start_pos` together). -/
abbrev Found := List (Option U64)

/-- The bytes of the procedure body that the scan skips, from EntryProc's first operand (R12, R241). -/
def bodyBytes (mode : EntryLenMode) (len : Int) : Int :=
  match mode with
  | .afterHeader => len
  | .fromOpcode => len - 7

/-- The scan at an EntryProc header at `pos`, once its operands are read (R241): what remains of its body, and the
procedures found. -/
def scanHeader (mode : EntryLenMode) (procCount : Nat) (found : Found) (pos : Nat) (len id : Int) :
    Except FaultRecord (Nat × Found) :=
  if id < 0 ∨ (procCount : Int) ≤ id then .error (Raise.record { code := .procOutOfRange, info := id } pos)
  else match found[id.toNat]? with
    | none => .error (Raise.record { code := .procOutOfRange, info := id } pos)
    | some (some _) => .error (Raise.record { code := .duplicateProc, info := id } pos)
    | some none =>
      if bodyBytes mode len < 0 then .error (Raise.record { code := .badLayout, info := pos } pos)
      else .ok ((bodyBytes mode len).toNat, found.set id.toNat (some (BitVec.ofNat 64 pos)))

/-- The loop of LoaderScan (R241) over the bytes from `pos` on: `remaining` bytes of a body still to skip, `toFind`
procedures still to find. It answers cpStart and the procedures found. -/
def scanFrom (mode : EntryLenMode) (procCount : Nat) :
    List Byte → Nat → Nat → Nat → Found → Except FaultRecord (Nat × Found)
  | _, pos, 0, 0, found => .ok (pos, found)
  | [], pos, 0, _ + 1, _ => .error (Raise.record { code := .truncated, info := pos } pos)
  | [], pos, _ + 1, _, _ => .error (Raise.record { code := .truncated, info := pos } pos)
  | _ :: bs, pos, remaining + 1, toFind, found => scanFrom mode procCount bs (pos + 1) remaining toFind found
  | op :: l0 :: l1 :: i0 :: i1 :: _ :: _ :: body, pos, 0, toFind + 1, found =>
    if opcodeOf op = some .entryProc then
      match scanHeader mode procCount found pos (s16 l0 l1).toInt (s16 i0 i1).toInt with
      | .error r => .error r
      | .ok (remaining, found') => scanFrom mode procCount body (pos + 7) remaining toFind found'
    else .error (Raise.record { code := .badLayout, info := pos } pos)
  | op :: rest, pos, 0, _ + 1, _ =>
    if opcodeOf op = some .entryProc then
      .error (Raise.record { code := .truncated, info := (pos : Int) + 1 + rest.length } pos)
    else .error (Raise.record { code := .badLayout, info := pos } pos)

/-- The bytes of constant-pool record k (R69). -/
def recordBytes (w : Width) (pb : List Byte) (cpStart k : Nat) : List Byte :=
  (pb.drop (cpStart + k * w.bytes)).take w.bytes

/-- constCount (R41): the bytes after the last whole record belong to none (R243). -/
def recordCount (w : Width) (pb : List Byte) (cpStart : Nat) : Nat := (pb.length - cpStart) / w.bytes

/-- CP (R69, R241). -/
def constantPool (w : Width) (pb : List Byte) (cpStart : Nat) : List Int :=
  (List.range (recordCount w pb cpStart)).map (fun k => sext w (leNat (recordBytes w pb cpStart k)))

/-- What the loader scan builds (R239): start_pos of each procedure, where the pool begins, and the pool. -/
structure Tables where
  startPos : List U64
  cpStart : Nat
  cp : List Int
  deriving DecidableEq, Repr

/-- LoaderScan (R241). -/
def loaderScan (mode : EntryLenMode) (vm : VM) : Except FaultRecord Tables :=
  match scanFrom mode vm.procCount (vm.pb.drop 4) 4 0 vm.procCount (List.replicate vm.procCount none) with
  | .error r => .error r
  | .ok (cpStart, found) =>
    .ok { startPos := found.filterMap id, cpStart := cpStart, cp := constantPool vm.width vm.pb cpStart }

/-! ## Reset -/

/-- The procedure table at reset (R43, R58): procedure 0's frame is at 0, every other frame_ptr is Unset. -/
def resetTable : List U64 → List ProcEntry
  | [] => []
  | p :: ps => { startPos := p, framePtr := some 0#64 } :: ps.map (fun q => { startPos := q, framePtr := none })

/-- The machine `execute` leaves when it faults before the first step (R211, R246): the status is Faulted and nothing
was emitted. Everything else is unobservable (R214; log 18). -/
def faultedAtStart (config : Config) (vm : VM) (debugTrace : Bool) (input : List Int) (r : FaultRecord) : State where
  config := config
  pb := vm.pb
  width := vm.width
  procCount := vm.procCount
  cpStart := 0
  constCount := 0
  procTable := []
  cp := []
  stack := { len := 0, cells := [] }
  pc := 0#64
  fp := 0#64
  curProc := 0#64
  status := .faulted r
  output := []
  input := input
  debugTrace := debugTrace
  traceRecords := 0

/-- The start of `execute` (R244) up to its first step: the loader scan, then reset. `input` is what the host will
answer. With no procedure 0 it faults (R246); DESIGN CHOICE (log 10): that record's pc0 is cpStart. -/
def execute (config : Config) (vm : VM) (debugTrace : Bool) (input : List Int) : State :=
  match loaderScan config.entryLenMode vm with
  | .error r => faultedAtStart config vm debugTrace input r
  | .ok t =>
    match t.startPos with
    | [] => faultedAtStart config vm debugTrace input (Raise.record { code := .procOutOfRange, info := 0 } t.cpStart)
    | p0 :: _ =>
      { config := config
        pb := vm.pb
        width := vm.width
        procCount := vm.procCount
        cpStart := t.cpStart
        constCount := t.cp.length
        procTable := resetTable t.startPos
        cp := t.cp
        stack := { len := 0, cells := [] }
        pc := p0
        fp := 0#64
        curProc := 0#64
        status := .running
        output := []
        input := input
        debugTrace := debugTrace
        traceRecords := 0 }

end Sys2Proof.Machine
end

