-- ==== Sys2Proof/Machine/Analyzer.lean ====
section
/-!
DEFINITION. The static analyzer (30_encoding.md R106, R111 to R115; 60_exceptions.md R229). It reads the program buffer
only: it has no access to the execution state (R112).
-/
namespace Sys2Proof.Machine

/-- A fault the analyzer reports, with its position (R229). DEDUCED (log 24): R106 gives F_TRUNCATED no position but the
missing one, which is its argument; a loader fault's is the pc0 of its record. -/
structure AnalysisFault where
  raised : Raise
  pos : Nat
  deriving DecidableEq, Repr

/-- An instruction line (R115). -/
structure InstrLine where
  offset : Nat
  raw : Byte
  opcode : Opcode
  operands : Operands
  target : Option Int
  main : Bool
  deriving DecidableEq, Repr

/-- A constant line (R115). -/
structure ConstLine where
  index : Nat
  bytes : List Byte
  value : Int
  deriving DecidableEq, Repr

/-- What `analyze` produces (R229): the lines, and the fault it ended at, if any. -/
structure Analysis where
  lines : List InstrLine
  consts : List ConstLine
  fault : Option AnalysisFault
  deriving DecidableEq, Repr

/-- Decode(pos) of R106: the instruction and the position of the next one, or a fault verdict. A reserved byte is
Invalid (R204, D36). -/
def staticDecode (pb : List Byte) (pos : Nat) : Except AnalysisFault (Instr × Nat) :=
  match pbByte pb pos with
  | .error e => .error { raised := e, pos := pos }
  | .ok op =>
    match decodeAt pb pos with
    | .error .truncated => .error { raised := { code := .truncated, info := pb.length }, pos := pb.length }
    | .error (.unknownOpcode b) => .error { raised := { code := .unknownOpcode, info := b.toNat }, pos := pos }
    | .error .badUtf8 => .error { raised := { code := .badUtf8, info := (pos : Int) + 1 }, pos := pos + 1 }
    | .ok (i, _) =>
      match i.opcode.cls with
      | .reserved => .error { raised := { code := .unimplemented, info := op.toNat }, pos := pos }
      | .implemented => .ok (i, pos + i.length)

/-- The absolute target the analyzer prints for a jump at `pos` (R111, R113). -/
def staticTarget (pos : Nat) : Instr → Option Int
  | .jump offset => some ((pos : Int) + 3 + offset.toInt)
  | .jumpIfFalse offset => some ((pos : Int) + 3 + offset.toInt)
  | _ => none

/-- The `main` mark of R115. -/
def mainMark : Instr → Bool
  | .entryProc _ procId _ => decide (procId.toInt = 0)
  | _ => false

/-- The line of one instruction, or F_BAD_TARGET (R111, R114). -/
def analyzeInstr (pos : Nat) (i : Instr) : Except AnalysisFault InstrLine :=
  let line : InstrLine :=
    { offset := pos, raw := opcodeByte i.opcode, opcode := i.opcode, operands := i.operands,
      target := staticTarget pos i, main := mainMark i }
  match staticTarget pos i with
  | none => .ok line
  | some t =>
    if t < 0 ∨ (2 : Int) ^ 64 ≤ t then .error { raised := { code := .badTarget, info := t }, pos := pos }
    else .ok line

/-- The linear decode of R111 from `pos` up to cpStart. Every instruction has a byte at least, so `fuel` = cpStart is
enough. -/
def analyzeFrom (pb : List Byte) (cpStart : Nat) : Nat → Nat → List InstrLine × Option AnalysisFault
  | 0, _ => ([], none)
  | fuel + 1, pos =>
    if cpStart ≤ pos then ([], none)
    else match staticDecode pb pos with
      | .error f => ([], some f)
      | .ok (i, next) =>
        match analyzeInstr pos i with
        | .error f => ([], some f)
        | .ok line =>
          let rest := analyzeFrom pb cpStart fuel next
          (line :: rest.1, rest.2)

/-- The constant lines of R111. -/
def constLines (w : Width) (pb : List Byte) (t : Tables) : List ConstLine :=
  (List.range t.cp.length).map (fun k =>
    { index := k, bytes := recordBytes w pb t.cpStart k, value := sext w (leNat (recordBytes w pb t.cpStart k)) })

/-- Analyze() of R111: a loader fault stops it first; the constant lines come only where no fault was found. -/
def analyze (mode : EntryLenMode) (vm : VM) : Analysis :=
  match loaderScan mode vm with
  | .error r => { lines := [], consts := [], fault := some { raised := { code := r.code, info := r.info }, pos := r.pc0 } }
  | .ok t =>
    match analyzeFrom vm.pb t.cpStart t.cpStart 4 with
    | (lines, some f) => { lines := lines, consts := [], fault := some f }
    | (lines, none) => { lines := lines, consts := constLines vm.width vm.pb t, fault := none }

end Sys2Proof.Machine
end

