-- ==== Sys2Proof/Machine/HostPort.lean ====
section
/-!
DEFINITION. The host's side of the machine (10_state.md R55, R56; 60_exceptions.md R226, R228): starting a run, answering
input, taking output, and a run bounded by fuel.
-/
namespace Sys2Proof.Machine

/-- The boot order of R245: load, loader scan, reset. A LoadError leaves no machine (R210). -/
def boot (config : Config) (bytes : List Byte) (debugTrace : Bool) (input : List Int) :
    Host.Outcome State Fault Refusal :=
  match load bytes with
  | .error r => .fault (.loadError r)
  | .ok vm => .next (execute config vm debugTrace input)

/-- Whether an integer is a Data value of width W (00_scope.md section 6). -/
def inRange (w : Width) (v : Int) : Bool :=
  decide (-(2 : Int) ^ (w.bits - 1) ≤ v) && decide (v < (2 : Int) ^ (w.bits - 1))

/-- The values the host answers from its input lines (R148). `parse` is INPUT_PARSE (R13): a line that does not parse,
or whose value is no Data value, is consumed and not seen by the core (log 11). -/
def hostAnswers (parse : Width → List Byte → Option Int) (w : Width) (lines : List (List Byte)) : List Int :=
  (lines.filterMap (parse w)).filter (inRange w)

/-- The host answers one input request (R55). -/
def State.answer (s : State) (v : Int) : State := { s with input := s.input ++ [v] }

/-- The text of the output stream. `render` is OUTPUT_RENDER (R13, R146). -/
def State.outputText (render : OutEvent → List Byte) (s : State) : List Byte := (s.output.map render).flatten

/-- How a run bounded by fuel ended (R228): with a terminal status, or not finished. -/
inductive RunResult where
  | ended (s : State)
  | notFinished (s : State)
  deriving DecidableEq, Repr

/-- A run of at most `fuel` steps; a run that does not end is reported so and not as a fault (R228). -/
def runFuel : Nat → State → RunResult
  | fuel, s =>
    match s.status with
    | .halted _ => .ended s
    | .faulted _ => .ended s
    | .running =>
      match fuel with
      | 0 => .notFinished s
      | n + 1 =>
        match step s with
        | .next t => runFuel n t
        | .fault _ => .notFinished s
        | .refused _ => .notFinished s

end Sys2Proof.Machine
end

