-- ==== Sys2Proof/Safety.lean ====
section
/-!
DEFINITION. What the statements call a sound state, the room an instruction needs, and the end of a run.
-/
namespace Sys2Proof.Machine

/-- Every output event is one the spec allows: a Data value, or well-formed UTF-8 (R50, R146). -/
def OutEvent.legal (w : Width) : OutEvent → Bool
  | .outValue v => inRange w v
  | .outString s => wellFormedUTF8 s

/-- The class of a fault record is its code's (R207, R209). -/
def RunStatus.legal : RunStatus → Bool
  | .running => true
  | .halted _ => true
  | .faulted r => decide (r.cls = r.code.cls)

/-- The stack is in canonical form and within MAX_STACK_BYTES (R44). -/
abbrev State.stackOk (s : State) : Prop := s.stack.wf = true ∧ s.stack.len ≤ s.maxStack

/-- The invariant of the machine: the stack is sound (R44); while it runs, the tables have the sizes R41 and R42 give
them and procedure 0 has a frame (R133); constants, answers and events are Data values of width W (R45, R49, R50). -/
structure State.Inv (s : State) : Prop where
  stack : s.stackOk
  tables : s.status = .running → s.procTable.length = s.procCount ∧ s.cp.length = s.constCount
  mainFrame : s.status = .running → ∃ e f, s.procTable[0]? = some e ∧ e.framePtr = some f
  constants : s.cp.all (inRange s.width) = true
  answers : s.input.all (inRange s.width) = true
  events : s.output.all (OutEvent.legal s.width) = true
  status : s.status.legal = true

/-- An instruction of `n` bytes at pc leaves pc below 2^64 (R34), on a sound stack: what every statement about an
instruction's own effect asks of the state. -/
abbrev State.ready (s : State) (n : Nat) : Prop := s.stackOk ∧ s.pc.toNat + n < 2 ^ 64

/-! ## The words the statements are written in -/

/-- pc, `n` bytes on (R102, R129). -/
def State.pcPlus (s : State) (n : Nat) : U64 := BitVec.ofNat 64 (s.pc.toNat + n)

/-- The number of trace records after an instruction (R225, R244; log 9). -/
def State.tracesAfter (s : State) : Nat := s.traceRecords + (if s.debugTrace then 1 else 0)

/-- The instruction raises the fault: exec answers a state whose status is Faulted with the record of R209, no event is
emitted (R216), and the host's answers left are `inp`. Nothing is said of the rest, which R214 leaves unobservable. -/
def State.raisesLeaving (s : State) (i : Instr) (code : FaultCode) (info : Int) (inp : List Int) : Prop :=
  ∃ t, exec i s = .next t ∧
    t.status = .faulted { cls := code.cls, code := code, pc0 := s.pc.toNat, info := info } ∧
    t.output = s.output ∧ t.input = inp

/-- The instruction raises the fault and takes no answer of the host. -/
def State.raises (s : State) (i : Instr) (code : FaultCode) (info : Int) : Prop :=
  s.raisesLeaving i code info s.input

/-- The step raises the fault, as `raises` says of an instruction. -/
def State.stepRaises (s : State) (code : FaultCode) (info : Int) : Prop :=
  ∃ t, step s = .next t ∧
    t.status = .faulted { cls := code.cls, code := code, pc0 := s.pc.toNat, info := info } ∧
    t.output = s.output ∧ t.input = s.input

/-- While it runs, with the opcode byte `op` at pc and fewer than `n` bytes after it, the step raises F_TRUNCATED at the
end of the program buffer (R73, R102). -/
def State.truncatesAt (s : State) (op : Byte) (n : Nat) : Prop :=
  s.status = .running → ∀ rest, s.pb.drop s.pc.toNat = op :: rest → rest.length < n →
    s.stepRaises .truncated s.pb.length

/-- `m'` is `m` cut to length `n`: every byte below `n` is as it was. -/
def Memory.shortenedTo (m m' : Memory) (n : Nat) : Prop :=
  m'.wf = true ∧ m'.len = n ∧ ∀ a, a < n → m'.byte? a = m.byte? a

/-- The instruction of `n` bytes completes: S keeps its first `keep` bytes, the Data value `v` is on top of them, pc moves
on, and nothing else changes. -/
def State.pushesAt (s : State) (i : Instr) (n keep : Nat) (v : Int) : Prop :=
  ∃ m : Memory,
    exec i s = .next { s with stack := m, pc := s.pcPlus n, traceRecords := s.tracesAfter } ∧
    m.wf = true ∧ m.len = keep + s.width.bytes ∧ m.data s.width keep = v ∧
    ∀ a, a < keep → m.byte? a = s.stack.byte? a

/-- The one-byte instruction completes with a store: S is cut to `keep` bytes, then the Data value `v` is written at `a`,
S growing where it must with zero bytes (R76); pc moves on, the host's answers left are `inp`, nothing else changes. -/
def State.storesAt (s : State) (i : Instr) (keep : Nat) (inp : List Int) (a : Nat) (v : Int) : Prop :=
  ∃ m : Memory,
    exec i s = .next { s with stack := m, pc := s.pcPlus 1, input := inp, traceRecords := s.tracesAfter } ∧
    m.wf = true ∧ m.len = Nat.max keep (a + s.width.bytes) ∧ m.data s.width a = v ∧
    ∀ c, c < a ∨ a + s.width.bytes ≤ c →
      m.byte? c = if c < keep then s.stack.byte? c else if c < m.len then some 0#8 else none

/-- procTable[i] exists and its frame_ptr is `f`, none standing for Unset (R42, R43). -/
def State.frameAt (s : State) (i : Int) (f : Option U64) : Prop :=
  0 ≤ i ∧ i < s.procCount ∧ ∃ e, s.procTable[i.toNat]? = some e ∧ e.framePtr = f

/-- An address or length at or above 2^64 that the configuration has raise R_ADDRESS_OVERFLOW (R207, D7; log 23). -/
def State.tooWide (s : State) (a : Int) : Prop := s.config.wideAddress = .addressOverflow ∧ (2 : Int) ^ 64 ≤ a

/-- The cases of PushValue* once the effective address is known (R132 to R134). At or above 2^64 the configuration
decides between two faults (log 23). -/
def State.pushValueCases (s : State) (i : Instr) (n : Nat) (ea : Int) : Prop :=
  (ea < 0 ∨ s.tooWide ea → s.raises i .addressOverflow ea) ∧
  (0 ≤ ea → ¬ s.tooWide ea → (s.stack.len : Int) < ea + s.width.bytes → s.raises i .stackBounds ea) ∧
  (0 ≤ ea → ea + s.width.bytes ≤ s.stack.len → s.maxStack < s.stack.len + s.width.bytes →
    s.raises i .stackOverflow ((s.stack.len : Int) + s.width.bytes)) ∧
  (0 ≤ ea → ea + s.width.bytes ≤ s.stack.len → s.stack.len + s.width.bytes ≤ s.maxStack →
    s.pushesAt i n s.stack.len (s.stack.data s.width ea.toNat))

/-- The cases of PushAddress* once the effective address is known (R131, R135 to R137). -/
def State.pushAddressCases (s : State) (i : Instr) (n : Nat) (ea : Int) : Prop :=
  (ea < 0 ∨ (2 : Int) ^ (s.width.bits - 1) ≤ ea → s.raises i .addressOverflow ea) ∧
  (0 ≤ ea → ea < (2 : Int) ^ (s.width.bits - 1) → s.maxStack < s.stack.len + s.width.bytes →
    s.raises i .stackOverflow ((s.stack.len : Int) + s.width.bytes)) ∧
  (0 ≤ ea → ea < (2 : Int) ^ (s.width.bits - 1) → s.stack.len + s.width.bytes ≤ s.maxStack →
    s.pushesAt i n s.stack.len ea)

/-- A binary instruction that finds fewer than two Data values: the first pop that lacks W bytes faults (R161). -/
def State.binaryUnderflow (s : State) (i : Instr) : Prop :=
  (s.stack.len < s.width.bytes → s.raises i .stackBounds s.stack.len) ∧
  (s.width.bytes ≤ s.stack.len → s.stack.len < 2 * s.width.bytes →
    s.raises i .stackBounds ((s.stack.len : Int) - s.width.bytes))

/-- The Data value on top of the stack, where one is. -/
def State.top (s : State) : Int := s.stack.data s.width (s.stack.len - s.width.bytes)

/-- The Data value below the top one, where one is: the left operand (R171). -/
def State.second (s : State) : Int := s.stack.data s.width (s.stack.len - 2 * s.width.bytes)

/-- A binary instruction: its underflow faults, and its result on the operands `second` (left) and `top` (right). -/
def State.binaryCases (s : State) (i : Instr) (v : Int) : Prop :=
  s.binaryUnderflow i ∧
  (2 * s.width.bytes ≤ s.stack.len → s.pushesAt i 1 (s.stack.len - 2 * s.width.bytes) v)

/-- A unary instruction: its underflow fault, and its result on the operand `top`. -/
def State.unaryCases (s : State) (i : Instr) (v : Int) : Prop :=
  (s.stack.len < s.width.bytes → s.raises i .stackBounds s.stack.len) ∧
  (s.width.bytes ≤ s.stack.len → s.pushesAt i 1 (s.stack.len - s.width.bytes) v)

/-- The faults R208 lists for each instruction. -/
def mayRaise : Instr → List FaultCode
  | .pushValueLocalVar _ => [.truncated, .addressOverflow, .stackBounds, .stackOverflow]
  | .pushValueMainVar _ => [.truncated, .addressOverflow, .stackBounds, .stackOverflow]
  | .pushValueGlobalVar _ _ =>
    [.truncated, .procOutOfRange, .frameUnset, .addressOverflow, .stackBounds, .stackOverflow]
  | .pushAddressLocalVar _ => [.truncated, .addressOverflow, .stackOverflow]
  | .pushAddressMainVar _ => [.truncated, .addressOverflow, .stackOverflow]
  | .pushAddressGlobalVar _ _ => [.truncated, .procOutOfRange, .frameUnset, .addressOverflow, .stackOverflow]
  | .pushConstant _ => [.truncated, .constOutOfRange, .stackOverflow]
  | .storeValue => [.stackBounds, .addressOverflow, .stackOverflow]
  | .outputValue => [.stackBounds]
  | .inputToAddr => [.stackBounds, .addressOverflow, .stackOverflow]
  | .minusify => [.stackBounds]
  | .isOdd => [.stackBounds]
  | .opAdd => [.stackBounds]
  | .opSubtract => [.stackBounds]
  | .opMultiply => [.stackBounds]
  | .opDivide => [.stackBounds, .divZero]
  | .compareEq => [.stackBounds]
  | .compareNotEq => [.stackBounds]
  | .compareLT => [.stackBounds]
  | .compareGT => [.stackBounds]
  | .compareLTEq => [.stackBounds]
  | .compareGTEq => [.stackBounds]
  | .callProc _ => [.truncated, .procOutOfRange, .stackOverflow]
  | .returnProc => [.procOutOfRange, .frameUnset, .stackBounds]
  | .jump _ => [.truncated, .addressOverflow]
  | .jumpIfFalse _ => [.stackBounds, .truncated, .addressOverflow]
  | .entryProc _ _ _ => [.truncated, .entryMismatch, .addressOverflow, .stackOverflow]
  | .putString _ => [.truncated, .badUtf8]
  | .pop => [.stackBounds]
  | .swap => [.stackBounds, .addressOverflow]
  | .endOfCode => []
  | .put => [.unimplemented]
  | .get => [.unimplemented]
  | .opAddAddr => [.unimplemented]

/-! ## The loader scan and the analyzer -/

/-- EntryProc's first operand `len` declares a body of `n` bytes after the 7-byte header (R12, R241). -/
def declaresBody (mode : EntryLenMode) (len : S16) (n : Int) : Prop :=
  match mode with
  | .afterHeader => len.toInt = n
  | .fromOpcode => len.toInt = n + 7

/-- The loader scan of R241 stands at `pos` with no body byte left to skip, and has found the procedures `found`, each
with the offset of its EntryProc and its id, the last one first. -/
inductive ScanReaches (mode : EntryLenMode) (vm : VM) : List (Nat × Nat) → Nat → Prop where
  /-- the scan begins at offset 4 -/
  | start : ScanReaches mode vm [] 4
  /-- a header with an id in range and not found yet, and its whole body -/
  | header {found : List (Nat × Nat)} {pos id n : Nat} {len i reserved : S16} {rest : List Byte} :
      ScanReaches mode vm found pos → found.length < vm.procCount →
      vm.pb.drop pos = encode (.entryProc len i reserved) ++ rest →
      i.toInt = id → id < vm.procCount → (∀ p, (p, id) ∉ found) →
      declaresBody mode len n → n ≤ rest.length →
      ScanReaches mode vm ((pos, id) :: found) (pos + 7 + n)

/-- The loader scan faults, standing at `pos`, with a FormatError (R209, R242). -/
def VM.scanRaises (vm : VM) (mode : EntryLenMode) (pos : Nat) (code : FaultCode) (info : Int) : Prop :=
  loaderScan mode vm = .error { cls := .formatError, code := code, pc0 := pos, info := info }

/-- The static Decode answers a fault verdict, with its position (R106). -/
def decodesInvalid (pb : List Byte) (pos : Nat) (code : FaultCode) (info : Int) (at' : Nat) : Prop :=
  staticDecode pb pos = .error { raised := { code := code, info := info }, pos := at' }

/-- The destination of a jump at `pos` (R111, R113); none for any other instruction. -/
def jumpsTo (pos : Nat) (i : Instr) (t : Int) : Prop :=
  ∃ offset : S16, (i = .jump offset ∨ i = .jumpIfFalse offset) ∧ t = (pos : Int) + 3 + offset.toInt

/-- A line says all that R115 asks of the instruction that decodes at its offset, which ends at `next`. -/
def InstrLine.describes (line : InstrLine) (pb : List Byte) (next : Nat) : Prop :=
  ∃ i : Instr, staticDecode pb line.offset = .ok (i, next) ∧ pb[line.offset]? = some line.raw ∧
    line.opcode = i.opcode ∧ line.operands = i.operands ∧
    (∀ t, line.target = some t ↔ jumpsTo line.offset i t) ∧ (∀ t, line.target = some t → 0 ≤ t ∧ t < 2 ^ 64) ∧
    (line.main = true ↔ ∃ len reserved, i = .entryProc len 0#16 reserved)

/-- The lines describe one instruction after another below `cpStart`, from `pos` to `stop` (R111). -/
def describesFrom (pb : List Byte) (cpStart : Nat) : Nat → List InstrLine → Nat → Prop
  | pos, [], stop => pos = stop
  | pos, line :: lines, stop =>
    line.offset = pos ∧ pos < cpStart ∧ ∃ next, line.describes pb next ∧ describesFrom pb cpStart next lines stop

/-- A run of `n` steps, each from a state that runs, leads from `s` to `t` (R228). -/
def State.leadsTo : Nat → State → State → Prop
  | 0, s, t => s = t
  | n + 1, s, t => s.status = .running ∧ ∃ u, step s = .next u ∧ State.leadsTo n u t

/-- A state without what the debug trace adds to it (R225). -/
def State.untraced (s : State) : State := { s with debugTrace := false, traceRecords := 0 }

/-- The result of a run without what the debug trace adds to it. -/
def RunResult.untraced : RunResult → RunResult
  | .ended s => .ended s.untraced
  | .notFinished s => .notFinished s.untraced

/-! ## The end of a run -/

/-- The run has ended (R228). -/
def State.ended (s : State) : Bool := decide (s.status ≠ .running)

/-- The run ended without a fault (R215). -/
def State.halted (s : State) : Bool :=
  match s.status with
  | .halted _ => true
  | .running => false
  | .faulted _ => false

end Sys2Proof.Machine
end

