-- ==== Sys2Proof/WellFormed.lean ====
section
/-!
DEFINITION. Which instruction terms an encoding exists for (30_encoding.md R103).
-/
namespace Sys2Proof

/-- PutString's string holds no 0x00 (R103). -/
def noNul (s : List Byte) : Bool := s.all (fun b => b != 0#8)

/-- A 16-bit operand may hold any value (R101), so only PutString's string is checked: it holds no 0x00 and is
well-formed UTF-8 (R103). -/
def Instr.wf : Instr → Bool
  | .putString s => noNul s && wellFormedUTF8 s
  | .pushValueLocalVar _ => true
  | .pushValueMainVar _ => true
  | .pushValueGlobalVar _ _ => true
  | .pushAddressLocalVar _ => true
  | .pushAddressMainVar _ => true
  | .pushAddressGlobalVar _ _ => true
  | .pushConstant _ => true
  | .storeValue => true
  | .outputValue => true
  | .inputToAddr => true
  | .minusify => true
  | .isOdd => true
  | .opAdd => true
  | .opSubtract => true
  | .opMultiply => true
  | .opDivide => true
  | .compareEq => true
  | .compareNotEq => true
  | .compareLT => true
  | .compareGT => true
  | .compareLTEq => true
  | .compareGTEq => true
  | .callProc _ => true
  | .returnProc => true
  | .jump _ => true
  | .jumpIfFalse _ => true
  | .entryProc _ _ _ => true
  | .pop => true
  | .swap => true
  | .endOfCode => true
  | .put => true
  | .get => true
  | .opAddAddr => true

end Sys2Proof
end

