-- ==== Sys2Proof/Certificates/Slice0/Obligations.lean ====
section
/-!
DEFINITION. The statements about the model. Each docstring names the rules of spec/ it formalises. The hypothesis
`ready n` asks for a sound stack and for pc + n below 2^64 (Sys2Proof/Safety.lean).
-/
open Sys2Proof Sys2Proof.Machine

/-! ## Encoding -/

/-- R107, and R103 for PutString: decoding an encoded well-formed instruction gives it back, with the bytes after it;
and byte strings that decode to the same instruction with the same bytes after it are the same. -/
def Obligations.DecodeEncodeAllInstructions : Prop :=
  (∀ (i : Instr) (rest : List Byte), i.wf = true → decode (encode i ++ rest) = .ok (i, rest)) ∧
  ∀ (bs bs' : List Byte) (i : Instr) (rest : List Byte), decode bs = .ok (i, rest) → decode bs' = .ok (i, rest) →
    bs = bs'

/-- R107, R103: whatever decodes is well-formed, and its encoding is the bytes that were decoded. -/
def Obligations.DecodedBytesReencode : Prop :=
  ∀ (bs : List Byte) (i : Instr) (rest : List Byte), decode bs = .ok (i, rest) →
    i.wf = true ∧ encode i ++ rest = bs

/-- R94, R97, R101: words written out from the encoding tables, one or more of each family. -/
def Obligations.WrittenWordsDecode : Prop :=
  decode [0x00#8, 0x05#8, 0x00#8] = .ok (.pushValueLocalVar 5#16, []) ∧
  decode [0x02#8, 0xFE#8, 0xFF#8, 0x01#8, 0x00#8] = .ok (.pushValueGlobalVar (-2) 1#16, []) ∧
  decode [0x06#8, 0xFF#8, 0x7F#8] = .ok (.pushConstant 32767#16, []) ∧
  decode [0x09#8] = .ok (.inputToAddr, []) ∧
  decode [0x1B#8, 0x6F#8, 0x6B#8, 0x00#8] = .ok (.putString [0x6F#8, 0x6B#8], []) ∧
  decode [0x0C#8] = .ok (.opAdd, []) ∧
  decode [0x13#8] = .ok (.compareGT, []) ∧
  decode [0x18#8, 0x00#8, 0x80#8] = .ok (.jump (-32768), []) ∧
  decode [0x1A#8, 0x0C#8, 0x00#8, 0x01#8, 0x00#8, 0x08#8, 0x00#8] = .ok (.entryProc 12#16 1#16 8#16, []) ∧
  decode [0x1F#8] = .ok (.put, []) ∧
  decode [0x22#8] = .error (.unknownOpcode 0x22#8)

/-! ## The step -/

/-- R108, R109: while it runs, a step is the rule of the instruction that the bytes at pc decode to. -/
def Obligations.StepRunsDecodedInstruction : Prop :=
  ∀ (s : State) (i : Instr) (rest : List Byte), s.status = .running →
    decodeAt s.pb s.pc.toNat = .ok (i, rest) → step s = exec i s

/-- R38: no step leaves Halted or Faulted. That the step then answers the same state is the model's choice (log 1). -/
def Obligations.EndedRunsStay : Prop :=
  ∀ s : State, s.status ≠ .running → step s = .next s

/-- R98, R203: an opcode byte 0x22 to 0xFF at pc raises F_UNKNOWN_OPCODE with the byte. -/
def Obligations.UnknownOpcodeStep : Prop :=
  ∀ (s : State) (b : Byte) (rest : List Byte), s.status = .running → s.pb.drop s.pc.toNat = b :: rest →
    0x22 ≤ b.toNat → s.stepRaises .unknownOpcode b.toNat

/-- R72, R108: an opcode fetch at or past the end of the program buffer raises F_TRUNCATED with pc. -/
def Obligations.FetchPastEndStep : Prop :=
  ∀ s : State, s.status = .running → s.pb.length ≤ s.pc.toNat → s.stepRaises .truncated s.pc.toNat

/-! ## Stack access -/

/-- R132. For ea at or above 2^64, where R75 has R_STACK_BOUNDS and R207 R_ADDRESS_OVERFLOW, the clauses say what the
model's parameter chooses (log 23). -/
def Obligations.PushValueLocalVarCases : Prop :=
  ∀ (s : State) (addr : S16), encode (.pushValueLocalVar addr) = 0x00#8 :: s16Bytes addr ∧ s.truncatesAt 0x00#8 2 ∧
    (s.ready 3 → s.pushValueCases (.pushValueLocalVar addr) 3 ((s.fp.toNat : Int) + addr.toInt))

/-- R133. Procedure 0 has a frame in every state of a run (State.Inv). For ea at or above 2^64 as in PushValueLocalVar
(log 23). -/
def Obligations.PushValueMainVarCases : Prop :=
  ∀ (s : State) (addr : S16), encode (.pushValueMainVar addr) = 0x01#8 :: s16Bytes addr ∧ s.truncatesAt 0x01#8 2 ∧
    ∀ f : U64, s.ready 3 → s.frameAt 0 (some f) →
      s.pushValueCases (.pushValueMainVar addr) 3 ((f.toNat : Int) + addr.toInt)

/-- R134. For ea at or above 2^64 as in PushValueLocalVar (log 23). -/
def Obligations.PushValueGlobalVarCases : Prop :=
  ∀ (s : State) (addr p : S16),
    encode (.pushValueGlobalVar addr p) = 0x02#8 :: s16Bytes addr ++ s16Bytes p ∧ s.truncatesAt 0x02#8 4 ∧
    (s.ready 5 → p.toInt < 0 ∨ (s.procCount : Int) ≤ p.toInt →
      s.raises (.pushValueGlobalVar addr p) .procOutOfRange p.toInt) ∧
    (s.ready 5 → s.frameAt p.toInt none → s.raises (.pushValueGlobalVar addr p) .frameUnset p.toInt) ∧
    (∀ f : U64, s.ready 5 → s.frameAt p.toInt (some f) →
      s.pushValueCases (.pushValueGlobalVar addr p) 5 ((f.toNat : Int) + addr.toInt))

/-- R131, R135. -/
def Obligations.PushAddressLocalVarCases : Prop :=
  ∀ (s : State) (addr : S16), encode (.pushAddressLocalVar addr) = 0x03#8 :: s16Bytes addr ∧
    s.truncatesAt 0x03#8 2 ∧
    (s.ready 3 → s.pushAddressCases (.pushAddressLocalVar addr) 3 ((s.fp.toNat : Int) + addr.toInt))

/-- R131, R136. -/
def Obligations.PushAddressMainVarCases : Prop :=
  ∀ (s : State) (addr : S16), encode (.pushAddressMainVar addr) = 0x04#8 :: s16Bytes addr ∧ s.truncatesAt 0x04#8 2 ∧
    ∀ f : U64, s.ready 3 → s.frameAt 0 (some f) →
      s.pushAddressCases (.pushAddressMainVar addr) 3 ((f.toNat : Int) + addr.toInt)

/-- R131, R137. -/
def Obligations.PushAddressGlobalVarCases : Prop :=
  ∀ (s : State) (addr p : S16),
    encode (.pushAddressGlobalVar addr p) = 0x05#8 :: s16Bytes addr ++ s16Bytes p ∧ s.truncatesAt 0x05#8 4 ∧
    (s.ready 5 → p.toInt < 0 ∨ (s.procCount : Int) ≤ p.toInt →
      s.raises (.pushAddressGlobalVar addr p) .procOutOfRange p.toInt) ∧
    (s.ready 5 → s.frameAt p.toInt none → s.raises (.pushAddressGlobalVar addr p) .frameUnset p.toInt) ∧
    (∀ f : U64, s.ready 5 → s.frameAt p.toInt (some f) →
      s.pushAddressCases (.pushAddressGlobalVar addr p) 5 ((f.toNat : Int) + addr.toInt))

/-- R138. A constant is a Data value of width W (R45; State.Inv). -/
def Obligations.PushConstantCases : Prop :=
  ∀ (s : State) (k : S16), encode (.pushConstant k) = 0x06#8 :: s16Bytes k ∧ s.truncatesAt 0x06#8 2 ∧
    (s.ready 3 → k.toInt < 0 ∨ (s.constCount : Int) ≤ k.toInt →
      s.raises (.pushConstant k) .constOutOfRange k.toInt) ∧
    (∀ v : Int, s.ready 3 → 0 ≤ k.toInt → k.toInt < s.constCount → s.cp[k.toInt.toNat]? = some v →
      inRange s.width v = true →
      (s.maxStack < s.stack.len + s.width.bytes →
        s.raises (.pushConstant k) .stackOverflow ((s.stack.len : Int) + s.width.bytes)) ∧
      (s.stack.len + s.width.bytes ≤ s.maxStack → s.pushesAt (.pushConstant k) 3 s.stack.len v))

/-- R139: the value is on top, the absolute address below it. -/
def Obligations.StoreValueCases : Prop :=
  encode .storeValue = [0x07#8] ∧
  ∀ s : State, s.ready 1 → s.binaryUnderflow .storeValue ∧
    (2 * s.width.bytes ≤ s.stack.len →
      (s.second < 0 → s.raises .storeValue .addressOverflow s.second) ∧
      (0 ≤ s.second → (s.maxStack : Int) < s.second + s.width.bytes →
        s.raises .storeValue .stackOverflow (s.second + s.width.bytes)) ∧
      (0 ≤ s.second → s.second + s.width.bytes ≤ s.maxStack →
        s.storesAt .storeValue (s.stack.len - 2 * s.width.bytes) s.input s.second.toNat s.top))

/-- R140. -/
def Obligations.PopCases : Prop :=
  encode .pop = [0x1C#8] ∧
  ∀ s : State, s.ready 1 →
    (s.stack.len < s.width.bytes → s.raises .pop .stackBounds s.stack.len) ∧
    (s.width.bytes ≤ s.stack.len → ∃ m : Memory,
      exec .pop s = .next { s with stack := m, pc := s.pcPlus 1, traceRecords := s.tracesAfter } ∧
      s.stack.shortenedTo m (s.stack.len - s.width.bytes))

/-- R141: a dereference; the address is checked against the length after the pop. -/
def Obligations.SwapCases : Prop :=
  encode .swap = [0x1D#8] ∧
  ∀ s : State, s.ready 1 →
    (s.stack.len < s.width.bytes → s.raises .swap .stackBounds s.stack.len) ∧
    (s.width.bytes ≤ s.stack.len →
      (s.top < 0 → s.raises .swap .addressOverflow s.top) ∧
      (0 ≤ s.top → (s.stack.len : Int) - s.width.bytes < s.top + s.width.bytes →
        s.raises .swap .stackBounds s.top) ∧
      (0 ≤ s.top → s.top + s.width.bytes ≤ (s.stack.len : Int) - s.width.bytes →
        s.pushesAt .swap 1 (s.stack.len - s.width.bytes) (s.stack.data s.width s.top.toNat)))

/-- R142: PushAddressLocalVar then Swap, against PushValueLocalVar, where fp + addr fits a Data value and there is room
for one more: the same stack where the read is legal, and a fault of the same kind where it is not. Where fp + addr does
not fit, the first of the pair faults with R_ADDRESS_OVERFLOW. `t` is the state between the two. -/
def Obligations.PushAddressThenSwapIsPushValue : Prop :=
  ∀ (s : State) (addr : S16), s.ready 4 → s.stack.len + s.width.bytes ≤ s.maxStack →
    let ea : Int := (s.fp.toNat : Int) + addr.toInt
    (ea < 0 → s.raises (.pushAddressLocalVar addr) .addressOverflow ea ∧
      s.raises (.pushValueLocalVar addr) .addressOverflow ea) ∧
    ((2 : Int) ^ (s.width.bits - 1) ≤ ea → s.raises (.pushAddressLocalVar addr) .addressOverflow ea) ∧
    (0 ≤ ea → ea < (2 : Int) ^ (s.width.bits - 1) → ∃ t,
      exec (.pushAddressLocalVar addr) s = .next t ∧ t.status = s.status ∧
      (ea + s.width.bytes ≤ s.stack.len → ∃ u v, exec .swap t = .next u ∧
        exec (.pushValueLocalVar addr) s = .next v ∧ u.stack = v.stack ∧
        u.status = s.status ∧ v.status = s.status) ∧
      ((s.stack.len : Int) < ea + s.width.bytes →
        t.raises .swap .stackBounds ea ∧ s.raises (.pushValueLocalVar addr) .stackBounds ea))

/-! ## Host I/O -/

/-- R147. -/
def Obligations.OutputValueCases : Prop :=
  encode .outputValue = [0x08#8] ∧
  ∀ s : State, s.ready 1 →
    (s.stack.len < s.width.bytes → s.raises .outputValue .stackBounds s.stack.len) ∧
    (s.width.bytes ≤ s.stack.len → ∃ m : Memory,
      exec .outputValue s = .next { s with
        stack := m
        pc := s.pcPlus 1
        output := s.output ++ [.outValue s.top]
        traceRecords := s.tracesAfter } ∧
      s.stack.shortenedTo m (s.stack.len - s.width.bytes))

/-- R149: the store is at fp + the address popped, after the host's answer is taken. For ea at or above 2^64, where R76
has R_STACK_OVERFLOW and R207 R_ADDRESS_OVERFLOW, the clauses say what the model's parameter chooses (log 23). -/
def Obligations.InputToAddrCases : Prop :=
  encode .inputToAddr = [0x09#8] ∧
  ∀ s : State, s.ready 1 →
    (s.stack.len < s.width.bytes → s.raises .inputToAddr .stackBounds s.stack.len) ∧
    (∀ (v : Int) (rest : List Int), s.width.bytes ≤ s.stack.len → s.input = v :: rest → inRange s.width v = true →
      let ea : Int := (s.fp.toNat : Int) + s.top
      (ea < 0 ∨ s.tooWide ea → s.raisesLeaving .inputToAddr .addressOverflow ea rest) ∧
      (0 ≤ ea → ¬ s.tooWide ea → (s.maxStack : Int) < ea + s.width.bytes →
        s.raisesLeaving .inputToAddr .stackOverflow (ea + s.width.bytes) rest) ∧
      (0 ≤ ea → ea + s.width.bytes ≤ s.maxStack →
        s.storesAt .inputToAddr (s.stack.len - s.width.bytes) rest ea.toNat v))

/-- R148, R227: with no answer of the host, nothing changes. That the wait is a step to the same state is the model's
choice (log 3). -/
def Obligations.InputWaitChangesNothing : Prop :=
  ∀ s : State, s.ready 1 → s.width.bytes ≤ s.stack.len → s.input = [] → exec .inputToAddr s = .next s

/-- R150, for every string R103 allows: it is emitted whole, or not at all; a missing 0x00 and bad UTF-8 fault before anything is emitted. -/
def Obligations.PutStringCases : Prop :=
  ∀ (s : State) (text : List Byte),
    encode (.putString text) = 0x1B#8 :: text ++ [0x00#8] ∧
    (0x00#8 ∉ text → wellFormedUTF8 text = true → s.pc.toNat + text.length + 2 < 2 ^ 64 →
      exec (.putString text) s = .next { s with
        pc := s.pcPlus (text.length + 2)
        output := s.output ++ [.outString text]
        traceRecords := s.tracesAfter }) ∧
    (s.status = .running → s.pb.drop s.pc.toNat = 0x1B#8 :: text → 0x00#8 ∉ text →
      s.stepRaises .truncated s.pb.length) ∧
    (∀ rest, s.status = .running → s.pb.drop s.pc.toNat = 0x1B#8 :: text ++ 0x00#8 :: rest → 0x00#8 ∉ text →
      wellFormedUTF8 text = false → s.stepRaises .badUtf8 ((s.pc.toNat : Int) + 1))

/-! ## ALU -/

/-- R156, R157: the result of the 64-bit datapath is the one Data value congruent to the exact result modulo 2^N. -/
def Obligations.WraparoundLaw : Prop :=
  ∀ (w : Width) (x : Int), aluResult w x = narrow w x ∧ inRange w (narrow w x) = true ∧
    ((2 : Int) ^ w.bits) ∣ (narrow w x - x) ∧
    ∀ y : Int, inRange w y = true → ((2 : Int) ^ w.bits) ∣ (y - x) → y = narrow w x

/-- R159. -/
def Obligations.MinusifyCases : Prop :=
  encode .minusify = [0x0A#8] ∧ ∀ s : State, s.ready 1 → s.unaryCases .minusify (narrow s.width (0 - s.top))

/-- R160: oddness of the signed value, so -3 is odd. -/
def Obligations.IsOddCases : Prop :=
  encode .isOdd = [0x0B#8] ∧ ∀ s : State, s.ready 1 → s.unaryCases .isOdd (if s.top % 2 = 1 then 1 else 0)

/-- R161, R162, R163: the left operand is the deeper one; the result is the exact one narrowed to width W. -/
def Obligations.ArithmeticCases : Prop :=
  encode .opAdd = [0x0C#8] ∧ encode .opSubtract = [0x0D#8] ∧ encode .opMultiply = [0x0E#8] ∧
  ∀ s : State, s.ready 1 →
    s.binaryCases .opAdd (narrow s.width (s.second + s.top)) ∧
    s.binaryCases .opSubtract (narrow s.width (s.second - s.top)) ∧
    s.binaryCases .opMultiply (narrow s.width (s.second * s.top))

/-- R164: the pops first, then the zero test, then the quotient rounded toward zero, narrowed to width W. -/
def Obligations.DivideCases : Prop :=
  encode .opDivide = [0x0F#8] ∧
  ∀ s : State, s.ready 1 → s.binaryUnderflow .opDivide ∧
    (2 * s.width.bytes ≤ s.stack.len →
      (s.top = 0 → s.raises .opDivide .divZero 0) ∧
      (s.top ≠ 0 → s.pushesAt .opDivide 1 (s.stack.len - 2 * s.width.bytes)
        (narrow s.width (s.second.tdiv s.top))))

/-- R158, R165 to R170: signed comparisons of the left operand with the right one, pushed as 1 or 0. -/
def Obligations.ComparisonCases : Prop :=
  encode .compareEq = [0x10#8] ∧ encode .compareNotEq = [0x11#8] ∧ encode .compareLT = [0x12#8] ∧
  encode .compareGT = [0x13#8] ∧ encode .compareLTEq = [0x14#8] ∧ encode .compareGTEq = [0x15#8] ∧
  ∀ s : State, s.ready 1 →
    s.binaryCases .compareEq (if s.second = s.top then 1 else 0) ∧
    s.binaryCases .compareNotEq (if s.second ≠ s.top then 1 else 0) ∧
    s.binaryCases .compareLT (if s.second < s.top then 1 else 0) ∧
    s.binaryCases .compareGT (if s.second > s.top then 1 else 0) ∧
    s.binaryCases .compareLTEq (if s.second ≤ s.top then 1 else 0) ∧
    s.binaryCases .compareGTEq (if s.second ≥ s.top then 1 else 0)

/-! ## Control transfer and linkage -/

/-- R180: the link record is pc0 + 3, fp and curProc in three 8-byte fields; the callee's frame begins after it. -/
def Obligations.CallProcCases : Prop :=
  ∀ (s : State) (p : S16), encode (.callProc p) = 0x16#8 :: s16Bytes p ∧ s.truncatesAt 0x16#8 2 ∧
    (s.ready 3 → p.toInt < 0 ∨ (s.procCount : Int) ≤ p.toInt →
      s.raises (.callProc p) .procOutOfRange p.toInt) ∧
    (∀ e : ProcEntry, s.ready 3 → 0 ≤ p.toInt → p.toInt < s.procCount → s.procTable[p.toInt.toNat]? = some e →
      (s.maxStack < s.stack.len + 8 → s.raises (.callProc p) .stackOverflow ((s.stack.len : Int) + 8)) ∧
      (s.stack.len + 8 ≤ s.maxStack → s.maxStack < s.stack.len + 16 →
        s.raises (.callProc p) .stackOverflow ((s.stack.len : Int) + 16)) ∧
      (s.stack.len + 16 ≤ s.maxStack → s.maxStack < s.stack.len + 24 →
        s.raises (.callProc p) .stackOverflow ((s.stack.len : Int) + 24)) ∧
      (s.stack.len + 24 ≤ s.maxStack → ∃ m : Memory,
        exec (.callProc p) s = .next { s with
          stack := m
          procTable := s.procTable.set p.toInt.toNat { e with framePtr := some (BitVec.ofNat 64 (s.stack.len + 24)) }
          fp := BitVec.ofNat 64 (s.stack.len + 24)
          curProc := BitVec.ofNat 64 p.toInt.toNat
          pc := e.startPos
          traceRecords := s.tracesAfter } ∧
        m.wf = true ∧ m.len = s.stack.len + 24 ∧ m.field s.stack.len = s.pc.toNat + 3 ∧
        m.field (s.stack.len + 8) = s.fp.toNat ∧ m.field (s.stack.len + 16) = s.curProc.toNat ∧
        ∀ a, a < s.stack.len → m.byte? a = s.stack.byte? a))

/-- R182: in procedure 0 it halts; else it truncates to the frame, then pops curProc, fp and pc. -/
def Obligations.ReturnProcCases : Prop :=
  encode .returnProc = [0x17#8] ∧
  ∀ s : State, s.ready 1 →
    (s.curProc = 0#64 → exec .returnProc s = .next { s with
      pc := s.pcPlus 1
      status := .halted .normal
      traceRecords := s.tracesAfter }) ∧
    (s.curProc ≠ 0#64 → s.procCount ≤ s.curProc.toNat →
      s.raises .returnProc .procOutOfRange s.curProc.toNat) ∧
    (s.curProc ≠ 0#64 → s.frameAt s.curProc.toNat none → s.raises .returnProc .frameUnset s.curProc.toNat) ∧
    (∀ f : U64, s.curProc ≠ 0#64 → s.frameAt s.curProc.toNat (some f) →
      (s.stack.len < f.toNat → s.raises .returnProc .stackBounds f.toNat) ∧
      (f.toNat ≤ s.stack.len → f.toNat < 24 → s.raises .returnProc .stackBounds ((f.toNat % 8 : Nat) : Int)) ∧
      (f.toNat ≤ s.stack.len → 24 ≤ f.toNat → ∃ m : Memory,
        exec .returnProc s = .next { s with
          stack := m
          curProc := BitVec.ofNat 64 (s.stack.field (f.toNat - 8))
          fp := BitVec.ofNat 64 (s.stack.field (f.toNat - 16))
          pc := BitVec.ofNat 64 (s.stack.field (f.toNat - 24))
          traceRecords := s.tracesAfter } ∧
        s.stack.shortenedTo m (f.toNat - 24)))

/-- R183: a ReturnProc that finds procTable[p].frame_ptr as its CallProc left it (no later call of p), and the link
record as it left it, restores S.len, fp and curProc, with pc after the call. `t` is the state after the call, `u` the
state the ReturnProc is executed in. -/
def Obligations.CallReturnNeutrality : Prop :=
  ∀ (s t u : State) (p : S16) (e : ProcEntry), s.ready 3 → 0 < p.toInt → p.toInt < s.procCount →
    s.procTable[p.toInt.toNat]? = some e → s.stack.len + 24 ≤ s.maxStack → exec (.callProc p) s = .next t →
    u.ready 1 → u.curProc = t.curProc → u.frameAt p.toInt (some t.fp) → t.stack.len ≤ u.stack.len →
    (∀ a, s.stack.len ≤ a → a < t.stack.len → u.stack.byte a = t.stack.byte a) →
    ∃ v, exec .returnProc u = .next v ∧ v.status = u.status ∧ v.stack.len = s.stack.len ∧ v.fp = s.fp ∧
      v.curProc = s.curProc ∧ v.pc = s.pcPlus 3

/-- R184. -/
def Obligations.JumpCases : Prop :=
  ∀ (s : State) (offset : S16), encode (.jump offset) = 0x18#8 :: s16Bytes offset ∧ s.truncatesAt 0x18#8 2 ∧
    (s.pc.toNat + 3 < 2 ^ 64 →
      let t : Int := (s.pc.toNat : Int) + 3 + offset.toInt
      (t < 0 ∨ (2 : Int) ^ 64 ≤ t → s.raises (.jump offset) .addressOverflow t) ∧
      (0 ≤ t → t < (2 : Int) ^ 64 →
        exec (.jump offset) s = .next { s with pc := BitVec.ofNat 64 t.toNat, traceRecords := s.tracesAfter }))

/-- R185: the pop comes first, before the operand is read; a branch not taken never checks its target. -/
def Obligations.JumpIfFalseCases : Prop :=
  ∀ (s : State) (offset : S16), encode (.jumpIfFalse offset) = 0x19#8 :: s16Bytes offset ∧
    (∀ rest, s.status = .running → s.pb.drop s.pc.toNat = 0x19#8 :: rest → rest.length < 2 →
      (s.stack.len < s.width.bytes → s.stepRaises .stackBounds s.stack.len) ∧
      (s.width.bytes ≤ s.stack.len → s.stepRaises .truncated s.pb.length)) ∧
    (s.ready 3 →
      let t : Int := (s.pc.toNat : Int) + 3 + offset.toInt
      (s.stack.len < s.width.bytes → s.raises (.jumpIfFalse offset) .stackBounds s.stack.len) ∧
      (s.width.bytes ≤ s.stack.len → s.top = 0 → t < 0 ∨ (2 : Int) ^ 64 ≤ t →
        s.raises (.jumpIfFalse offset) .addressOverflow t) ∧
      (s.width.bytes ≤ s.stack.len → s.top = 0 → 0 ≤ t → t < (2 : Int) ^ 64 → ∃ m : Memory,
        exec (.jumpIfFalse offset) s =
          .next { s with stack := m, pc := BitVec.ofNat 64 t.toNat, traceRecords := s.tracesAfter } ∧
        s.stack.shortenedTo m (s.stack.len - s.width.bytes)) ∧
      (s.width.bytes ≤ s.stack.len → s.top ≠ 0 → ∃ m : Memory,
        exec (.jumpIfFalse offset) s =
          .next { s with stack := m, pc := s.pcPlus 3, traceRecords := s.tracesAfter } ∧
        s.stack.shortenedTo m (s.stack.len - s.width.bytes)))

/-- R113, R186: the target the analyzer prints is where the engine goes: for a Jump, and for a JumpIfFalse that finds
0 on the stack. -/
def Obligations.AnalyzerTargetIsEngineTarget : Prop :=
  ∀ (s t : State) (offset : S16), s.ready 3 → t.status = s.status →
    (∀ r, s.status ≠ .faulted r) →
    (exec (.jump offset) s = .next t → staticTarget s.pc.toNat (.jump offset) = some (t.pc.toNat : Int)) ∧
    (exec (.jumpIfFalse offset) s = .next t → s.top = 0 →
      staticTarget s.pc.toNat (.jumpIfFalse offset) = some (t.pc.toNat : Int))

/-- R190: the body length is never read; the id must be curProc; S.len becomes fp + r exactly, new bytes zero. For fp + r
at or above 2^64, where R81 has R_STACK_OVERFLOW and R207 R_ADDRESS_OVERFLOW, the clauses say what the model's parameter
chooses (log 23). -/
def Obligations.EntryProcCases : Prop :=
  ∀ (s : State) (l p r : S16), encode (.entryProc l p r) = 0x1A#8 :: s16Bytes l ++ s16Bytes p ++ s16Bytes r ∧
    (∀ rest, s.status = .running → s.pb.drop s.pc.toNat = 0x1A#8 :: rest → rest.length < 4 →
      s.stepRaises .truncated (Nat.max (s.pc.toNat + 3) s.pb.length)) ∧
    (∀ tail, s.status = .running → s.pb.drop s.pc.toNat = 0x1A#8 :: s16Bytes l ++ s16Bytes p ++ tail →
      tail.length < 2 →
      (p.toInt ≠ s.curProc.toNat → s.stepRaises .entryMismatch p.toInt) ∧
      (p.toInt = s.curProc.toNat → s.stepRaises .truncated s.pb.length)) ∧
    (s.ready 7 →
      (p.toInt ≠ s.curProc.toNat → s.raises (.entryProc l p r) .entryMismatch p.toInt) ∧
      (p.toInt = s.curProc.toNat → r.toInt < 0 → s.raises (.entryProc l p r) .addressOverflow r.toInt) ∧
      (p.toInt = s.curProc.toNat → 0 ≤ r.toInt → s.tooWide (s.fp.toNat + r.toInt) →
        s.raises (.entryProc l p r) .addressOverflow (s.fp.toNat + r.toInt)) ∧
      (p.toInt = s.curProc.toNat → 0 ≤ r.toInt → ¬ s.tooWide (s.fp.toNat + r.toInt) →
        (s.maxStack : Int) < s.fp.toNat + r.toInt →
        s.raises (.entryProc l p r) .stackOverflow (s.fp.toNat + r.toInt)) ∧
      (p.toInt = s.curProc.toNat → 0 ≤ r.toInt → s.fp.toNat + r.toInt ≤ s.maxStack → ∃ m : Memory,
        exec (.entryProc l p r) s =
          .next { s with stack := m, pc := s.pcPlus 7, traceRecords := s.tracesAfter } ∧
        m.wf = true ∧ (m.len : Int) = s.fp.toNat + r.toInt ∧
        ∀ a, a < m.len → m.byte? a = if a < s.stack.len then s.stack.byte? a else some 0#8))

/-- R191. -/
def Obligations.EndOfCodeHalts : Prop :=
  encode .endOfCode = [0x1E#8] ∧
  ∀ s : State, s.pc.toNat + 1 < 2 ^ 64 →
    exec .endOfCode s = .next { s with
      pc := s.pcPlus 1
      status := .halted .endOfCode
      traceRecords := s.tracesAfter }

/-- R200, R201, R202: the effect of a reserved instruction is its fault, whatever bytes follow it. -/
def Obligations.ReservedInstructionsFault : Prop :=
  encode .put = [0x1F#8] ∧ encode .get = [0x20#8] ∧ encode .opAddAddr = [0x21#8] ∧
  ∀ s : State, s.raises .put .unimplemented 0x1F ∧ s.raises .get .unimplemented 0x20 ∧
    s.raises .opAddAddr .unimplemented 0x21 ∧
    ∀ rest, s.status = .running →
      (s.pb.drop s.pc.toNat = 0x1F#8 :: rest → s.stepRaises .unimplemented 0x1F) ∧
      (s.pb.drop s.pc.toNat = 0x20#8 :: rest → s.stepRaises .unimplemented 0x20) ∧
      (s.pb.drop s.pc.toNat = 0x21#8 :: rest → s.stepRaises .unimplemented 0x21)

/-! ## Memory -/

/-- R75, R76: a write that is legal leaves the canonical form, makes the stack just long enough, is read back whole, and
leaves every other byte as it was, new bytes zero; where it is not legal it raises. -/
def Obligations.MemWriteCases : Prop :=
  ∀ (m : Memory) (max n v : Nat) (addr : Int), m.wf = true → v < 256 ^ n →
    (addr < 0 → m.write max addr n v = raise .addressOverflow addr) ∧
    (0 ≤ addr → (max : Int) < addr + n → m.write max addr n v = raise .stackOverflow (addr + n)) ∧
    (0 ≤ addr → addr + n ≤ max → ∃ m' : Memory, m.write max addr n v = .ok m' ∧ m'.wf = true ∧
      m'.len = Nat.max m.len (addr.toNat + n) ∧ m'.read addr n = .ok v ∧
      ∀ c : Nat, (c : Int) < addr ∨ addr + n ≤ c →
        m'.byte? c = if c < m.len then m.byte? c else if c < m'.len then some 0#8 else none)

/-! ## The whole machine -/

/-- Every step answers a next state: a fault of the spec's is a status, not a stop (R214; logs 1 to 3). -/
def Obligations.StepAlwaysAnswers : Prop := ∀ s : State, ∃ t, step s = .next t

/-- R44, R45, R49, R50, R133, R209: the invariant of the machine is kept by every step, from every state that has it.
Its clause on the stack also holds after a fault, where the state is the model's choice (log 2). -/
def Obligations.EveryStepKeepsInvariant : Prop :=
  ∀ s t : State, s.Inv → step s = .next t → t.Inv

/-- R58: the values the spec gives at reset. -/
def Obligations.ResetLeavesSpecValues : Prop :=
  State.reset.status = .running ∧ State.reset.stack.len = 0 ∧ State.reset.fp = 0#64 ∧
  State.reset.curProc = 0#64 ∧ State.reset.output = [] ∧ State.reset.config.entryLenMode = .afterHeader ∧
  ∃ e, State.reset.procTable[0]? = some e ∧ e.framePtr = some 0#64 ∧ State.reset.pc = e.startPos

/-- R228: a run with a fuel bound ends in t exactly where t is terminal and at most that many steps lead to it; it is
reported as not finished exactly where t still runs after all of them. Each step is from a state that runs. -/
def Obligations.BoundedRunsReportTheirEnd : Prop :=
  ∀ (fuel : Nat) (s t : State),
    (runFuel fuel s = .ended t ↔ t.status ≠ .running ∧ ∃ n, n ≤ fuel ∧ State.leadsTo n s t) ∧
    (runFuel fuel s = .notFinished t ↔ t.status = .running ∧ State.leadsTo fuel s t)

/-- The invariant holds at reset. The tables there (one procedure at 4 with a frame, no constants) are the model's choice
(log 4), and so is the empty input (log 3). -/
def Obligations.ResetHasInvariant : Prop := State.reset.Inv

/-- The invariant holds at the start of every `execute`, if the host's answers are Data values (R49). Where the loader
scan faults or procCount = 0, the clauses on the stack and the pool rest on the empty state that the model chose
(log 18; R214 leaves it open). -/
def Obligations.ExecuteHasInvariant : Prop :=
  ∀ (config : Config) (bytes : List Byte) (vm : VM) (debugTrace : Bool) (input : List Int), load bytes = .ok vm →
    input.all (inRange vm.width) = true → (execute config vm debugTrace input).Inv

/-- R39, R40, R41, R45, R46, R42, R91: no step changes the program buffer, W, procCount, cpStart, constCount, the
constant pool or the parameters; and none that does not fault changes a start_pos (R214 says nothing of the procedure
table after a fault). -/
def Obligations.StepKeepsProgramAndTables : Prop :=
  ∀ s t : State, step s = .next t →
    t.pb = s.pb ∧ t.width = s.width ∧ t.procCount = s.procCount ∧ t.cpStart = s.cpStart ∧
    t.constCount = s.constCount ∧ t.cp = s.cp ∧ t.config = s.config ∧ t.debugTrace = s.debugTrace ∧
    ((∀ r, t.status ≠ .faulted r) → t.procTable.map (·.startPos) = s.procTable.map (·.startPos))

/-- R35, R36, R42: only CallProc writes a frame_ptr; only CallProc and ReturnProc write fp and curProc. Nothing is said
of these after a fault (R214). -/
def Obligations.OnlyLinkageWritesFrames : Prop :=
  ∀ (i : Instr) (s t : State), exec i s = .next t → (∀ r, t.status ≠ .faulted r) → (∀ p, i ≠ .callProc p) →
    t.procTable = s.procTable ∧ (i ≠ .returnProc → t.fp = s.fp ∧ t.curProc = s.curProc)

/-- R146, R152: a step withdraws no event and emits at most one; only OutputValue and PutString emit. -/
def Obligations.OutputOnlyGrows : Prop :=
  ∀ (i : Instr) (s t : State), exec i s = .next t →
    t.output = s.output ∨
    (i = .outputValue ∧ ∃ v, t.output = s.output ++ [.outValue v]) ∨
    (∃ text, i = .putString text ∧ wellFormedUTF8 text = true ∧ t.output = s.output ++ [.outString text])

/-- R206, R209, R216: a step that faults records its class, and pc0 the offset of its opcode byte; it emits nothing; and
the fault is never a LoadError, nor one of the loader's or the analyzer's own. -/
def Obligations.FaultRecordsArePrecise : Prop :=
  ∀ (s t : State) (r : FaultRecord), s.status = .running → step s = .next t → t.status = .faulted r →
    r.cls = r.code.cls ∧ r.pc0 = s.pc.toNat ∧ t.output = s.output ∧ r.cls ≠ .loadError ∧
    r.code ≠ .badTarget ∧ r.code ≠ .duplicateProc ∧ r.code ≠ .badLayout

/-- R208: on a sound stack, with a frame for procedure 0, an instruction raises only the faults of its row. -/
def Obligations.FaultsOfEachInstruction : Prop :=
  ∀ (i : Instr) (s t : State) (f : U64) (r : FaultRecord), s.ready i.length → s.frameAt 0 (some f) →
    s.status = .running → exec i s = .next t → t.status = .faulted r → r.code ∈ mayRaise i

/-- R207: the code and the class of every fault. -/
def Obligations.FaultCodesAndClasses : Prop :=
  FaultCode.tooShort.number = 0x01 ∧ FaultCode.tooShort.cls = .loadError ∧
  FaultCode.badWidth.number = 0x02 ∧ FaultCode.badWidth.cls = .loadError ∧
  FaultCode.truncated.number = 0x10 ∧ FaultCode.truncated.cls = .formatError ∧
  FaultCode.badTarget.number = 0x11 ∧ FaultCode.badTarget.cls = .formatError ∧
  FaultCode.badUtf8.number = 0x12 ∧ FaultCode.badUtf8.cls = .formatError ∧
  FaultCode.unknownOpcode.number = 0x13 ∧ FaultCode.unknownOpcode.cls = .formatError ∧
  FaultCode.procOutOfRange.number = 0x14 ∧ FaultCode.procOutOfRange.cls = .formatError ∧
  FaultCode.constOutOfRange.number = 0x15 ∧ FaultCode.constOutOfRange.cls = .formatError ∧
  FaultCode.duplicateProc.number = 0x16 ∧ FaultCode.duplicateProc.cls = .formatError ∧
  FaultCode.entryMismatch.number = 0x17 ∧ FaultCode.entryMismatch.cls = .formatError ∧
  FaultCode.badLayout.number = 0x18 ∧ FaultCode.badLayout.cls = .formatError ∧
  FaultCode.stackBounds.number = 0x20 ∧ FaultCode.stackBounds.cls = .runtimeFault ∧
  FaultCode.addressOverflow.number = 0x21 ∧ FaultCode.addressOverflow.cls = .runtimeFault ∧
  FaultCode.unimplemented.number = 0x22 ∧ FaultCode.unimplemented.cls = .runtimeFault ∧
  FaultCode.divZero.number = 0x23 ∧ FaultCode.divZero.cls = .runtimeFault ∧
  FaultCode.stackOverflow.number = 0x24 ∧ FaultCode.stackOverflow.cls = .runtimeFault ∧
  FaultCode.frameUnset.number = 0x25 ∧ FaultCode.frameUnset.cls = .runtimeFault

/-- R215: a running machine halts only by ReturnProc in procedure 0, or by EndOfCode. -/
def Obligations.HaltsOnlyByReturnOrEndOfCode : Prop :=
  ∀ (s t : State) (k : HaltKind), s.status = .running → step s = .next t → t.status = .halted k →
    (∃ rest, decodeAt s.pb s.pc.toNat = .ok (.returnProc, rest) ∧ s.curProc = 0#64 ∧ k = .normal) ∨
    (∃ rest, decodeAt s.pb s.pc.toNat = .ok (.endOfCode, rest) ∧ k = .endOfCode)

/-- R49, R201: only InputToAddr takes an answer of the host, and it takes the first one. -/
def Obligations.OnlyInputToAddrTakesInput : Prop :=
  ∀ (i : Instr) (s t : State), exec i s = .next t →
    t.input = s.input ∨ (i = .inputToAddr ∧ ∃ v, s.input = v :: t.input)

/-- R225: a run with the debug trace on and the same run with it off end alike, with the same outputs, inputs, state and
fault. -/
def Obligations.TraceChangesNothingElse : Prop :=
  ∀ (fuel : Nat) (s : State) (b : Bool),
    (runFuel fuel { s with debugTrace := b }).untraced = (runFuel fuel s).untraced

/-! ## Load, loader scan, start of a run, analyzer -/

/-- R236, R237: load checks the length, then the width field; it keeps the bytes, W and procCount. -/
def Obligations.LoadCases : Prop :=
  ∀ bytes : List Byte,
    (bytes.length ≤ 4 → ∃ r, load bytes = .error r ∧ r.cls = .loadError ∧ r.code = .tooShort ∧
      r.info = bytes.length) ∧
    (∀ p0 p1 w0 w1 c : Byte, ∀ rest : List Byte, bytes = p0 :: p1 :: w0 :: w1 :: c :: rest →
      let field := w0.toNat + 256 * w1.toNat
      let count := p0.toNat + 256 * p1.toNat
      (field ≠ 2 → field ≠ 4 → field ≠ 8 → ∃ r, load bytes = .error r ∧ r.cls = .loadError ∧ r.code = .badWidth ∧
        r.info = field) ∧
      (∀ w : Width, field = w.bytes → load bytes = .ok { pb := bytes, width := w, procCount := count }))

/-- R12, R69, R189, R241, R243, R246: where the loader scan succeeds it has gone from offset 4 to cpStart over one header
for each procedure 0 .. procCount - 1, each followed by the body it declares (ScanReaches); start_pos of each is at its
EntryProc; and the pool is the whole records after the last body, each the little-endian signed number of its W bytes. -/
def Obligations.LoaderScanFindsEveryProcedure : Prop :=
  ∀ (mode : EntryLenMode) (vm : VM) (t : Tables), vm.pb.length < 2 ^ 64 → 4 ≤ vm.pb.length →
    loaderScan mode vm = .ok t →
    t.startPos.length = vm.procCount ∧ 4 ≤ t.cpStart ∧ t.cpStart ≤ vm.pb.length ∧
    t.cp.length = (vm.pb.length - t.cpStart) / vm.width.bytes ∧
    (∀ k, k < t.cp.length → t.cp[k]? = some (sext vm.width
      (leNat ((vm.pb.drop (t.cpStart + k * vm.width.bytes)).take vm.width.bytes)))) ∧
    (∃ found, ScanReaches mode vm found t.cpStart ∧ found.length = vm.procCount ∧
      ∀ (k : Nat) (p : U64), t.startPos[k]? = some p → (p.toNat, k) ∈ found) ∧
    ∀ (k : Nat) (p : U64), t.startPos[k]? = some p →
      4 ≤ p.toNat ∧ p.toNat + 7 ≤ t.cpStart ∧ ∃ (l i r : S16) (rest : List Byte),
        decodeAt vm.pb p.toNat = .ok (.entryProc l i r, rest) ∧ i.toInt = k

/-- R211, R244, R246: the start of `execute`: a loader fault or procCount = 0 leaves it Faulted with nothing emitted;
otherwise the state is the reset of R244, with the tables of the scan (R41), the parameters and the trace argument as
given. That the host's answers stand in the state and the trace records are counted is the model's (logs 3 and 9). -/
def Obligations.ExecuteStartsAtReset : Prop :=
  ∀ (config : Config) (vm : VM) (debugTrace : Bool) (input : List Int),
    let s := execute config vm debugTrace input
    (∀ r, loaderScan config.entryLenMode vm = .error r → s.status = .faulted r ∧ s.output = []) ∧
    (∀ t, loaderScan config.entryLenMode vm = .ok t →
      (vm.procCount = 0 → ∃ r, s.status = .faulted r ∧ r.code = .procOutOfRange ∧ r.info = 0 ∧ s.output = []) ∧
      (0 < vm.procCount → ∃ p0 ps, t.startPos = p0 :: ps ∧
        s.status = .running ∧ s.pc = p0 ∧ s.fp = 0#64 ∧ s.curProc = 0#64 ∧ s.stack.len = 0 ∧ s.stack.wf = true ∧
        s.output = [] ∧ s.pb = vm.pb ∧ s.width = vm.width ∧ s.procCount = vm.procCount ∧ s.cpStart = t.cpStart ∧
        s.cp = t.cp ∧ s.constCount = (vm.pb.length - t.cpStart) / vm.width.bytes ∧
        s.config = config ∧ s.debugTrace = debugTrace ∧ s.input = input ∧ s.traceRecords = 0 ∧
        s.procTable = { startPos := p0, framePtr := some 0#64 } ::
          ps.map (fun q => { startPos := q, framePtr := none })))

/-- R106, R109, R204: what the static Decode accepts is what the engine decodes there, and the position it gives is where
the instruction ends; every well-formed instruction that is not reserved it accepts; and for all other bytes it gives
each verdict of R106 with its position. That the position of F_TRUNCATED is the missing one is read from the spec
(log 24). -/
def Obligations.StaticDecodeAgreesWithEngine : Prop :=
  (∀ (pb : List Byte) (pos next : Nat) (i : Instr), staticDecode pb pos = .ok (i, next) →
    decodeAt pb pos = .ok (i, pb.drop next) ∧ next = pos + (encode i).length ∧
    i ≠ .put ∧ i ≠ .get ∧ i ≠ .opAddAddr) ∧
  ∀ (pb : List Byte) (pos : Nat),
    (∀ (i : Instr) (rest : List Byte), i.wf = true → i ≠ .put → i ≠ .get → i ≠ .opAddAddr →
      pb.drop pos = encode i ++ rest → staticDecode pb pos = .ok (i, pos + (encode i).length)) ∧
    (pb.length ≤ pos → decodesInvalid pb pos .truncated pos pos) ∧
    (∀ (i : Instr) (n : Nat), 0 < n → n < (encode i).length → i.wf = true → pb.drop pos = (encode i).take n →
      decodesInvalid pb pos .truncated pb.length pb.length) ∧
    (∀ (b : Byte) (rest : List Byte), pb.drop pos = b :: rest → 0x22 ≤ b.toNat →
      decodesInvalid pb pos .unknownOpcode b.toNat pos) ∧
    (∀ (b : Byte) (rest : List Byte), pb.drop pos = b :: rest → b = 0x1F#8 ∨ b = 0x20#8 ∨ b = 0x21#8 →
      decodesInvalid pb pos .unimplemented b.toNat pos) ∧
    (∀ text : List Byte, pb.drop pos = 0x1B#8 :: text → 0x00#8 ∉ text →
      decodesInvalid pb pos .truncated pb.length pb.length) ∧
    (∀ text rest : List Byte, pb.drop pos = 0x1B#8 :: text ++ 0x00#8 :: rest → 0x00#8 ∉ text →
      wellFormedUTF8 text = false → decodesInvalid pb pos .badUtf8 ((pos : Int) + 1) (pos + 1))

/-- R111, R115: after a loader scan that succeeds, the instruction lines describe one instruction after another from
offset 4, with every field of R115; without a fault they reach cpStart, and the constant lines are the pool's records;
a fault is found where the lines stop, by the static Decode or by a jump target below 0 or at or above 2^64, and no
constant line follows. -/
def Obligations.AnalyzerLinesAreDecodedInstructions : Prop :=
  ∀ (mode : EntryLenMode) (vm : VM) (t : Tables), loaderScan mode vm = .ok t →
    ∃ stop, describesFrom vm.pb t.cpStart 4 (analyze mode vm).lines stop ∧
      ((analyze mode vm).fault = none → t.cpStart ≤ stop ∧ (analyze mode vm).consts.length = t.cp.length ∧
        ∀ (k : Nat) (line : ConstLine), (analyze mode vm).consts[k]? = some line →
          line.index = k ∧ t.cp[k]? = some line.value ∧
          line.bytes = (vm.pb.drop (t.cpStart + k * vm.width.bytes)).take vm.width.bytes) ∧
      (∀ f, (analyze mode vm).fault = some f → stop < t.cpStart ∧ (analyze mode vm).consts = [] ∧
        (staticDecode vm.pb stop = .error f ∨ ∃ (i : Instr) (next : Nat) (target : Int),
          staticDecode vm.pb stop = .ok (i, next) ∧ jumpsTo stop i target ∧ (target < 0 ∨ 2 ^ 64 ≤ target) ∧
          f = { raised := { code := .badTarget, info := target }, pos := stop }))

/-- R111, R114, R229: the analyzer reports its own checks and the loader's, and no other fault; a loader fault stops it
before any line, with that fault's code and argument, at its pc0 (R209). That the position reported is that pc0 is read
from the spec (log 24). -/
def Obligations.AnalyzerReportsOnlyItsFaults : Prop :=
  ∀ (mode : EntryLenMode) (vm : VM),
    (∀ r, loaderScan mode vm = .error r → (analyze mode vm).lines = [] ∧ (analyze mode vm).consts = [] ∧
      (analyze mode vm).fault = some { raised := { code := r.code, info := r.info }, pos := r.pc0 }) ∧
    ∀ f : AnalysisFault, (analyze mode vm).fault = some f →
      f.raised.code ∈ [FaultCode.truncated, .unknownOpcode, .unimplemented, .badUtf8, .badTarget, .procOutOfRange,
        .duplicateProc, .badLayout]

/-- R12, R241, R242: from where the loader scan stands after whole procedures (ScanReaches), what it does next. With every
procedure found it succeeds there. Otherwise each of its faults, in the order of R241: no byte there, a byte other than
EntryProc's, a header cut short, an id out of range, an id found before, a negative body, a body past the end of the
buffer. pc0 is where the scan stands (R209). -/
def Obligations.LoaderScanFaults : Prop :=
  ∀ (mode : EntryLenMode) (vm : VM) (found : List (Nat × Nat)) (pos : Nat), ScanReaches mode vm found pos →
    (found.length = vm.procCount → ∃ t, loaderScan mode vm = .ok t ∧ t.cpStart = pos) ∧
    (found.length < vm.procCount →
      (vm.pb.length ≤ pos → vm.scanRaises mode pos .truncated pos) ∧
      (∀ (op : Byte) (rest : List Byte), vm.pb.drop pos = op :: rest → op ≠ 0x1A#8 →
        vm.scanRaises mode pos .badLayout pos) ∧
      (∀ rest : List Byte, vm.pb.drop pos = 0x1A#8 :: rest → rest.length < 6 →
        vm.scanRaises mode pos .truncated vm.pb.length) ∧
      ∀ (len i reserved : S16) (rest : List Byte), vm.pb.drop pos = encode (.entryProc len i reserved) ++ rest →
        (i.toInt < 0 ∨ (vm.procCount : Int) ≤ i.toInt → vm.scanRaises mode pos .procOutOfRange i.toInt) ∧
        ∀ id : Nat, i.toInt = id → id < vm.procCount →
          ((∃ p, (p, id) ∈ found) → vm.scanRaises mode pos .duplicateProc id) ∧
          ((∀ p, (p, id) ∉ found) → ∀ n : Int, declaresBody mode len n →
            (n < 0 → vm.scanRaises mode pos .badLayout pos) ∧
            ((rest.length : Int) < n → vm.scanRaises mode vm.pb.length .truncated vm.pb.length)))
end

