-- ==== Sys2Proof/Laws/Bytes.lean ====
section
/-!
SUPPORT. Laws of the byte-order helpers, of the string splitter and of the operand bytes.
-/
namespace Sys2Proof

@[simp] theorem leNat_nil : leNat [] = 0 := rfl

@[simp] theorem leNat_cons (b : Byte) (bs : List Byte) : leNat (b :: bs) = b.toNat + 256 * leNat bs := rfl

@[simp] theorem length_leBytes (n v : Nat) : (leBytes n v).length = n := by
  induction n generalizing v with
  | zero => rfl
  | succ n ih => simp [leBytes, ih]

theorem leNat_lt (bs : List Byte) : leNat bs < 256 ^ bs.length := by
  induction bs with
  | nil => simp
  | cons b bs ih =>
    have hb : b.toNat < 256 := b.isLt
    simp only [leNat_cons, List.length_cons, Nat.pow_succ]
    omega

theorem leNat_leBytes (n v : Nat) : leNat (leBytes n v) = v % 256 ^ n := by
  induction n generalizing v with
  | zero => simp [leBytes, Nat.mod_one]
  | succ n ih =>
    have split : v % (256 * 256 ^ n) = v % 256 + 256 * (v / 256 % 256 ^ n) := Nat.mod_mul
    simp only [leBytes, leNat_cons, ih, BitVec.toNat_ofNat]
    rw [show 256 ^ (n + 1) = 256 * 256 ^ n from Nat.pow_succ'.trans rfl, split]

theorem leNat_leBytes_of_lt {n v : Nat} (h : v < 256 ^ n) : leNat (leBytes n v) = v := by
  rw [leNat_leBytes, Nat.mod_eq_of_lt h]

theorem leBytes_zero (n : Nat) : leBytes n 0 = List.replicate n 0#8 := by
  induction n with
  | zero => rfl
  | succ n ih => simp [leBytes, ih, List.replicate_succ]

/-- A 16-bit operand read back from its two bytes (R101). -/
@[simp] theorem s16_extract (v : S16) : s16 (v.extractLsb' 0 8) (v.extractLsb' 8 8) = v := by
  apply BitVec.eq_of_toNat_eq
  have := v.isLt
  simp only [s16, BitVec.toNat_append, BitVec.extractLsb'_toNat, Nat.shiftRight_zero]
  rw [← Nat.shiftLeft_add_eq_or_of_lt (Nat.mod_lt _ (by decide)), Nat.shiftLeft_eq, Nat.shiftRight_eq_div_pow]
  omega

/-- The two bytes of an operand that was read from two bytes (R101). -/
@[simp] theorem s16Bytes_s16 (lo hi : Byte) : s16Bytes (s16 lo hi) = [lo, hi] := by
  have hl := lo.isLt
  have hh := hi.isLt
  have hv : (s16 lo hi).toNat = hi.toNat * 256 + lo.toNat := by
    simp only [s16, BitVec.toNat_append]
    rw [← Nat.shiftLeft_add_eq_or_of_lt hl, Nat.shiftLeft_eq]
  simp only [s16Bytes, List.cons.injEq, and_true]
  constructor <;> apply BitVec.eq_of_toNat_eq <;>
    simp only [BitVec.extractLsb'_toNat, hv, Nat.shiftRight_eq_div_pow] <;> omega

@[simp] theorem length_s16Bytes (v : S16) : (s16Bytes v).length = 2 := rfl

/-! ## Strings -/

@[simp] theorem noNul_nil : noNul [] = true := rfl

@[simp] theorem noNul_cons (b : Byte) (s : List Byte) : noNul (b :: s) = (b != 0#8 && noNul s) := rfl

/-- A string without 0x00 is what stands before the first 0x00 (R103). -/
theorem splitNul_append {s : List Byte} (h : noNul s = true) (rest : List Byte) :
    splitNul (s ++ 0#8 :: rest) = some (s, rest) := by
  induction s with
  | nil => simp [splitNul]
  | cons b s ih =>
    simp only [noNul_cons, Bool.and_eq_true, bne_iff_ne, ne_eq] at h
    simp [splitNul, h.1, ih h.2]

/-- What the splitter answers, put together again, is what it was given; and the string holds no 0x00. -/
theorem splitNul_eq_some {bs s rest : List Byte} (h : splitNul bs = some (s, rest)) :
    bs = s ++ 0#8 :: rest ∧ noNul s = true := by
  induction bs generalizing s with
  | nil => cases h
  | cons b bs ih =>
    simp only [splitNul] at h
    split at h
    · rename_i hb
      cases h
      exact ⟨by simp [hb], rfl⟩
    · rename_i hb
      split at h
      · rename_i s' rest' heq
        cases h
        obtain ⟨h1, h2⟩ := ih heq
        exact ⟨by simp [h1], by simp [hb, h2]⟩
      · cases h

end Sys2Proof
end

