-- ==== Sys2Proof/Laws/Loader.lean ====
section
/-!
SUPPORT. Laws of the loader scan, of the analyzer's jump target and of runs of many steps.
-/
namespace Sys2Proof.Machine

/-! ## The loader scan -/

/-- A declared body that the buffer holds is skipped whole. -/
theorem scanFrom_body {mode : EntryLenMode} {n : Nat} (toFind : Nat) (found : Found) :
    ∀ (remaining : Nat) (bs : List Byte) (pos : Nat), remaining ≤ bs.length →
      scanFrom mode n bs pos remaining toFind found =
        scanFrom mode n (bs.drop remaining) (pos + remaining) 0 toFind found
  | 0, _, _, _ => rfl
  | remaining + 1, b :: bs, pos, h => by
    simp only [scanFrom]
    rw [scanFrom_body toFind found remaining bs (pos + 1) (by simpa using h), List.drop_succ_cons,
      Nat.add_assoc, Nat.add_comm 1]

/-- A declared body that runs past the end of the buffer faults at the first byte that is missing. -/
theorem scanFrom_body_truncated {mode : EntryLenMode} {n : Nat} (toFind : Nat) (found : Found) :
    ∀ (remaining : Nat) (bs : List Byte) (pos : Nat), bs.length < remaining →
      scanFrom mode n bs pos remaining toFind found =
        .error (Raise.record { code := .truncated, info := (pos + bs.length : Nat) } (pos + bs.length))
  | remaining + 1, [], pos, _ => by simp [scanFrom]
  | remaining + 1, b :: bs, pos, h => by
    simp only [scanFrom]
    rw [scanFrom_body_truncated toFind found remaining bs (pos + 1) (by simpa using h), List.length_cons,
      Nat.add_assoc, Nat.add_comm 1]

/-- At a whole EntryProc the scan does what its header says, then goes on after the seven bytes. -/
theorem scanFrom_header {mode : EntryLenMode} {n toFind pos : Nat} {found : Found} (len i reserved : S16)
    (rest : List Byte) :
    scanFrom mode n (encode (.entryProc len i reserved) ++ rest) pos 0 (toFind + 1) found =
      match scanHeader mode n found pos len.toInt i.toInt with
      | .error r => .error r
      | .ok (remaining, found') => scanFrom mode n rest (pos + 7) remaining toFind found' := by
  have bytes : ∀ v : S16, ∃ a b, s16Bytes v = [a, b] ∧ s16 a b = v := fun v => ⟨_, _, rfl, s16_extract v⟩
  obtain ⟨a, b, h1, h2⟩ := bytes len
  obtain ⟨c, d, h3, h4⟩ := bytes i
  obtain ⟨e, f, h5, -⟩ := bytes reserved
  have split : encode (.entryProc len i reserved) ++ rest = 0x1A#8 :: a :: b :: c :: d :: e :: f :: rest := by
    show 0x1A#8 :: (s16Bytes len ++ s16Bytes i ++ s16Bytes reserved) ++ rest = _
    rw [h1, h3, h5]; rfl
  rw [split]
  simp only [scanFrom, show opcodeOf 0x1A#8 = some .entryProc from by decide, if_true]
  cases h : scanHeader mode n found pos len.toInt i.toInt <;> simp only [h2, h4, h]

/-- A header that is accepted has an id not found before and a body of no fewer than 0 bytes. -/
theorem scanHeader_ok {mode : EntryLenMode} {n pos remaining : Nat} {found found' : Found} {len id : Int}
    (h : scanHeader mode n found pos len id = .ok (remaining, found')) :
    0 ≤ id ∧ id < n ∧ found[id.toNat]? = some none ∧ (remaining : Int) = bodyBytes mode len ∧
      found' = found.set id.toNat (some (BitVec.ofNat 64 pos)) := by
  unfold scanHeader at h
  split at h
  · cases h
  split at h
  · cases h
  · cases h
  · rename_i hf
    split at h
    · cases h
    · cases h
      exact ⟨by omega, by omega, hf, by omega, rfl⟩

/-- What a body length declares, as the scan computes it. -/
theorem declaresBody_iff {mode : EntryLenMode} {len : S16} {n : Int} :
    declaresBody mode len n ↔ bodyBytes mode len.toInt = n := by
  cases mode
  · exact Iff.rfl
  · simp only [declaresBody, bodyBytes]; omega

/-! ## The analyzer -/

/-- The target the analyzer prints is the jump's destination. -/
theorem staticTarget_eq_some {pos : Nat} {i : Instr} {t : Int} : staticTarget pos i = some t ↔ jumpsTo pos i t := by
  unfold jumpsTo
  cases i <;> simp [staticTarget] <;> exact eq_comm

/-- The main mark is on the EntryProc instructions of procedure 0, and on no other. -/
theorem mainMark_iff {i : Instr} : mainMark i = true ↔ ∃ len reserved, i = .entryProc len 0#16 reserved := by
  cases i <;> simp [mainMark]
  exact ⟨fun h => BitVec.eq_of_toInt_eq (by simpa using h), fun h => by rw [h]; rfl⟩

/-! ## Runs of many steps -/

/-- No step leads out of an ended state. -/
theorem eq_of_leadsTo {s t : State} {n : Nat} (hs : s.status ≠ .running) (h : State.leadsTo n s t) : s = t := by
  cases n with
  | zero => exact h
  | succ n => exact absurd h.1 hs

end Sys2Proof.Machine
end

