-- ==== Sys2Proof/Laws/Numbers.lean ====
section
/-!
SUPPORT. Laws of the conversions between integers, bit patterns and Data values (00_scope.md section 5).
-/
namespace Sys2Proof.Machine

theorem bits_eq (w : Width) : w.bits = 8 * w.bytes := rfl

theorem bytes_pos (w : Width) : 0 < w.bytes := by cases w <;> decide

theorem bytes_le_eight (w : Width) : w.bytes ≤ 8 := by cases w <;> decide

theorem two_pow_bits (w : Width) : 2 ^ w.bits = 256 ^ w.bytes := by cases w <;> decide

/-! ## The conversions at each width, in decimal -/

theorem wrap_w2 (x : Int) : wrap .w2 x = (x % 65536).toNat := rfl
theorem wrap_w4 (x : Int) : wrap .w4 x = (x % 4294967296).toNat := rfl
theorem wrap_w8 (x : Int) : wrap .w8 x = (x % 18446744073709551616).toNat := rfl

theorem sext_w2 (v : Nat) : sext .w2 v = if v < 32768 then (v : Int) else (v : Int) - 65536 := rfl
theorem sext_w4 (v : Nat) : sext .w4 v = if v < 2147483648 then (v : Int) else (v : Int) - 4294967296 := rfl
theorem sext_w8 (v : Nat) :
    sext .w8 v = if v < 9223372036854775808 then (v : Int) else (v : Int) - 18446744073709551616 := rfl

theorem inRange_w2 (v : Int) : inRange .w2 v = true ↔ -32768 ≤ v ∧ v < 32768 := by
  show (decide ((-32768 : Int) ≤ v) && decide (v < (32768 : Int))) = true ↔ _
  simp

theorem inRange_w4 (v : Int) : inRange .w4 v = true ↔ -2147483648 ≤ v ∧ v < 2147483648 := by
  show (decide ((-2147483648 : Int) ≤ v) && decide (v < (2147483648 : Int))) = true ↔ _
  simp

theorem inRange_w8 (v : Int) :
    inRange .w8 v = true ↔ -9223372036854775808 ≤ v ∧ v < 9223372036854775808 := by
  show (decide ((-9223372036854775808 : Int) ≤ v) && decide (v < (9223372036854775808 : Int))) = true ↔ _
  simp

theorem two_pow_bits_w2 : 2 ^ Width.bits .w2 = 65536 := rfl
theorem two_pow_bits_w4 : 2 ^ Width.bits .w4 = 4294967296 := rfl
theorem two_pow_bits_w8 : 2 ^ Width.bits .w8 = 18446744073709551616 := rfl

/-! ## What they do -/

theorem wrap_lt (w : Width) (x : Int) : wrap w x < 2 ^ w.bits := by
  cases w
  · rw [wrap_w2, two_pow_bits_w2]; omega
  · rw [wrap_w4, two_pow_bits_w4]; omega
  · rw [wrap_w8, two_pow_bits_w8]; omega

theorem wrap_lt_bytes (w : Width) (x : Int) : wrap w x < 256 ^ w.bytes := two_pow_bits w ▸ wrap_lt w x

/-- A number below 2^N read as two's complement is a Data value. -/
theorem sext_inRange (w : Width) {v : Nat} (h : v < 2 ^ w.bits) : inRange w (sext w v) = true := by
  cases w
  · rw [two_pow_bits_w2] at h; rw [inRange_w2, sext_w2]; split <;> omega
  · rw [two_pow_bits_w4] at h; rw [inRange_w4, sext_w4]; split <;> omega
  · rw [two_pow_bits_w8] at h; rw [inRange_w8, sext_w8]; split <;> omega

theorem narrow_inRange (w : Width) (x : Int) : inRange w (narrow w x) = true := sext_inRange w (wrap_lt w x)

theorem sext_wrap (w : Width) (x : Int) : sext w (wrap w x) = narrow w x := rfl

/-- A Data value survives being written and read. -/
theorem narrow_of_inRange {w : Width} {v : Int} (h : inRange w v = true) : narrow w v = v := by
  rw [← sext_wrap]
  cases w
  · rw [inRange_w2] at h; rw [sext_w2, wrap_w2]; split <;> omega
  · rw [inRange_w4] at h; rw [sext_w4, wrap_w4]; split <;> omega
  · rw [inRange_w8] at h; rw [sext_w8, wrap_w8]; split <;> omega

/-- A Data value's pattern is the pattern it was read from. -/
theorem wrap_sext {w : Width} {v : Nat} (h : v < 2 ^ w.bits) : wrap w (sext w v) = v := by
  cases w
  · rw [two_pow_bits_w2] at h; rw [wrap_w2, sext_w2]; split <;> omega
  · rw [two_pow_bits_w4] at h; rw [wrap_w4, sext_w4]; split <;> omega
  · rw [two_pow_bits_w8] at h; rw [wrap_w8, sext_w8]; split <;> omega

theorem narrow_sext {w : Width} {v : Nat} (h : v < 2 ^ w.bits) : narrow w (sext w v) = sext w v := by
  rw [← sext_wrap, wrap_sext h]

theorem boolData_inRange (w : Width) (b : Bool) : inRange w (boolData b) = true := by
  cases w <;> cases b <;> decide

/-- The datapath's result is a Data value (R156). -/
theorem aluResult_inRange (w : Width) (x : Int) : inRange w (aluResult w x) = true :=
  sext_inRange w (Nat.mod_lt _ (by cases w <;> decide))

end Sys2Proof.Machine
end

