-- ==== Sys2Proof/Laws/Memory.lean ====
section
/-!
SUPPORT. Laws of the runtime stack: its cells, its canonical form, and what each access primitive answers
(20_memory.md R75 to R81).
-/
namespace Sys2Proof.Machine

/-! ## Cell lists -/

/-- Addresses strictly rising, as a relation between any two cells. -/
abbrev Rising (cs : List Host.Cell) : Prop := cs.Pairwise (fun c d => c.1 < d.1)

theorem risingCells_iff (cs : List Host.Cell) : risingCells cs = true ↔ Rising cs := by
  induction cs with
  | nil => simp [risingCells]
  | cons c cs ih =>
    cases cs with
    | nil => simp [risingCells]
    | cons d ds =>
      obtain ⟨a, b⟩ := c
      obtain ⟨a', b'⟩ := d
      simp only [risingCells, Bool.and_eq_true, decide_eq_true_eq, ih]
      constructor
      · rintro ⟨h, hp⟩
        refine List.pairwise_cons.2 ⟨?_, hp⟩
        intro e he
        rcases List.mem_cons.1 he with rfl | he
        · exact h
        · exact Nat.lt_trans h ((List.pairwise_cons.1 hp).1 e he)
      · intro hp
        exact ⟨(List.pairwise_cons.1 hp).1 _ (List.mem_cons_self ..), (List.pairwise_cons.1 hp).2⟩

@[simp] theorem lookupCell_nil (a : Nat) : lookupCell [] a = Memory.unlisted := rfl

theorem lookupCell_cons (a' : Nat) (b : Byte) (cs : List Host.Cell) (a : Nat) :
    lookupCell ((a', b) :: cs) a = if a' = a then b else lookupCell cs a := rfl

/-- An address no cell has reads as an unlisted one. -/
theorem lookupCell_of_not_mem {cs : List Host.Cell} {a : Nat} (h : ∀ c ∈ cs, c.1 ≠ a) :
    lookupCell cs a = Memory.unlisted := by
  induction cs with
  | nil => rfl
  | cons c cs ih =>
    obtain ⟨a', b⟩ := c
    rw [lookupCell_cons, if_neg (h (a', b) (List.mem_cons_self ..))]
    exact ih fun d hd => h d (List.mem_cons_of_mem _ hd)

/-- In a rising list an address below the head's is unlisted. -/
theorem lookupCell_of_lt {a' : Nat} {b : Byte} {cs : List Host.Cell} (h : Rising ((a', b) :: cs)) {a : Nat}
    (ha : a < a') : lookupCell ((a', b) :: cs) a = Memory.unlisted := by
  apply lookupCell_of_not_mem
  intro c hc
  rcases List.mem_cons.1 hc with rfl | hc
  · simp only []; omega
  · have := (List.pairwise_cons.1 h).1 c hc
    simp only [] at this
    omega

theorem lookupCell_setCell_ne (cs : List Host.Cell) {a c : Nat} (b : Byte) (h : c ≠ a) :
    lookupCell (setCell cs a b) c = lookupCell cs c := by
  induction cs with
  | nil =>
    simp only [setCell]
    split
    · rfl
    · simp [lookupCell_cons, Ne.symm h]
  | cons d cs ih =>
    obtain ⟨a', b'⟩ := d
    simp only [setCell]
    split
    · split
      · rfl
      · simp [lookupCell_cons, Ne.symm h]
    · split
      · rename_i heq
        subst heq
        split <;> simp [lookupCell_cons, Ne.symm h]
      · simp [lookupCell_cons, ih]

theorem lookupCell_setCell_self {cs : List Host.Cell} (hr : Rising cs) (a : Nat) (b : Byte) :
    lookupCell (setCell cs a b) a = b := by
  induction cs with
  | nil =>
    simp only [setCell]
    split
    · rename_i hb
      simp [hb]
    · simp [lookupCell_cons]
  | cons d cs ih =>
    obtain ⟨a', b'⟩ := d
    simp only [setCell]
    split
    · rename_i hlt
      split
      · rename_i hb
        rw [hb, lookupCell_of_lt hr hlt]
      · simp [lookupCell_cons]
    · split
      · rename_i heq
        subst heq
        split
        · rename_i hb
          rw [hb]
          apply lookupCell_of_not_mem
          intro c hc
          have := (List.pairwise_cons.1 hr).1 c hc
          simp only [] at this
          omega
        · simp [lookupCell_cons]
      · rename_i hne
        rw [lookupCell_cons, if_neg (fun h => hne h.symm)]
        exact ih (List.pairwise_cons.1 hr).2

theorem mem_setCell {cs : List Host.Cell} {a : Nat} {b : Byte} {c : Host.Cell} (h : c ∈ setCell cs a b) :
    (c = (a, b) ∧ b ≠ Memory.unlisted) ∨ c ∈ cs := by
  induction cs with
  | nil =>
    simp only [setCell] at h
    split at h
    · cases h
    · rename_i hb
      exact .inl ⟨List.mem_singleton.1 h, hb⟩
  | cons d cs ih =>
    obtain ⟨a', b'⟩ := d
    simp only [setCell] at h
    split at h
    · split at h
      · exact .inr h
      · rename_i hb
        rcases List.mem_cons.1 h with rfl | h
        · exact .inl ⟨rfl, hb⟩
        · exact .inr h
    · split at h
      · split at h
        · exact .inr (List.mem_cons_of_mem _ h)
        · rename_i hb
          rcases List.mem_cons.1 h with rfl | h
          · exact .inl ⟨rfl, hb⟩
          · exact .inr (List.mem_cons_of_mem _ h)
      · rcases List.mem_cons.1 h with rfl | h
        · exact .inr (List.mem_cons_self ..)
        · rcases ih h with h | h
          · exact .inl h
          · exact .inr (List.mem_cons_of_mem _ h)

theorem rising_setCell {cs : List Host.Cell} (hr : Rising cs) (a : Nat) (b : Byte) : Rising (setCell cs a b) := by
  induction cs with
  | nil =>
    simp only [setCell]
    split <;> simp
  | cons d cs ih =>
    obtain ⟨a', b'⟩ := d
    obtain ⟨hd, ht⟩ := List.pairwise_cons.1 hr
    simp only [setCell]
    split
    · rename_i hlt
      split
      · exact hr
      · refine List.pairwise_cons.2 ⟨?_, hr⟩
        intro c hc
        rcases List.mem_cons.1 hc with rfl | hc
        · exact hlt
        · exact Nat.lt_trans hlt (hd c hc)
    · split
      · rename_i heq
        subst heq
        split
        · exact ht
        · exact List.pairwise_cons.2 ⟨hd, ht⟩
      · rename_i hnlt hne
        refine List.pairwise_cons.2 ⟨?_, ih ht⟩
        intro c hc
        rcases mem_setCell hc with ⟨rfl, -⟩ | hc
        · simp only []; omega
        · exact hd c hc

/-- Storing bytes keeps a cell list rising. -/
theorem rising_storeBytes {cs : List Host.Cell} (hr : Rising cs) (a : Nat) (bs : List Byte) :
    Rising (storeBytes cs a bs) := by
  induction bs generalizing cs a with
  | nil => exact hr
  | cons b bs ih => exact ih (rising_setCell hr a b) (a + 1)

/-- Every cell after a store was there before, or is one of the bytes stored and not the unlisted value. -/
theorem mem_storeBytes {cs : List Host.Cell} {a : Nat} {bs : List Byte} {c : Host.Cell}
    (h : c ∈ storeBytes cs a bs) : c ∈ cs ∨ (c.1 < a + bs.length ∧ c.2 ≠ Memory.unlisted) := by
  induction bs generalizing cs a with
  | nil => exact .inl h
  | cons b bs ih =>
    rcases ih h with h | ⟨h1, h2⟩
    · rcases mem_setCell h with ⟨rfl, hb⟩ | h
      · exact .inr ⟨by simp, hb⟩
      · exact .inl h
    · exact .inr ⟨by simp only [List.length_cons]; omega, h2⟩

/-- A byte outside the stored range is as it was. -/
theorem lookupCell_storeBytes_outside (cs : List Host.Cell) (a : Nat) (bs : List Byte) {c : Nat}
    (h : c < a ∨ a + bs.length ≤ c) : lookupCell (storeBytes cs a bs) c = lookupCell cs c := by
  induction bs generalizing cs a with
  | nil => rfl
  | cons b bs ih =>
    simp only [List.length_cons] at h
    rw [storeBytes, ih _ _ (by omega), lookupCell_setCell_ne _ _ (by omega)]

/-- A byte inside the stored range is the byte stored. -/
theorem lookupCell_storeBytes_inside {cs : List Host.Cell} (hr : Rising cs) (a : Nat) (bs : List Byte) {i : Nat}
    (h : i < bs.length) : lookupCell (storeBytes cs a bs) (a + i) = bs[i] := by
  induction bs generalizing cs a i with
  | nil => simp at h
  | cons b bs ih =>
    cases i with
    | zero =>
      rw [storeBytes, lookupCell_storeBytes_outside _ _ _ (by omega), Nat.add_zero, lookupCell_setCell_self hr]
      rfl
    | succ i =>
      have h' : i < bs.length := by simpa using h
      have := ih (rising_setCell hr a b) (a + 1) h'
      rw [storeBytes, show a + (i + 1) = a + 1 + i by omega, this]
      rfl

theorem lookupCell_filter (cs : List Host.Cell) (n a : Nat) :
    lookupCell (cs.filter (fun c => decide (c.1 < n))) a =
      if a < n then lookupCell cs a else Memory.unlisted := by
  induction cs with
  | nil => simp
  | cons c cs ih =>
    obtain ⟨a', b⟩ := c
    simp only [List.filter_cons, decide_eq_true_eq]
    split
    · rename_i hlt
      simp only [lookupCell_cons, ih]
      by_cases h : a' = a
      · subst h; simp [hlt]
      · simp [h]
    · rename_i hnlt
      rw [ih, lookupCell_cons]
      by_cases h : a' = a
      · subst h; simp [hnlt]
      · simp [h]

/-! ## The canonical form -/

theorem wf_iff (m : Memory) :
    m.wf = true ↔ Rising m.cells ∧ ∀ c ∈ m.cells, c.1 < m.len ∧ c.2 ≠ Memory.unlisted := by
  simp [Memory.wf, risingCells_iff]

theorem wf_empty : Memory.wf { len := 0, cells := [] } = true := rfl

/-- A byte at or past the length of a canonical stack is unlisted. -/
theorem byte_of_len_le {m : Memory} (h : m.wf = true) {a : Nat} (ha : m.len ≤ a) : m.byte a = Memory.unlisted := by
  apply lookupCell_of_not_mem
  intro c hc
  have := (((wf_iff m).1 h).2 c hc).1
  omega

/-- Cutting a stack keeps the canonical form. -/
theorem wf_cut {m : Memory} (h : m.wf = true) (n : Nat) : (m.cut n).wf = true := by
  obtain ⟨hr, hc⟩ := (wf_iff m).1 h
  refine (wf_iff _).2 ⟨hr.filter _, ?_⟩
  intro c hcm
  obtain ⟨h1, h2⟩ := List.mem_filter.1 hcm
  exact ⟨by simpa [Memory.cut] using h2, (hc c h1).2⟩

/-- Storing bytes into a stack that is made long enough keeps the canonical form. -/
theorem wf_store {m : Memory} (h : m.wf = true) (a : Nat) (bs : List Byte) {n : Nat} (hn : m.len ≤ n)
    (hb : a + bs.length ≤ n) : Memory.wf { len := n, cells := storeBytes m.cells a bs } = true := by
  obtain ⟨hr, hc⟩ := (wf_iff m).1 h
  refine (wf_iff _).2 ⟨rising_storeBytes hr a bs, ?_⟩
  intro c hcm
  rcases mem_storeBytes hcm with h1 | ⟨h1, h2⟩
  · exact ⟨Nat.lt_of_lt_of_le (hc c h1).1 hn, (hc c h1).2⟩
  · exact ⟨Nat.lt_of_lt_of_le h1 hb, h2⟩

@[simp] theorem len_cut (m : Memory) (n : Nat) : (m.cut n).len = n := rfl

theorem byte_cut (m : Memory) (n a : Nat) : (m.cut n).byte a = if a < n then m.byte a else Memory.unlisted :=
  lookupCell_filter m.cells n a

/-- Cutting a canonical stack at its own length or above lists the same bytes. -/
theorem cells_cut_of_le {m : Memory} (h : m.wf = true) {n : Nat} (hn : m.len ≤ n) : (m.cut n).cells = m.cells := by
  refine List.filter_eq_self.2 fun c hc => ?_
  have := (((wf_iff m).1 h).2 c hc).1
  simp only [decide_eq_true_eq]
  omega

theorem cut_cut (m : Memory) {n k : Nat} (h : k ≤ n) : (m.cut n).cut k = m.cut k := by
  simp only [Memory.cut, List.filter_filter, Memory.mk.injEq, true_and]
  congr 1
  funext c
  by_cases hc : c.1 < k
  · simp [hc, Nat.lt_of_lt_of_le hc h]
  · simp [hc]

theorem byte?_of_lt {m : Memory} {a : Nat} (h : a < m.len) : m.byte? a = some (m.byte a) := by simp [Memory.byte?, h]

theorem byte?_of_le {m : Memory} {a : Nat} (h : m.len ≤ a) : m.byte? a = none := by
  simp [Memory.byte?, Nat.not_lt.2 h]

/-! ## Reading a run of bytes -/

@[simp] theorem length_bytesAt (m : Memory) (a n : Nat) : (m.bytesAt a n).length = n := by
  induction n generalizing a with
  | zero => rfl
  | succ n ih => simp [Memory.bytesAt, ih]

theorem getElem_bytesAt (m : Memory) (a n : Nat) {i : Nat} (h : i < (m.bytesAt a n).length) :
    (m.bytesAt a n)[i] = m.byte (a + i) := by
  induction n generalizing a i with
  | zero => simp [Memory.bytesAt] at h
  | succ n ih =>
    cases i with
    | zero => simp [Memory.bytesAt]
    | succ i => simp [Memory.bytesAt, ih, show a + 1 + i = a + (i + 1) by omega]

/-- Two stacks that agree on a run of bytes read the same there. -/
theorem bytesAt_congr {m m' : Memory} {a n : Nat} (h : ∀ c, a ≤ c → c < a + n → m.byte c = m'.byte c) :
    m.bytesAt a n = m'.bytesAt a n := by
  induction n generalizing a with
  | zero => rfl
  | succ n ih =>
    simp only [Memory.bytesAt]
    rw [h a (by omega) (by omega), ih fun c h1 h2 => h c (by omega) (by omega)]

theorem data_congr {m m' : Memory} {w : Width} {a : Nat} (h : ∀ c, a ≤ c → c < a + w.bytes → m.byte c = m'.byte c) :
    m.data w a = m'.data w a := by
  rw [Memory.data, Memory.data, bytesAt_congr h]

/-- A run of bytes that was stored is read back. -/
theorem bytesAt_store {cs : List Host.Cell} (hr : Rising cs) (len a : Nat) (bs : List Byte) :
    Memory.bytesAt { len := len, cells := storeBytes cs a bs } a bs.length = bs := by
  apply List.ext_getElem (by simp)
  intro i h1 h2
  rw [getElem_bytesAt]
  exact lookupCell_storeBytes_inside hr a bs h2

theorem bytesAt_lt (m : Memory) (a n : Nat) : leNat (m.bytesAt a n) < 256 ^ n := by
  simpa using leNat_lt (m.bytesAt a n)

theorem bytesAt_lt_bits (m : Memory) (w : Width) (a : Nat) : leNat (m.bytesAt a w.bytes) < 2 ^ w.bits :=
  two_pow_bits w ▸ bytesAt_lt m a w.bytes

theorem data_inRange (m : Memory) (w : Width) (a : Nat) : inRange w (m.data w a) = true :=
  sext_inRange w (bytesAt_lt_bits m w a)

theorem field_lt (m : Memory) (a : Nat) : m.field a < 2 ^ 64 := bytesAt_lt m a 8

/-! ## What each primitive answers -/

/-- MemRead (R75), where it answers. -/
theorem read_ok {m : Memory} {addr : Int} {n v : Nat} (h : m.read addr n = .ok v) :
    0 ≤ addr ∧ addr.toNat + n ≤ m.len ∧ v = leNat (m.bytesAt addr.toNat n) := by
  simp only [Memory.read, raise] at h
  split at h
  · cases h
  · split at h
    · cases h
    · cases h
      exact ⟨by omega, by omega, rfl⟩

theorem read_of_le {m : Memory} {addr : Int} {n : Nat} (h0 : 0 ≤ addr) (h1 : addr.toNat + n ≤ m.len) :
    m.read addr n = .ok (leNat (m.bytesAt addr.toNat n)) := by
  simp only [Memory.read]
  rw [if_neg (by omega), if_neg (by omega)]

/-- MemWrite (R76), where it answers. -/
theorem write_ok {max : Nat} {m m' : Memory} {addr : Int} {n v : Nat} (h : m.write max addr n v = .ok m') :
    0 ≤ addr ∧ addr.toNat + n ≤ max ∧
      m' = { len := Nat.max m.len (addr.toNat + n), cells := storeBytes m.cells addr.toNat (leBytes n v) } := by
  simp only [Memory.write, raise] at h
  split at h
  · cases h
  · split at h
    · cases h
    · cases h
      exact ⟨by omega, by omega, rfl⟩

theorem write_of_le {max : Nat} {m : Memory} {addr : Int} {n : Nat} (v : Nat) (h0 : 0 ≤ addr)
    (h1 : addr.toNat + n ≤ max) :
    m.write max addr n v =
      .ok { len := Nat.max m.len (addr.toNat + n), cells := storeBytes m.cells addr.toNat (leBytes n v) } := by
  simp only [Memory.write]
  rw [if_neg (by omega), if_neg (by omega)]

/-- MemWrite keeps the canonical form. -/
theorem wf_write {max : Nat} {m m' : Memory} {addr : Int} {n v : Nat} (hm : m.wf = true)
    (h : m.write max addr n v = .ok m') : m'.wf = true := by
  obtain ⟨-, -, rfl⟩ := write_ok h
  refine wf_store hm _ _ (Nat.le_max_left ..) ?_
  rw [length_leBytes]
  exact Nat.le_max_right ..

/-- MemWrite leaves the stack within MAX_STACK_BYTES. -/
theorem len_write_le {max : Nat} {m m' : Memory} {addr : Int} {n v : Nat} (hm : m.len ≤ max)
    (h : m.write max addr n v = .ok m') : m'.len ≤ max := by
  obtain ⟨-, h1, rfl⟩ := write_ok h
  exact Nat.max_le.2 ⟨hm, h1⟩

/-- pop_W (R78), where it answers. -/
theorem popW_ok {w : Width} {m m' : Memory} {v : Int} (h : m.popW w = .ok (v, m')) :
    w.bytes ≤ m.len ∧ v = m.data w (m.len - w.bytes) ∧ m' = m.cut (m.len - w.bytes) := by
  simp only [Memory.popW, raise] at h
  split at h
  · cases h
  · rename_i hlt
    have hle : w.bytes ≤ m.len := Nat.not_lt.1 hlt
    rw [read_of_le (by omega) (by omega)] at h
    cases h
    refine ⟨hle, ?_, rfl⟩
    rw [show ((m.len : Int) - w.bytes).toNat = m.len - w.bytes by omega]
    rfl

theorem popW_of_le {w : Width} {m : Memory} (h : w.bytes ≤ m.len) :
    m.popW w = .ok (m.data w (m.len - w.bytes), m.cut (m.len - w.bytes)) := by
  simp only [Memory.popW]
  rw [if_neg (Nat.not_lt.2 h), read_of_le (by omega) (by omega)]
  rw [show ((m.len : Int) - w.bytes).toNat = m.len - w.bytes by omega]
  rfl

theorem popW_of_lt {w : Width} {m : Memory} (h : m.len < w.bytes) : m.popW w = raise .stackBounds m.len := by
  simp [Memory.popW, h]

/-- pop_64 (R80), where it answers. -/
theorem pop64_ok {m m' : Memory} {u : U64} (h : m.pop64 = .ok (u, m')) :
    8 ≤ m.len ∧ u = BitVec.ofNat 64 (m.field (m.len - 8)) ∧ m' = m.cut (m.len - 8) := by
  simp only [Memory.pop64, raise] at h
  split at h
  · cases h
  · rename_i hlt
    have hle : 8 ≤ m.len := Nat.not_lt.1 hlt
    rw [read_of_le (by omega) (by omega), show ((m.len : Int) - 8).toNat = m.len - 8 by omega] at h
    simp only [bind, Except.bind, pure, Except.pure, Except.ok.injEq, Prod.mk.injEq] at h
    exact ⟨hle, h.1.symm, h.2.symm⟩

theorem pop64_of_le {m : Memory} (h : 8 ≤ m.len) :
    m.pop64 = .ok (BitVec.ofNat 64 (m.field (m.len - 8)), m.cut (m.len - 8)) := by
  simp only [Memory.pop64]
  rw [if_neg (Nat.not_lt.2 h), read_of_le (by omega) (by omega)]
  rw [show ((m.len : Int) - 8).toNat = m.len - 8 by omega]
  rfl

theorem pop64_of_lt {m : Memory} (h : m.len < 8) : m.pop64 = raise .stackBounds m.len := by
  simp [Memory.pop64, h]

/-- A push of `n` bytes, where it answers: `bs` now lies at the old top, and every byte below it is as it was. -/
theorem push_spec {max : Nat} {m m' : Memory} {n v : Nat} (hm : m.wf = true)
    (h : m.write max m.len n v = .ok m') :
    m'.wf = true ∧ m'.len = m.len + n ∧ m.len + n ≤ max ∧ m'.bytesAt m.len n = leBytes n v ∧
      ∀ a, a < m.len → m'.byte a = m.byte a := by
  obtain ⟨-, hmax, rfl⟩ := write_ok h
  refine ⟨wf_write hm h, Nat.max_eq_right (by omega), by simpa using hmax, ?_, ?_⟩
  · have := bytesAt_store ((wf_iff m).1 hm).1 (Nat.max m.len ((m.len : Int).toNat + n)) m.len (leBytes n v)
    rw [length_leBytes] at this
    exact this
  · intro a ha
    exact lookupCell_storeBytes_outside _ _ _ (.inl (by omega))

theorem push_of_le {max : Nat} {m : Memory} {n : Nat} (v : Nat) (h : m.len + n ≤ max) :
    m.write max m.len n v = .ok { len := m.len + n, cells := storeBytes m.cells m.len (leBytes n v) } := by
  rw [write_of_le v (by omega) (by omega)]
  congr 2
  exact Nat.max_eq_right (by omega)

theorem push_of_lt {max : Nat} {m : Memory} {n : Nat} (v : Nat) (h : max < m.len + n) :
    m.write max m.len n v = raise .stackOverflow ((m.len : Int) + n) := by
  simp only [Memory.write]
  rw [if_neg (by omega), if_pos (by omega)]

/-- push_W (R77), where it answers. -/
theorem pushW_spec {max : Nat} {w : Width} {m m' : Memory} {v : Int} (hm : m.wf = true)
    (h : m.pushW max w v = .ok m') :
    m'.wf = true ∧ m'.len = m.len + w.bytes ∧ m.len + w.bytes ≤ max ∧ m'.data w m.len = narrow w v ∧
      ∀ a, a < m.len → m'.byte a = m.byte a := by
  obtain ⟨h1, h2, h3, h4, h5⟩ := push_spec hm h
  refine ⟨h1, h2, h3, ?_, h5⟩
  rw [Memory.data, h4, leNat_leBytes_of_lt (wrap_lt_bytes w v), sext_wrap]

/-- push_W succeeds exactly where there is room. -/
theorem pushW_of_le {max : Nat} {w : Width} {m : Memory} (v : Int) (h : m.len + w.bytes ≤ max) :
    ∃ m', m.pushW max w v = .ok m' := ⟨_, push_of_le _ h⟩

theorem pushW_of_lt {max : Nat} {w : Width} {m : Memory} (v : Int) (h : max < m.len + w.bytes) :
    m.pushW max w v = raise .stackOverflow ((m.len : Int) + w.bytes) := push_of_lt _ h

/-- push_64 (R79), where it answers. -/
theorem push64_spec {max : Nat} {m m' : Memory} {u : U64} (hm : m.wf = true) (h : m.push64 max u = .ok m') :
    m'.wf = true ∧ m'.len = m.len + 8 ∧ m.len + 8 ≤ max ∧ m'.field m.len = u.toNat ∧
      ∀ a, a < m.len → m'.byte a = m.byte a := by
  obtain ⟨h1, h2, h3, h4, h5⟩ := push_spec hm h
  refine ⟨h1, h2, h3, ?_, h5⟩
  rw [Memory.field, h4, leNat_leBytes_of_lt (by have := u.isLt; rwa [show (256 : Nat) ^ 8 = 2 ^ 64 by norm_num])]

theorem push64_of_le {max : Nat} {m : Memory} (u : U64) (h : m.len + 8 ≤ max) : ∃ m', m.push64 max u = .ok m' :=
  ⟨_, push_of_le _ h⟩

theorem push64_of_lt {max : Nat} {m : Memory} (u : U64) (h : max < m.len + 8) :
    m.push64 max u = raise .stackOverflow ((m.len : Int) + 8) := push_of_lt _ h

/-- Resize (R81), where it answers. -/
theorem resize_ok {max : Nat} {m m' : Memory} {n : Int} (h : m.resize max n = .ok m') :
    0 ≤ n ∧ n.toNat ≤ max ∧ m' = m.cut n.toNat := by
  simp only [Memory.resize, raise] at h
  split at h
  · cases h
  · split at h
    · cases h
    · cases h
      exact ⟨by omega, by omega, rfl⟩

theorem resize_of_le {max : Nat} {m : Memory} {n : Int} (h0 : 0 ≤ n) (h1 : n.toNat ≤ max) :
    m.resize max n = .ok (m.cut n.toNat) := by
  simp only [Memory.resize]
  rw [if_neg (by omega), if_neg (by omega)]

/-- Truncate (R81), where it answers. -/
theorem truncate_ok {m m' : Memory} {n : Nat} (h : m.truncate n = .ok m') : n ≤ m.len ∧ m' = m.cut n := by
  simp only [Memory.truncate, raise] at h
  split at h
  · cases h
  · cases h
    exact ⟨by omega, rfl⟩

theorem truncate_of_le {m : Memory} {n : Nat} (h : n ≤ m.len) : m.truncate n = .ok (m.cut n) := by
  simp only [Memory.truncate]
  rw [if_neg (by omega)]

/-! ## The canonical form -/

/-- push_W keeps the canonical form. -/
theorem wf_pushW {max : Nat} {w : Width} {m m' : Memory} {v : Int} (hm : m.wf = true)
    (h : m.pushW max w v = .ok m') : m'.wf = true := wf_write hm h

/-- push_64 keeps the canonical form. -/
theorem wf_push64 {max : Nat} {m m' : Memory} {u : U64} (hm : m.wf = true)
    (h : m.push64 max u = .ok m') : m'.wf = true := wf_write hm h

/-- pop_W keeps the canonical form. -/
theorem wf_popW {w : Width} {m m' : Memory} {v : Int} (hm : m.wf = true)
    (h : m.popW w = .ok (v, m')) : m'.wf = true := by
  obtain ⟨-, -, rfl⟩ := popW_ok h
  exact wf_cut hm _

/-- pop_64 keeps the canonical form. -/
theorem wf_pop64 {m m' : Memory} {u : U64} (hm : m.wf = true) (h : m.pop64 = .ok (u, m')) : m'.wf = true := by
  obtain ⟨-, -, rfl⟩ := pop64_ok h
  exact wf_cut hm _

/-- Resize keeps the canonical form. -/
theorem wf_resize {max : Nat} {m m' : Memory} {n : Int} (hm : m.wf = true) (h : m.resize max n = .ok m') :
    m'.wf = true := by
  obtain ⟨-, -, rfl⟩ := resize_ok h
  exact wf_cut hm _

/-- Truncate keeps the canonical form. -/
theorem wf_truncate {m m' : Memory} {n : Nat} (hm : m.wf = true) (h : m.truncate n = .ok m') : m'.wf = true := by
  obtain ⟨-, rfl⟩ := truncate_ok h
  exact wf_cut hm _

/-- Rising cell lists without an unlisted byte that read alike are the same list. -/
theorem cells_ext {cs ds : List Host.Cell} (hc : Rising cs) (hd : Rising ds)
    (nc : ∀ c ∈ cs, c.2 ≠ Memory.unlisted) (nd : ∀ d ∈ ds, d.2 ≠ Memory.unlisted)
    (h : ∀ a, lookupCell cs a = lookupCell ds a) : cs = ds := by
  induction cs generalizing ds with
  | nil =>
    cases ds with
    | nil => rfl
    | cons d ds =>
      obtain ⟨a, b⟩ := d
      have := h a
      rw [lookupCell_cons, if_pos rfl] at this
      exact absurd this.symm (nd _ (List.mem_cons_self ..))
  | cons c cs ih =>
    obtain ⟨a, b⟩ := c
    have hb := nc _ (List.mem_cons_self ..)
    cases ds with
    | nil =>
      have := h a
      rw [lookupCell_cons, if_pos rfl] at this
      exact absurd this hb
    | cons d ds =>
      obtain ⟨a', b'⟩ := d
      have hb' := nd _ (List.mem_cons_self ..)
      have haa : a = a' := by
        rcases Nat.lt_trichotomy a a' with hlt | heq | hgt
        · have := h a
          rw [lookupCell_of_lt hd hlt, lookupCell_cons, if_pos rfl] at this
          exact absurd this hb
        · exact heq
        · have := h a'
          rw [lookupCell_of_lt hc hgt, lookupCell_cons, if_pos rfl] at this
          exact absurd this.symm hb'
      subst haa
      have hbb : b = b' := by
        have := h a
        rwa [lookupCell_cons, lookupCell_cons, if_pos rfl, if_pos rfl] at this
      subst hbb
      congr 1
      refine ih (List.pairwise_cons.1 hc).2 (List.pairwise_cons.1 hd).2
        (fun c hm => nc c (List.mem_cons_of_mem _ hm)) (fun d hm => nd d (List.mem_cons_of_mem _ hm)) fun x => ?_
      by_cases hx : a = x
      · subst hx
        rw [lookupCell_of_not_mem fun c hm => Nat.ne_of_gt ((List.pairwise_cons.1 hc).1 c hm),
          lookupCell_of_not_mem fun d hm => Nat.ne_of_gt ((List.pairwise_cons.1 hd).1 d hm)]
      · have := h x
        rwa [lookupCell_cons, lookupCell_cons, if_neg hx, if_neg hx] at this

/-- Canonical stacks of the same length and the same bytes are the same stack. -/
theorem memory_ext {m m' : Memory} (hm : m.wf = true) (hm' : m'.wf = true) (hl : m.len = m'.len)
    (h : ∀ a, a < m.len → m.byte a = m'.byte a) : m = m' := by
  obtain ⟨hr, hc⟩ := (wf_iff m).1 hm
  obtain ⟨hr', hc'⟩ := (wf_iff m').1 hm'
  have hcells : m.cells = m'.cells := by
    refine cells_ext hr hr' (fun c hc1 => (hc c hc1).2) (fun c hc1 => (hc' c hc1).2) fun a => ?_
    by_cases ha : a < m.len
    · exact h a ha
    · exact (byte_of_len_le hm (by omega)).trans (byte_of_len_le hm' (by omega)).symm
  cases m
  cases m'
  simp_all

end Sys2Proof.Machine
end

