-- ==== Sys2Proof/Laws/State.lean ====
section
/-!
SUPPORT. One lemma per field per update of the state, true by rfl, so that no proof unfolds a record update.
-/
namespace Sys2Proof.Machine

/-! ## emitTrace -/

@[simp] theorem emitTrace_config (s : State) : s.emitTrace.config = s.config := rfl
@[simp] theorem emitTrace_pb (s : State) : s.emitTrace.pb = s.pb := rfl
@[simp] theorem emitTrace_width (s : State) : s.emitTrace.width = s.width := rfl
@[simp] theorem emitTrace_procCount (s : State) : s.emitTrace.procCount = s.procCount := rfl
@[simp] theorem emitTrace_cpStart (s : State) : s.emitTrace.cpStart = s.cpStart := rfl
@[simp] theorem emitTrace_constCount (s : State) : s.emitTrace.constCount = s.constCount := rfl
@[simp] theorem emitTrace_procTable (s : State) : s.emitTrace.procTable = s.procTable := rfl
@[simp] theorem emitTrace_cp (s : State) : s.emitTrace.cp = s.cp := rfl
@[simp] theorem emitTrace_stack (s : State) : s.emitTrace.stack = s.stack := rfl
@[simp] theorem emitTrace_pc (s : State) : s.emitTrace.pc = s.pc := rfl
@[simp] theorem emitTrace_fp (s : State) : s.emitTrace.fp = s.fp := rfl
@[simp] theorem emitTrace_curProc (s : State) : s.emitTrace.curProc = s.curProc := rfl
@[simp] theorem emitTrace_status (s : State) : s.emitTrace.status = s.status := rfl
@[simp] theorem emitTrace_output (s : State) : s.emitTrace.output = s.output := rfl
@[simp] theorem emitTrace_input (s : State) : s.emitTrace.input = s.input := rfl
@[simp] theorem emitTrace_debugTrace (s : State) : s.emitTrace.debugTrace = s.debugTrace := rfl
@[simp] theorem emitTrace_traceRecords (s : State) : s.emitTrace.traceRecords = s.tracesAfter := rfl

/-! ## emit -/

@[simp] theorem emit_config (s : State) (e : OutEvent) : (s.emit e).config = s.config := rfl
@[simp] theorem emit_pb (s : State) (e : OutEvent) : (s.emit e).pb = s.pb := rfl
@[simp] theorem emit_width (s : State) (e : OutEvent) : (s.emit e).width = s.width := rfl
@[simp] theorem emit_procCount (s : State) (e : OutEvent) : (s.emit e).procCount = s.procCount := rfl
@[simp] theorem emit_cpStart (s : State) (e : OutEvent) : (s.emit e).cpStart = s.cpStart := rfl
@[simp] theorem emit_constCount (s : State) (e : OutEvent) : (s.emit e).constCount = s.constCount := rfl
@[simp] theorem emit_procTable (s : State) (e : OutEvent) : (s.emit e).procTable = s.procTable := rfl
@[simp] theorem emit_cp (s : State) (e : OutEvent) : (s.emit e).cp = s.cp := rfl
@[simp] theorem emit_stack (s : State) (e : OutEvent) : (s.emit e).stack = s.stack := rfl
@[simp] theorem emit_pc (s : State) (e : OutEvent) : (s.emit e).pc = s.pc := rfl
@[simp] theorem emit_fp (s : State) (e : OutEvent) : (s.emit e).fp = s.fp := rfl
@[simp] theorem emit_curProc (s : State) (e : OutEvent) : (s.emit e).curProc = s.curProc := rfl
@[simp] theorem emit_status (s : State) (e : OutEvent) : (s.emit e).status = s.status := rfl
@[simp] theorem emit_output (s : State) (e : OutEvent) : (s.emit e).output = s.output ++ [e] := rfl
@[simp] theorem emit_input (s : State) (e : OutEvent) : (s.emit e).input = s.input := rfl
@[simp] theorem emit_debugTrace (s : State) (e : OutEvent) : (s.emit e).debugTrace = s.debugTrace := rfl
@[simp] theorem emit_traceRecords (s : State) (e : OutEvent) : (s.emit e).traceRecords = s.traceRecords := rfl

/-! ## takeFault -/

@[simp] theorem takeFault_config (s : State) (e : Raise) : (s.takeFault e).config = s.config := rfl
@[simp] theorem takeFault_pb (s : State) (e : Raise) : (s.takeFault e).pb = s.pb := rfl
@[simp] theorem takeFault_width (s : State) (e : Raise) : (s.takeFault e).width = s.width := rfl
@[simp] theorem takeFault_procCount (s : State) (e : Raise) : (s.takeFault e).procCount = s.procCount := rfl
@[simp] theorem takeFault_cpStart (s : State) (e : Raise) : (s.takeFault e).cpStart = s.cpStart := rfl
@[simp] theorem takeFault_constCount (s : State) (e : Raise) : (s.takeFault e).constCount = s.constCount := rfl
@[simp] theorem takeFault_procTable (s : State) (e : Raise) : (s.takeFault e).procTable = s.procTable := rfl
@[simp] theorem takeFault_cp (s : State) (e : Raise) : (s.takeFault e).cp = s.cp := rfl
@[simp] theorem takeFault_stack (s : State) (e : Raise) : (s.takeFault e).stack = s.stack := rfl
@[simp] theorem takeFault_pc (s : State) (e : Raise) : (s.takeFault e).pc = s.pc := rfl
@[simp] theorem takeFault_fp (s : State) (e : Raise) : (s.takeFault e).fp = s.fp := rfl
@[simp] theorem takeFault_curProc (s : State) (e : Raise) : (s.takeFault e).curProc = s.curProc := rfl
@[simp] theorem takeFault_status (s : State) (e : Raise) : (s.takeFault e).status = .faulted (e.record s.pc.toNat) := rfl
@[simp] theorem takeFault_output (s : State) (e : Raise) : (s.takeFault e).output = s.output := rfl
@[simp] theorem takeFault_input (s : State) (e : Raise) : (s.takeFault e).input = s.input := rfl
@[simp] theorem takeFault_debugTrace (s : State) (e : Raise) : (s.takeFault e).debugTrace = s.debugTrace := rfl
@[simp] theorem takeFault_traceRecords (s : State) (e : Raise) : (s.takeFault e).traceRecords = s.traceRecords := rfl

/-! ## setFramePtr -/

@[simp] theorem setFramePtr_config (s : State) (i : Nat) (f : U64) : (s.setFramePtr i f).config = s.config := rfl
@[simp] theorem setFramePtr_pb (s : State) (i : Nat) (f : U64) : (s.setFramePtr i f).pb = s.pb := rfl
@[simp] theorem setFramePtr_width (s : State) (i : Nat) (f : U64) : (s.setFramePtr i f).width = s.width := rfl
@[simp] theorem setFramePtr_procCount (s : State) (i : Nat) (f : U64) : (s.setFramePtr i f).procCount = s.procCount := rfl
@[simp] theorem setFramePtr_cpStart (s : State) (i : Nat) (f : U64) : (s.setFramePtr i f).cpStart = s.cpStart := rfl
@[simp] theorem setFramePtr_constCount (s : State) (i : Nat) (f : U64) : (s.setFramePtr i f).constCount = s.constCount := rfl
@[simp] theorem setFramePtr_procTable (s : State) (i : Nat) (f : U64) : (s.setFramePtr i f).procTable = s.procTable.modify i (fun e => { e with framePtr := some f }) := rfl
@[simp] theorem setFramePtr_cp (s : State) (i : Nat) (f : U64) : (s.setFramePtr i f).cp = s.cp := rfl
@[simp] theorem setFramePtr_stack (s : State) (i : Nat) (f : U64) : (s.setFramePtr i f).stack = s.stack := rfl
@[simp] theorem setFramePtr_pc (s : State) (i : Nat) (f : U64) : (s.setFramePtr i f).pc = s.pc := rfl
@[simp] theorem setFramePtr_fp (s : State) (i : Nat) (f : U64) : (s.setFramePtr i f).fp = s.fp := rfl
@[simp] theorem setFramePtr_curProc (s : State) (i : Nat) (f : U64) : (s.setFramePtr i f).curProc = s.curProc := rfl
@[simp] theorem setFramePtr_status (s : State) (i : Nat) (f : U64) : (s.setFramePtr i f).status = s.status := rfl
@[simp] theorem setFramePtr_output (s : State) (i : Nat) (f : U64) : (s.setFramePtr i f).output = s.output := rfl
@[simp] theorem setFramePtr_input (s : State) (i : Nat) (f : U64) : (s.setFramePtr i f).input = s.input := rfl
@[simp] theorem setFramePtr_debugTrace (s : State) (i : Nat) (f : U64) : (s.setFramePtr i f).debugTrace = s.debugTrace := rfl
@[simp] theorem setFramePtr_traceRecords (s : State) (i : Nat) (f : U64) : (s.setFramePtr i f).traceRecords = s.traceRecords := rfl

/-! ## answer -/

@[simp] theorem answer_config (s : State) (v : Int) : (s.answer v).config = s.config := rfl
@[simp] theorem answer_pb (s : State) (v : Int) : (s.answer v).pb = s.pb := rfl
@[simp] theorem answer_width (s : State) (v : Int) : (s.answer v).width = s.width := rfl
@[simp] theorem answer_procCount (s : State) (v : Int) : (s.answer v).procCount = s.procCount := rfl
@[simp] theorem answer_cpStart (s : State) (v : Int) : (s.answer v).cpStart = s.cpStart := rfl
@[simp] theorem answer_constCount (s : State) (v : Int) : (s.answer v).constCount = s.constCount := rfl
@[simp] theorem answer_procTable (s : State) (v : Int) : (s.answer v).procTable = s.procTable := rfl
@[simp] theorem answer_cp (s : State) (v : Int) : (s.answer v).cp = s.cp := rfl
@[simp] theorem answer_stack (s : State) (v : Int) : (s.answer v).stack = s.stack := rfl
@[simp] theorem answer_pc (s : State) (v : Int) : (s.answer v).pc = s.pc := rfl
@[simp] theorem answer_fp (s : State) (v : Int) : (s.answer v).fp = s.fp := rfl
@[simp] theorem answer_curProc (s : State) (v : Int) : (s.answer v).curProc = s.curProc := rfl
@[simp] theorem answer_status (s : State) (v : Int) : (s.answer v).status = s.status := rfl
@[simp] theorem answer_output (s : State) (v : Int) : (s.answer v).output = s.output := rfl
@[simp] theorem answer_input (s : State) (v : Int) : (s.answer v).input = s.input ++ [v] := rfl
@[simp] theorem answer_debugTrace (s : State) (v : Int) : (s.answer v).debugTrace = s.debugTrace := rfl
@[simp] theorem answer_traceRecords (s : State) (v : Int) : (s.answer v).traceRecords = s.traceRecords := rfl

/-! ## untraced -/

@[simp] theorem untraced_config (s : State) : s.untraced.config = s.config := rfl
@[simp] theorem untraced_pb (s : State) : s.untraced.pb = s.pb := rfl
@[simp] theorem untraced_width (s : State) : s.untraced.width = s.width := rfl
@[simp] theorem untraced_procCount (s : State) : s.untraced.procCount = s.procCount := rfl
@[simp] theorem untraced_cpStart (s : State) : s.untraced.cpStart = s.cpStart := rfl
@[simp] theorem untraced_constCount (s : State) : s.untraced.constCount = s.constCount := rfl
@[simp] theorem untraced_procTable (s : State) : s.untraced.procTable = s.procTable := rfl
@[simp] theorem untraced_cp (s : State) : s.untraced.cp = s.cp := rfl
@[simp] theorem untraced_stack (s : State) : s.untraced.stack = s.stack := rfl
@[simp] theorem untraced_pc (s : State) : s.untraced.pc = s.pc := rfl
@[simp] theorem untraced_fp (s : State) : s.untraced.fp = s.fp := rfl
@[simp] theorem untraced_curProc (s : State) : s.untraced.curProc = s.curProc := rfl
@[simp] theorem untraced_status (s : State) : s.untraced.status = s.status := rfl
@[simp] theorem untraced_output (s : State) : s.untraced.output = s.output := rfl
@[simp] theorem untraced_input (s : State) : s.untraced.input = s.input := rfl
@[simp] theorem untraced_debugTrace (s : State) : s.untraced.debugTrace = false := rfl
@[simp] theorem untraced_traceRecords (s : State) : s.untraced.traceRecords = 0 := rfl

/-! ## withFetchWord -/

@[simp] theorem withFetchWord_config (s : State) (nbits w : Nat) : (s.withFetchWord nbits w).config = s.config := rfl
@[simp] theorem withFetchWord_pb (s : State) (nbits w : Nat) : (s.withFetchWord nbits w).pb = placeBytes s.pb s.pc.toNat (tableBytes nbits w) := rfl
@[simp] theorem withFetchWord_width (s : State) (nbits w : Nat) : (s.withFetchWord nbits w).width = s.width := rfl
@[simp] theorem withFetchWord_procCount (s : State) (nbits w : Nat) : (s.withFetchWord nbits w).procCount = s.procCount := rfl
@[simp] theorem withFetchWord_cpStart (s : State) (nbits w : Nat) : (s.withFetchWord nbits w).cpStart = s.cpStart := rfl
@[simp] theorem withFetchWord_constCount (s : State) (nbits w : Nat) : (s.withFetchWord nbits w).constCount = s.constCount := rfl
@[simp] theorem withFetchWord_procTable (s : State) (nbits w : Nat) : (s.withFetchWord nbits w).procTable = s.procTable := rfl
@[simp] theorem withFetchWord_cp (s : State) (nbits w : Nat) : (s.withFetchWord nbits w).cp = s.cp := rfl
@[simp] theorem withFetchWord_stack (s : State) (nbits w : Nat) : (s.withFetchWord nbits w).stack = s.stack := rfl
@[simp] theorem withFetchWord_pc (s : State) (nbits w : Nat) : (s.withFetchWord nbits w).pc = s.pc := rfl
@[simp] theorem withFetchWord_fp (s : State) (nbits w : Nat) : (s.withFetchWord nbits w).fp = s.fp := rfl
@[simp] theorem withFetchWord_curProc (s : State) (nbits w : Nat) : (s.withFetchWord nbits w).curProc = s.curProc := rfl
@[simp] theorem withFetchWord_status (s : State) (nbits w : Nat) : (s.withFetchWord nbits w).status = .running := rfl
@[simp] theorem withFetchWord_output (s : State) (nbits w : Nat) : (s.withFetchWord nbits w).output = s.output := rfl
@[simp] theorem withFetchWord_input (s : State) (nbits w : Nat) : (s.withFetchWord nbits w).input = s.input := rfl
@[simp] theorem withFetchWord_debugTrace (s : State) (nbits w : Nat) : (s.withFetchWord nbits w).debugTrace = s.debugTrace := rfl
@[simp] theorem withFetchWord_traceRecords (s : State) (nbits w : Nat) : (s.withFetchWord nbits w).traceRecords = s.traceRecords := rfl

/-! ## The record of a raise -/

@[simp] theorem record_cls (e : Raise) (pc0 : Nat) : (e.record pc0).cls = e.code.cls := rfl
@[simp] theorem record_code (e : Raise) (pc0 : Nat) : (e.record pc0).code = e.code := rfl
@[simp] theorem record_pc0 (e : Raise) (pc0 : Nat) : (e.record pc0).pc0 = pc0 := rfl
@[simp] theorem record_info (e : Raise) (pc0 : Nat) : (e.record pc0).info = e.info := rfl

end Sys2Proof.Machine
end

