-- ==== Sys2Proof/Laws/Ops.lean ====
section
/-!
SUPPORT. What each shared operation can do, said once: where it answers, its answer; where it raises, its raise.
-/
namespace Sys2Proof.Machine

/-! ## The end of an instruction -/

@[simp] theorem finish_ok (s t : State) : s.finish (.ok t) = .next t.emitTrace := rfl

@[simp] theorem finish_error (s : State) (e : Raise) : s.finish (.error e) = .next (s.takeFault e).emitTrace := rfl

/-- An instruction ends with its own state, or with the fault it raised: there is no third way. -/
theorem finish_cases {s t : State} {r : Checked State} (h : s.finish r = .next t) :
    (∃ u, r = .ok u ∧ t = u.emitTrace) ∨ (∃ e, r = .error e ∧ t = (s.takeFault e).emitTrace) := by
  cases r with
  | ok u => exact .inl ⟨u, rfl, by cases h; rfl⟩
  | error e => exact .inr ⟨e, rfl, by cases h; rfl⟩

/-- An instruction always ends in a next state. -/
theorem finish_next (s : State) (r : Checked State) : ∃ t, s.finish r = .next t := by
  cases r <;> exact ⟨_, rfl⟩

/-- pc moved on exactly (R34). -/
theorem pcAfter_of_lt {s : State} {n : Nat} (h : s.pc.toNat + n < 2 ^ 64) : s.pcAfter n = .ok (s.pcPlus n) := by
  simp only [State.pcAfter, State.pcPlus]
  rw [if_pos h]

theorem pcAfter_ok {s : State} {n : Nat} {pc : U64} (h : s.pcAfter n = .ok pc) :
    s.pc.toNat + n < 2 ^ 64 ∧ pc = s.pcPlus n := by
  simp only [State.pcAfter, raise] at h
  split at h
  · rename_i hlt
    cases h
    exact ⟨hlt, rfl⟩
  · cases h

theorem toNat_pcPlus {s : State} {n : Nat} (h : s.pc.toNat + n < 2 ^ 64) : (s.pcPlus n).toNat = s.pc.toNat + n := by
  simp only [State.pcPlus, BitVec.toNat_ofNat]
  exact Nat.mod_eq_of_lt h

/-- A halt (R215), where pc can move on. -/
theorem halt_of_lt {s : State} (k : HaltKind) (h : s.pc.toNat + 1 < 2 ^ 64) :
    s.halt k = .ok { s with pc := s.pcPlus 1, status := .halted k } := by
  simp only [State.halt, pcAfter_of_lt h]
  rfl

theorem halt_ok {s t : State} {k : HaltKind} (h : s.halt k = .ok t) :
    t = { s with pc := s.pcPlus 1, status := .halted k } := by
  simp only [State.halt] at h
  cases hp : s.pcAfter 1 with
  | error e => rw [hp] at h; cases h
  | ok pc =>
    rw [hp] at h
    cases h
    rw [(pcAfter_ok hp).2]

/-! ## Operands -/

/-- procTable[i] (R43), where it answers. -/
theorem procEntry_ok {s : State} {i : Int} {e : ProcEntry} (h : s.procEntry i = .ok e) :
    0 ≤ i ∧ i < s.procCount ∧ s.procTable[i.toNat]? = some e := by
  simp only [State.procEntry, raise] at h
  split at h
  · cases h
  · rename_i hi
    split at h
    · cases h
    · rename_i e' he
      cases h
      exact ⟨by omega, by omega, he⟩

theorem procEntry_of_mem {s : State} {i : Int} {e : ProcEntry} (h0 : 0 ≤ i) (h1 : i < s.procCount)
    (h2 : s.procTable[i.toNat]? = some e) : s.procEntry i = .ok e := by
  simp only [State.procEntry]
  rw [if_neg (by omega), h2]

theorem procEntry_of_out {s : State} {i : Int} (h : i < 0 ∨ (s.procCount : Int) ≤ i) :
    s.procEntry i = raise .procOutOfRange i := by simp [State.procEntry, h]

/-- FramePtr(i) (R43), where it answers. -/
theorem framePtr_ok {s : State} {i : Int} {f : U64} (h : s.framePtr i = .ok f) : s.frameAt i (some f) := by
  simp only [State.framePtr] at h
  cases he : s.procEntry i with
  | error e => rw [he] at h; cases h
  | ok e =>
    rw [he] at h
    simp only [bind, Except.bind, raise] at h
    obtain ⟨h0, h1, h2⟩ := procEntry_ok he
    split at h
    · cases h
    · rename_i f' hf
      cases h
      exact ⟨h0, h1, e, h2, hf⟩

theorem framePtr_of_frameAt {s : State} {i : Int} {f : U64} (h : s.frameAt i (some f)) : s.framePtr i = .ok f := by
  obtain ⟨h0, h1, e, h2, h3⟩ := h
  simp [State.framePtr, procEntry_of_mem h0 h1 h2, bind, Except.bind, h3, pure, Except.pure]

theorem framePtr_of_unset {s : State} {i : Int} (h : s.frameAt i none) : s.framePtr i = raise .frameUnset i := by
  obtain ⟨h0, h1, e, h2, h3⟩ := h
  simp [State.framePtr, procEntry_of_mem h0 h1 h2, bind, Except.bind, h3]

theorem framePtr_of_out {s : State} {i : Int} (h : i < 0 ∨ (s.procCount : Int) ≤ i) :
    s.framePtr i = raise .procOutOfRange i := by
  simp [State.framePtr, procEntry_of_out h, bind, Except.bind, raise]

/-- CP[idx] (R138), where it answers. -/
theorem constant_ok {s : State} {k v : Int} (h : s.constant k = .ok v) :
    0 ≤ k ∧ k < s.constCount ∧ s.cp[k.toNat]? = some v := by
  simp only [State.constant, raise] at h
  split at h
  · cases h
  · split at h
    · cases h
    · rename_i v' hv
      cases h
      exact ⟨by omega, by omega, hv⟩

theorem constant_of_mem {s : State} {k v : Int} (h0 : 0 ≤ k) (h1 : k < s.constCount)
    (h2 : s.cp[k.toNat]? = some v) : s.constant k = .ok v := by
  simp only [State.constant]
  rw [if_neg (by omega), h2]

theorem constant_of_out {s : State} {k : Int} (h : k < 0 ∨ (s.constCount : Int) ≤ k) :
    s.constant k = raise .constOutOfRange k := by simp [State.constant, h]

/-- AddrValue (R131), where it answers. -/
theorem addrValue_ok {w : Width} {ea v : Int} (h : addrValue w ea = .ok v) :
    0 ≤ ea ∧ ea < (2 : Int) ^ (w.bits - 1) ∧ v = ea := by
  simp only [addrValue, raise] at h
  split at h
  · cases h
  · split at h
    · cases h
    · cases h
      exact ⟨by omega, by omega, rfl⟩

theorem addrValue_of_lt {w : Width} {ea : Int} (h0 : 0 ≤ ea) (h1 : ea < (2 : Int) ^ (w.bits - 1)) :
    addrValue w ea = .ok ea := by
  simp only [addrValue]
  rw [if_neg (by omega), if_neg (by omega)]

theorem addrValue_of_out {w : Width} {ea : Int} (h : ea < 0 ∨ (2 : Int) ^ (w.bits - 1) ≤ ea) :
    addrValue w ea = raise .addressOverflow ea := by
  simp only [addrValue]
  split
  · rfl
  · rw [if_pos (by omega)]

/-- An address that AddrValue accepts is a Data value. -/
theorem inRange_of_addr {w : Width} {ea : Int} (h0 : 0 ≤ ea) (h1 : ea < (2 : Int) ^ (w.bits - 1)) :
    inRange w ea = true := by
  have : 0 < (2 : Int) ^ (w.bits - 1) := Int.pow_pos (by decide)
  simp only [inRange, Bool.and_eq_true, decide_eq_true_eq]
  exact ⟨by omega, h1⟩

/-! ## Jumps -/

/-- The target of a jump (R184), where it answers. -/
theorem jumpTarget_ok {next t : U64} {offset : S16} (h : jumpTarget next offset = .ok t) :
    (t.toNat : Int) = (next.toNat : Int) + offset.toInt := by
  simp only [jumpTarget, raise] at h
  split at h
  · cases h
  · rename_i hr
    cases h
    rw [BitVec.toNat_ofInt]
    omega

theorem jumpTarget_of_lt {next : U64} {offset : S16} (h0 : 0 ≤ (next.toNat : Int) + offset.toInt)
    (h1 : (next.toNat : Int) + offset.toInt < (2 : Int) ^ 64) :
    jumpTarget next offset = .ok (BitVec.ofNat 64 ((next.toNat : Int) + offset.toInt).toNat) := by
  simp only [jumpTarget]
  rw [if_neg (by omega)]
  congr 1
  apply BitVec.eq_of_toNat_eq
  rw [BitVec.toNat_ofInt, BitVec.toNat_ofNat]
  omega

theorem jumpTarget_of_out {next : U64} {offset : S16}
    (h : (next.toNat : Int) + offset.toInt < 0 ∨ (2 : Int) ^ 64 ≤ (next.toNat : Int) + offset.toInt) :
    jumpTarget next offset = raise .addressOverflow ((next.toNat : Int) + offset.toInt) := by
  simp only [jumpTarget]
  rw [if_pos h]

/-! ## The link record -/

/-- The link record (R180), where there is room: three fields on the old top, everything below as it was. -/
theorem pushLink_spec {max : Nat} {m m' : Memory} {pc fp cur : U64} (hm : m.wf = true)
    (h : pushLink max m pc fp cur = .ok m') :
    m'.wf = true ∧ m'.len = m.len + 24 ∧ m.len + 24 ≤ max ∧ m'.field m.len = pc.toNat ∧
      m'.field (m.len + 8) = fp.toNat ∧ m'.field (m.len + 16) = cur.toNat ∧
      ∀ a, a < m.len → m'.byte a = m.byte a := by
  simp only [pushLink] at h
  cases h1 : m.push64 max pc with
  | error e => rw [h1] at h; cases h
  | ok m1 =>
    rw [h1] at h
    simp only [bind, Except.bind] at h
    cases h2 : m1.push64 max fp with
    | error e => rw [h2] at h; cases h
    | ok m2 =>
      rw [h2] at h
      simp only at h
      obtain ⟨w1, l1, -, f1, b1⟩ := push64_spec hm h1
      obtain ⟨w2, l2, -, f2, b2⟩ := push64_spec w1 h2
      obtain ⟨w3, l3, r3, f3, b3⟩ := push64_spec w2 h
      rw [l2, l1] at l3 r3 f3 b3
      rw [l1] at l2 f2 b2
      refine ⟨w3, by omega, by omega, ?_, ?_, f3, fun a ha => ?_⟩
      · rw [← f1]
        show leNat _ = leNat _
        rw [bytesAt_congr (m' := m1)]
        intro c _ hc
        rw [b3 c (by omega), b2 c (by omega)]
      · rw [← f2]
        show leNat _ = leNat _
        rw [bytesAt_congr (m' := m2)]
        intro c _ hc
        exact b3 c (by omega)
      · rw [b3 a (by omega), b2 a (by omega), b1 a ha]

theorem pushLink_of_le {max : Nat} {m : Memory} (pc fp cur : U64) (h : m.len + 24 ≤ max) :
    ∃ m', pushLink max m pc fp cur = .ok m' := by
  obtain ⟨m1, h1⟩ := push64_of_le (max := max) (m := m) pc (by omega)
  have l1 : m1.len = m.len + 8 := by
    obtain ⟨-, -, rfl⟩ := write_ok h1
    exact Nat.max_eq_right (by omega)
  obtain ⟨m2, h2⟩ := push64_of_le (max := max) (m := m1) fp (by omega)
  have l2 : m2.len = m1.len + 8 := by
    obtain ⟨-, -, rfl⟩ := write_ok h2
    exact Nat.max_eq_right (by omega)
  obtain ⟨m3, h3⟩ := push64_of_le (max := max) (m := m2) cur (by omega)
  exact ⟨m3, by simp [pushLink, h1, h2, h3, bind, Except.bind]⟩

/-! ## Instruction shapes -/

/-- `State.address` answers the address it was given, unless the configuration has it raise. -/
theorem address_ok {s : State} {a v : Int} (h : s.address a = .ok v) : v = a ∧ ¬ s.tooWide a := by
  unfold State.address at h
  unfold State.tooWide
  cases hc : s.config.wideAddress with
  | addressOverflow =>
    rw [hc] at h
    simp only at h
    split at h
    · cases h
    · rename_i hlt
      cases h
      exact ⟨rfl, fun hw => hlt hw.2⟩
  | lengthChecks =>
    rw [hc] at h
    cases h
    exact ⟨rfl, fun hw => nomatch hw.1⟩

theorem address_of_not_tooWide {s : State} {a : Int} (h : ¬ s.tooWide a) : s.address a = .ok a := by
  unfold State.tooWide at h
  unfold State.address
  cases hc : s.config.wideAddress with
  | addressOverflow => exact if_neg fun hw => h ⟨hc, hw⟩
  | lengthChecks => rfl

theorem address_of_tooWide {s : State} {a : Int} (h : s.tooWide a) : s.address a = raise .addressOverflow a := by
  unfold State.address
  rw [h.1]
  exact if_pos h.2

/-- An address within MAX_STACK_BYTES is below 2^64. -/
theorem not_tooWide_of_le {s : State} {a : Int} (h : a ≤ s.maxStack) : ¬ s.tooWide a := by
  rintro ⟨-, hw⟩
  have := s.config.maxStackBytes.isLt
  simp only [State.maxStack] at h
  omega

/-- PushValue* (R132 to R134), where it answers. -/
theorem pushValue_ok {s t : State} {n : Nat} {b : Base} {addr : S16} (h : s.pushValue n b addr = .ok t) :
    ∃ f m v, s.baseOf b = .ok f ∧ ¬ s.tooWide ((f.toNat : Int) + addr.toInt) ∧
      s.stack.read ((f.toNat : Int) + addr.toInt) s.width.bytes = .ok v ∧
      s.stack.pushW s.maxStack s.width (sext s.width v) = .ok m ∧
      t = { s with stack := m, pc := s.pcPlus n } := by
  simp only [State.pushValue, State.ea] at h
  cases hp : s.pcAfter n with
  | error e => rw [hp] at h; cases h
  | ok pc =>
  rw [hp] at h
  cases hb : s.baseOf b with
  | error e => rw [hb] at h; cases h
  | ok f =>
  rw [hb] at h
  simp only [bind, Except.bind, pure, Except.pure] at h
  cases ha : s.address ((f.toNat : Int) + addr.toInt) with
  | error e => rw [ha] at h; cases h
  | ok ea =>
  obtain ⟨rfl, hw⟩ := address_ok ha
  rw [ha] at h
  simp only at h
  cases hr : s.stack.read ((f.toNat : Int) + addr.toInt) s.width.bytes with
  | error e => rw [hr] at h; cases h
  | ok v =>
  rw [hr] at h
  simp only at h
  cases hm : s.stack.pushW s.maxStack s.width (sext s.width v) with
  | error e => rw [hm] at h; cases h
  | ok m =>
  rw [hm] at h
  cases h
  exact ⟨f, m, v, rfl, hw, hr, hm, by rw [(pcAfter_ok hp).2]⟩

/-- PushAddress* (R135 to R137), where it answers. -/
theorem pushAddress_ok {s t : State} {n : Nat} {b : Base} {addr : S16} (h : s.pushAddress n b addr = .ok t) :
    ∃ f m v, s.baseOf b = .ok f ∧ ¬ s.tooWide ((f.toNat : Int) + addr.toInt) ∧
      addrValue s.width ((f.toNat : Int) + addr.toInt) = .ok v ∧
      s.stack.pushW s.maxStack s.width v = .ok m ∧ t = { s with stack := m, pc := s.pcPlus n } := by
  simp only [State.pushAddress, State.ea] at h
  cases hp : s.pcAfter n with
  | error e => rw [hp] at h; cases h
  | ok pc =>
  rw [hp] at h
  cases hb : s.baseOf b with
  | error e => rw [hb] at h; cases h
  | ok f =>
  rw [hb] at h
  simp only [bind, Except.bind, pure, Except.pure] at h
  cases ha : s.address ((f.toNat : Int) + addr.toInt) with
  | error e => rw [ha] at h; cases h
  | ok ea =>
  obtain ⟨rfl, hw⟩ := address_ok ha
  rw [ha] at h
  simp only at h
  cases hr : addrValue s.width ((f.toNat : Int) + addr.toInt) with
  | error e => rw [hr] at h; cases h
  | ok v =>
  rw [hr] at h
  simp only at h
  cases hm : s.stack.pushW s.maxStack s.width v with
  | error e => rw [hm] at h; cases h
  | ok m =>
  rw [hm] at h
  cases h
  exact ⟨f, m, v, rfl, hw, hr, hm, by rw [(pcAfter_ok hp).2]⟩

/-- A unary instruction (R159, R160), where it answers. -/
theorem unary_ok {s t : State} {f : Int → Int} (h : s.unary f = .ok t) :
    ∃ m v m1, s.stack.popW s.width = .ok (v, m1) ∧ m1.pushW s.maxStack s.width (f v) = .ok m ∧
      t = { s with stack := m, pc := s.pcPlus 1 } := by
  simp only [State.unary] at h
  cases hp : s.pcAfter 1 with
  | error e => rw [hp] at h; cases h
  | ok pc =>
  rw [hp] at h
  cases hv : s.stack.popW s.width with
  | error e => rw [hv] at h; cases h
  | ok p =>
  obtain ⟨v, m1⟩ := p
  rw [hv] at h
  simp only [bind, Except.bind, pure, Except.pure] at h
  cases hm : m1.pushW s.maxStack s.width (f v) with
  | error e => rw [hm] at h; cases h
  | ok m =>
  rw [hm] at h
  cases h
  exact ⟨m, v, m1, rfl, hm, by rw [(pcAfter_ok hp).2]⟩

/-- A binary instruction (R161 to R170), where it answers: the right operand was on top, the left one below it. -/
theorem binary_ok {s t : State} {f : Int → Int → Checked Int} (h : s.binary f = .ok t) :
    ∃ m r l v m1 m2, s.stack.popW s.width = .ok (r, m1) ∧ m1.popW s.width = .ok (l, m2) ∧ f l r = .ok v ∧
      m2.pushW s.maxStack s.width v = .ok m ∧ t = { s with stack := m, pc := s.pcPlus 1 } := by
  simp only [State.binary] at h
  cases hp : s.pcAfter 1 with
  | error e => rw [hp] at h; cases h
  | ok pc =>
  rw [hp] at h
  cases hr : s.stack.popW s.width with
  | error e => rw [hr] at h; cases h
  | ok p =>
  obtain ⟨r, m1⟩ := p
  rw [hr] at h
  simp only [bind, Except.bind, pure, Except.pure] at h
  cases hl : m1.popW s.width with
  | error e => rw [hl] at h; cases h
  | ok p =>
  obtain ⟨l, m2⟩ := p
  rw [hl] at h
  simp only at h
  cases hf : f l r with
  | error e => rw [hf] at h; cases h
  | ok v =>
  rw [hf] at h
  simp only at h
  cases hm : m2.pushW s.maxStack s.width v with
  | error e => rw [hm] at h; cases h
  | ok m =>
  rw [hm] at h
  cases h
  exact ⟨m, r, l, v, m1, m2, rfl, hl, hf, hm, by rw [(pcAfter_ok hp).2]⟩

/-- InputToAddr's store (R149), where it answers. -/
theorem storeInput_ok {s t : State} {pc : U64} {m : Memory} {a v : Int} (h : s.storeInput pc m a v = .ok t) :
    ¬ s.tooWide ((s.fp.toNat : Int) + a) ∧
      ∃ m', m.write s.maxStack ((s.fp.toNat : Int) + a) s.width.bytes (wrap s.width v) = .ok m' ∧
        t = { s with stack := m', pc := pc } := by
  simp only [State.storeInput] at h
  cases ha : s.address ((s.fp.toNat : Int) + a) with
  | error e => rw [ha] at h; cases h
  | ok ea =>
  obtain ⟨rfl, hw⟩ := address_ok ha
  rw [ha] at h
  simp only [bind, Except.bind] at h
  cases hm : m.write s.maxStack ((s.fp.toNat : Int) + a) s.width.bytes (wrap s.width v) with
  | error e => rw [hm] at h; cases h
  | ok m' =>
    rw [hm] at h
    cases h
    exact ⟨hw, m', rfl, rfl⟩

end Sys2Proof.Machine
end

