-- ==== Sys2Proof/Laws/PerInstr.lean ====
section
/-!
SUPPORT. What is said of every instruction, one lemma for each.
-/
namespace Sys2Proof.Laws

/-- The bytes of an instruction are as many as its format has (30_encoding.md R94, R105). -/
def EncodedLength.Statement (i : Instr) : Prop := (encode i).length = i.length

/-- The first byte of an instruction selects its mnemonic in the dispatch table (30_encoding.md R96, R97). -/
def EncodedHead.Statement (i : Instr) : Prop := ∃ bs, encode i = opcodeByte i.opcode :: bs ∧
  opcodeOf (opcodeByte i.opcode) = some i.opcode

theorem EncodedLength.pushValueLocalVar (addr : S16) : Statement (.pushValueLocalVar addr) := rfl
theorem EncodedLength.pushValueMainVar (addr : S16) : Statement (.pushValueMainVar addr) := rfl
theorem EncodedLength.pushValueGlobalVar (addr procIdx : S16) : Statement (.pushValueGlobalVar addr procIdx) := rfl
theorem EncodedLength.pushAddressLocalVar (addr : S16) : Statement (.pushAddressLocalVar addr) := rfl
theorem EncodedLength.pushAddressMainVar (addr : S16) : Statement (.pushAddressMainVar addr) := rfl
theorem EncodedLength.pushAddressGlobalVar (addr procIdx : S16) : Statement (.pushAddressGlobalVar addr procIdx) := rfl
theorem EncodedLength.pushConstant (idx : S16) : Statement (.pushConstant idx) := rfl
theorem EncodedLength.storeValue : Statement .storeValue := rfl
theorem EncodedLength.outputValue : Statement .outputValue := rfl
theorem EncodedLength.inputToAddr : Statement .inputToAddr := rfl
theorem EncodedLength.minusify : Statement .minusify := rfl
theorem EncodedLength.isOdd : Statement .isOdd := rfl
theorem EncodedLength.opAdd : Statement .opAdd := rfl
theorem EncodedLength.opSubtract : Statement .opSubtract := rfl
theorem EncodedLength.opMultiply : Statement .opMultiply := rfl
theorem EncodedLength.opDivide : Statement .opDivide := rfl
theorem EncodedLength.compareEq : Statement .compareEq := rfl
theorem EncodedLength.compareNotEq : Statement .compareNotEq := rfl
theorem EncodedLength.compareLT : Statement .compareLT := rfl
theorem EncodedLength.compareGT : Statement .compareGT := rfl
theorem EncodedLength.compareLTEq : Statement .compareLTEq := rfl
theorem EncodedLength.compareGTEq : Statement .compareGTEq := rfl
theorem EncodedLength.callProc (procId : S16) : Statement (.callProc procId) := rfl
theorem EncodedLength.returnProc : Statement .returnProc := rfl
theorem EncodedLength.jump (offset : S16) : Statement (.jump offset) := rfl
theorem EncodedLength.jumpIfFalse (offset : S16) : Statement (.jumpIfFalse offset) := rfl
theorem EncodedLength.entryProc (bodyLen procId reservedBytes : S16) : Statement (.entryProc bodyLen procId reservedBytes) := rfl
theorem EncodedLength.putString (text : List Byte) : Statement (.putString text) := by
  simp [Statement, encode, Instr.operands, Operands.bytes, Instr.length]
theorem EncodedLength.pop : Statement .pop := rfl
theorem EncodedLength.swap : Statement .swap := rfl
theorem EncodedLength.endOfCode : Statement .endOfCode := rfl
theorem EncodedLength.put : Statement .put := rfl
theorem EncodedLength.get : Statement .get := rfl
theorem EncodedLength.opAddAddr : Statement .opAddAddr := rfl

theorem EncodedHead.pushValueLocalVar (addr : S16) : Statement (.pushValueLocalVar addr) := ⟨_, rfl, rfl⟩
theorem EncodedHead.pushValueMainVar (addr : S16) : Statement (.pushValueMainVar addr) := ⟨_, rfl, rfl⟩
theorem EncodedHead.pushValueGlobalVar (addr procIdx : S16) : Statement (.pushValueGlobalVar addr procIdx) := ⟨_, rfl, rfl⟩
theorem EncodedHead.pushAddressLocalVar (addr : S16) : Statement (.pushAddressLocalVar addr) := ⟨_, rfl, rfl⟩
theorem EncodedHead.pushAddressMainVar (addr : S16) : Statement (.pushAddressMainVar addr) := ⟨_, rfl, rfl⟩
theorem EncodedHead.pushAddressGlobalVar (addr procIdx : S16) : Statement (.pushAddressGlobalVar addr procIdx) := ⟨_, rfl, rfl⟩
theorem EncodedHead.pushConstant (idx : S16) : Statement (.pushConstant idx) := ⟨_, rfl, rfl⟩
theorem EncodedHead.storeValue : Statement .storeValue := ⟨_, rfl, rfl⟩
theorem EncodedHead.outputValue : Statement .outputValue := ⟨_, rfl, rfl⟩
theorem EncodedHead.inputToAddr : Statement .inputToAddr := ⟨_, rfl, rfl⟩
theorem EncodedHead.minusify : Statement .minusify := ⟨_, rfl, rfl⟩
theorem EncodedHead.isOdd : Statement .isOdd := ⟨_, rfl, rfl⟩
theorem EncodedHead.opAdd : Statement .opAdd := ⟨_, rfl, rfl⟩
theorem EncodedHead.opSubtract : Statement .opSubtract := ⟨_, rfl, rfl⟩
theorem EncodedHead.opMultiply : Statement .opMultiply := ⟨_, rfl, rfl⟩
theorem EncodedHead.opDivide : Statement .opDivide := ⟨_, rfl, rfl⟩
theorem EncodedHead.compareEq : Statement .compareEq := ⟨_, rfl, rfl⟩
theorem EncodedHead.compareNotEq : Statement .compareNotEq := ⟨_, rfl, rfl⟩
theorem EncodedHead.compareLT : Statement .compareLT := ⟨_, rfl, rfl⟩
theorem EncodedHead.compareGT : Statement .compareGT := ⟨_, rfl, rfl⟩
theorem EncodedHead.compareLTEq : Statement .compareLTEq := ⟨_, rfl, rfl⟩
theorem EncodedHead.compareGTEq : Statement .compareGTEq := ⟨_, rfl, rfl⟩
theorem EncodedHead.callProc (procId : S16) : Statement (.callProc procId) := ⟨_, rfl, rfl⟩
theorem EncodedHead.returnProc : Statement .returnProc := ⟨_, rfl, rfl⟩
theorem EncodedHead.jump (offset : S16) : Statement (.jump offset) := ⟨_, rfl, rfl⟩
theorem EncodedHead.jumpIfFalse (offset : S16) : Statement (.jumpIfFalse offset) := ⟨_, rfl, rfl⟩
theorem EncodedHead.entryProc (bodyLen procId reservedBytes : S16) : Statement (.entryProc bodyLen procId reservedBytes) := ⟨_, rfl, rfl⟩
theorem EncodedHead.putString (text : List Byte) : Statement (.putString text) := ⟨_, rfl, rfl⟩
theorem EncodedHead.pop : Statement .pop := ⟨_, rfl, rfl⟩
theorem EncodedHead.swap : Statement .swap := ⟨_, rfl, rfl⟩
theorem EncodedHead.endOfCode : Statement .endOfCode := ⟨_, rfl, rfl⟩
theorem EncodedHead.put : Statement .put := ⟨_, rfl, rfl⟩
theorem EncodedHead.get : Statement .get := ⟨_, rfl, rfl⟩
theorem EncodedHead.opAddAddr : Statement .opAddAddr := ⟨_, rfl, rfl⟩

end Sys2Proof.Laws
end

