-- ==== Sys2Proof/Tests/Slice0.lean ====
section
/-!
SUPPORT. Tests: ill-formed terms that WellFormed refuses, a written word for every constructor, one step for every
instruction on a state of the spec's examples (the rule named in each docstring), and a state that meets the hypotheses
of each statement.
-/
namespace Sys2Proof.Tests
open Sys2Proof Sys2Proof.Machine

/-! ## Helpers -/

/-- A stack that holds these bytes from address 0 on. -/
def stackOf (bs : List Byte) : Memory :=
  { len := bs.length, cells := (bs.zipIdx.filter (fun c => c.1 != 0#8)).map (fun c => (c.2, c.1)) }

/-- Two procedures, the second one called before with its frame at 32; `code` at pc. -/
def machine (w : Width) (pc : Nat) (code stack : List Byte) : State :=
  { State.reset with
    width := w
    pb := List.replicate pc 0#8 ++ code
    procCount := 2
    procTable := [{ startPos := 4#64, framePtr := some 0#64 }, { startPos := 20#64, framePtr := some 32#64 }]
    stack := stackOf stack
    pc := BitVec.ofNat 64 pc }

/-- The state after one step. -/
def after (s : State) : State :=
  match step s with
  | .next t => t
  | .fault _ => s
  | .refused _ => s

/-- The bytes of S. -/
def bytesOf (s : State) : List Byte := s.stack.bytesAt 0 s.stack.len

/-- The status a raise at pc leaves. -/
def faultAt (s : State) (code : FaultCode) (info : Int) : RunStatus :=
  .faulted { cls := code.cls, code := code, pc0 := s.pc.toNat, info := info }

/-- A state whose stack may not grow past `n` bytes. -/
def limited (n : Nat) (s : State) : State :=
  { s with config := { maxStackBytes := BitVec.ofNat 64 n, entryLenMode := .afterHeader, wideAddress := .addressOverflow } }

/-! ## WellFormed: each check refuses an ill-formed term -/

/-- R103: "The string cannot contain 0x00." -/
theorem test_wf_refuses_nul : (Instr.putString [0x6F#8, 0x00#8]).wf = false := by decide

/-- R151: C0 begins no sequence. -/
theorem test_wf_refuses_overlong : (Instr.putString [0xC0#8, 0x80#8]).wf = false := by decide

/-- R151: surrogate code points are excluded. -/
theorem test_wf_refuses_surrogate : (Instr.putString [0xED#8, 0xA0#8, 0x80#8]).wf = false := by decide

/-- R151: the row E1..EC. -/
theorem test_wf_accepts_three_bytes : (Instr.putString [0xE2#8, 0x82#8, 0xAC#8]).wf = true := by decide

/-! ## Decode: words written out from R94, R97, R101 -/

theorem test_decode_pushValueLocalVar :
    decode [0x00#8, 0xFC#8, 0xFF#8, 0x55#8] = .ok (.pushValueLocalVar (-4), [0x55#8]) := rfl
theorem test_decode_pushValueMainVar : decode [0x01#8, 0x02#8, 0x00#8] = .ok (.pushValueMainVar 2, []) := rfl
theorem test_decode_pushValueGlobalVar :
    decode [0x02#8, 0xFE#8, 0xFF#8, 0x01#8, 0x00#8] = .ok (.pushValueGlobalVar (-2) 1, []) := rfl
theorem test_decode_pushAddressLocalVar : decode [0x03#8, 0x04#8, 0x00#8] = .ok (.pushAddressLocalVar 4, []) := rfl
theorem test_decode_pushAddressMainVar : decode [0x04#8, 0x00#8, 0x01#8] = .ok (.pushAddressMainVar 256, []) := rfl
theorem test_decode_pushAddressGlobalVar :
    decode [0x05#8, 0x08#8, 0x00#8, 0x01#8, 0x00#8] = .ok (.pushAddressGlobalVar 8 1, []) := rfl
theorem test_decode_pushConstant : decode [0x06#8, 0xFF#8, 0x7F#8] = .ok (.pushConstant 32767, []) := rfl
theorem test_decode_storeValue : decode [0x07#8] = .ok (.storeValue, []) := rfl
theorem test_decode_outputValue : decode [0x08#8] = .ok (.outputValue, []) := rfl
theorem test_decode_inputToAddr : decode [0x09#8] = .ok (.inputToAddr, []) := rfl
theorem test_decode_minusify : decode [0x0A#8] = .ok (.minusify, []) := rfl
theorem test_decode_isOdd : decode [0x0B#8] = .ok (.isOdd, []) := rfl
theorem test_decode_opAdd : decode [0x0C#8, 0x0D#8] = .ok (.opAdd, [0x0D#8]) := rfl
theorem test_decode_opSubtract : decode [0x0D#8] = .ok (.opSubtract, []) := rfl
theorem test_decode_opMultiply : decode [0x0E#8] = .ok (.opMultiply, []) := rfl
theorem test_decode_opDivide : decode [0x0F#8] = .ok (.opDivide, []) := rfl
theorem test_decode_compareEq : decode [0x10#8] = .ok (.compareEq, []) := rfl
theorem test_decode_compareNotEq : decode [0x11#8] = .ok (.compareNotEq, []) := rfl
theorem test_decode_compareLT : decode [0x12#8] = .ok (.compareLT, []) := rfl
theorem test_decode_compareGT : decode [0x13#8] = .ok (.compareGT, []) := rfl
theorem test_decode_compareLTEq : decode [0x14#8] = .ok (.compareLTEq, []) := rfl
theorem test_decode_compareGTEq : decode [0x15#8] = .ok (.compareGTEq, []) := rfl
theorem test_decode_callProc : decode [0x16#8, 0x01#8, 0x00#8] = .ok (.callProc 1, []) := rfl
theorem test_decode_returnProc : decode [0x17#8] = .ok (.returnProc, []) := rfl
theorem test_decode_jump : decode [0x18#8, 0xEC#8, 0xFF#8] = .ok (.jump (-20), []) := rfl
theorem test_decode_jumpIfFalse : decode [0x19#8, 0x06#8, 0x00#8] = .ok (.jumpIfFalse 6, []) := rfl
theorem test_decode_entryProc :
    decode [0x1A#8, 0x0C#8, 0x00#8, 0x01#8, 0x00#8, 0x08#8, 0x00#8] = .ok (.entryProc 12 1 8, []) := rfl
theorem test_decode_putString :
    decode [0x1B#8, 0x6F#8, 0x6B#8, 0x00#8, 0x17#8] = .ok (.putString [0x6F#8, 0x6B#8], [0x17#8]) := rfl
theorem test_decode_pop : decode [0x1C#8] = .ok (.pop, []) := rfl
theorem test_decode_swap : decode [0x1D#8] = .ok (.swap, []) := rfl
theorem test_decode_endOfCode : decode [0x1E#8] = .ok (.endOfCode, []) := rfl
theorem test_decode_put : decode [0x1F#8] = .ok (.put, []) := rfl
theorem test_decode_get : decode [0x20#8] = .ok (.get, []) := rfl
theorem test_decode_opAddAddr : decode [0x21#8] = .ok (.opAddAddr, []) := rfl
theorem test_decode_unknown : decode [0x22#8] = .error (.unknownOpcode 0x22#8) := rfl
theorem test_decode_no_terminator : decode [0x1B#8, 0x6F#8] = .error .truncated := rfl

/-! ## One step: the spec's examples -/

/-- R132 example. -/
theorem test_step_pushValueLocalVar :
    bytesOf (after (machine .w4 16 [0x00#8, 0#8, 0#8] [0x2A#8, 0#8, 0#8, 0#8])) =
      [0x2A#8, 0#8, 0#8, 0#8, 0x2A#8, 0#8, 0#8, 0#8] := by decide

/-- R133 example. -/
theorem test_step_pushValueMainVar :
    bytesOf (after (machine .w2 16 [0x01#8, 2#8, 0#8] [5#8, 0#8, 7#8, 0#8])) =
      [5#8, 0#8, 7#8, 0#8, 7#8, 0#8] := by decide

/-- R134 example. -/
theorem test_step_pushValueGlobalVar :
    (after (machine .w8 16 [0x02#8, 0#8, 0#8, 1#8, 0#8]
      (List.replicate 32 0#8 ++ [7#8, 0#8, 0#8, 0#8, 0#8, 0#8, 0#8, 0#8]))).top = 7 := by decide

/-- R135 example. -/
theorem test_step_pushAddressLocalVar :
    bytesOf (after { machine .w2 16 [0x03#8, 4#8, 0#8] [] with fp := 32#64 }) = [0x24#8, 0#8] := by decide

/-- R136 example. -/
theorem test_step_pushAddressMainVar :
    bytesOf (after (machine .w4 16 [0x04#8, 0#8, 0#8] [])) = [0#8, 0#8, 0#8, 0#8] := by decide

/-- R137 example. -/
theorem test_step_pushAddressGlobalVar :
    (after (machine .w8 16 [0x05#8, 8#8, 0#8, 1#8, 0#8] [])).top = 40 := by decide

/-- R138 example. -/
theorem test_step_pushConstant :
    bytesOf (after { machine .w4 16 [0x06#8, 0#8, 0#8] [] with cp := [42], constCount := 1 }) =
      [0x2A#8, 0#8, 0#8, 0#8] := by decide

/-- R139 example. -/
theorem test_step_storeValue :
    bytesOf (after (machine .w2 16 [0x07#8] [0#8, 0#8, 0#8, 0#8, 7#8, 0#8])) = [7#8, 0#8] := by decide

/-- R139: an address past the length grows the stack with zero-fill. -/
theorem test_step_storeValue_grows :
    bytesOf (after (machine .w2 16 [0x07#8] [3#8, 0#8, 7#8, 1#8])) = [0#8, 0#8, 0#8, 7#8, 1#8] := by decide

/-- R140 example. -/
theorem test_step_pop :
    bytesOf (after (machine .w2 16 [0x1C#8] [1#8, 0#8, 2#8, 0#8])) = [1#8, 0#8] := by decide

/-- R141 example. -/
theorem test_step_swap :
    bytesOf (after (machine .w4 16 [0x1D#8] [0x2A#8, 0#8, 0#8, 0#8, 0#8, 0#8, 0#8, 0#8])) =
      [0x2A#8, 0#8, 0#8, 0#8, 0x2A#8, 0#8, 0#8, 0#8] := by decide

/-- R141: an address that names the popped bytes themselves faults. -/
theorem test_step_swap_popped :
    (after (machine .w2 16 [0x1D#8] [0#8, 0#8, 2#8, 0#8])).status =
      faultAt (machine .w2 16 [0x1D#8] []) .stackBounds 2 := by decide

/-- R147: at W = 2 the bytes 00 80 print as -32768. -/
theorem test_step_outputValue :
    (after (machine .w2 16 [0x08#8] [0#8, 0x80#8])).output = [.outValue (-32768)] := by decide

/-- R149 example. -/
theorem test_step_inputToAddr :
    bytesOf (after { machine .w2 16 [0x09#8] [0#8, 0#8, 0#8, 0#8] with input := [123] }) = [0x7B#8, 0#8] := by decide

/-- R149: "a bad address consumes one input value before it faults". -/
theorem test_step_inputToAddr_bad :
    (after { machine .w2 16 [0x09#8] [0xFF#8, 0xFF#8] with input := [123, 5] }).input = [5] := by decide

/-- R150 example. -/
theorem test_step_putString :
    (after (machine .w2 16 [0x1B#8, 0x6F#8, 0x6B#8, 0#8] [])).output = [.outString [0x6F#8, 0x6B#8]] ∧
    (after (machine .w2 16 [0x1B#8, 0x6F#8, 0x6B#8, 0#8] [])).pc = 20#64 := by decide

/-- R159 corner case. -/
theorem test_step_minusify_wraps :
    bytesOf (after (machine .w2 16 [0x0A#8] [0#8, 0x80#8])) = [0#8, 0x80#8] := by decide

/-- R159 example. -/
theorem test_step_minusify :
    bytesOf (after (machine .w4 16 [0x0A#8] [5#8, 0#8, 0#8, 0#8])) = [0xFB#8, 0xFF#8, 0xFF#8, 0xFF#8] := by decide

/-- R160: IsOdd(-3) = 1. -/
theorem test_step_isOdd : (after (machine .w2 16 [0x0B#8] [0xFD#8, 0xFF#8])).top = 1 := by decide

/-- R161: W = 2, 32767 + 1 = -32768. -/
theorem test_step_opAdd :
    (after (machine .w2 16 [0x0C#8] [0xFF#8, 0x7F#8, 1#8, 0#8])).top = -32768 := by decide

/-- R162 example. -/
theorem test_step_opSubtract :
    bytesOf (after (machine .w2 16 [0x0D#8] [3#8, 0#8, 5#8, 0#8])) = [0xFE#8, 0xFF#8] := by decide

/-- R163: W = 2, 200 * 200 = -25536. -/
theorem test_step_opMultiply :
    (after (machine .w2 16 [0x0E#8] [200#8, 0#8, 200#8, 0#8])).top = -25536 := by decide

/-- R172: -7 div 2 = -3. -/
theorem test_step_opDivide :
    (after (machine .w2 16 [0x0F#8] [0xF9#8, 0xFF#8, 2#8, 0#8])).top = -3 := by decide

/-- R172: -32768 div -1 = -32768. -/
theorem test_step_opDivide_wraps :
    (after (machine .w2 16 [0x0F#8] [0#8, 0x80#8, 0xFF#8, 0xFF#8])).top = -32768 := by decide

/-- R165 examples. -/
theorem test_step_compareEq :
    (after (machine .w2 16 [0x10#8] [5#8, 0#8, 5#8, 0#8])).top = 1 ∧
    (after (machine .w2 16 [0x10#8] [0xFF#8, 0xFF#8, 1#8, 0#8])).top = 0 := by decide

/-- R166 example. -/
theorem test_step_compareNotEq :
    (after (machine .w4 16 [0x11#8] [1#8, 0#8, 0#8, 0#8, 2#8, 0#8, 0#8, 0#8])).top = 1 := by decide

/-- R167 examples. -/
theorem test_step_compareLT :
    (after (machine .w2 16 [0x12#8] [0xFF#8, 0xFF#8, 1#8, 0#8])).top = 1 ∧
    (after (machine .w2 16 [0x12#8] [1#8, 0#8, 1#8, 0#8])).top = 0 := by decide

/-- R168 examples. -/
theorem test_step_compareGT :
    (after (machine .w2 16 [0x13#8] [3#8, 0#8, 0#8, 0#8])).top = 1 ∧
    (after (machine .w2 16 [0x13#8] [0#8, 0x80#8, 0xFF#8, 0x7F#8])).top = 0 := by decide

/-- R169 example, at W = 2. -/
theorem test_step_compareLTEq :
    (after (machine .w2 16 [0x14#8] [7#8, 0#8, 7#8, 0#8])).top = 1 ∧
    (after (machine .w2 16 [0x14#8] [8#8, 0#8, 7#8, 0#8])).top = 0 := by decide

/-- R170 example. -/
theorem test_step_compareGTEq :
    (after (machine .w4 16 [0x15#8] [0xFB#8, 0xFF#8, 0xFF#8, 0xFF#8, 0#8, 0#8, 0#8, 0#8])).top = 0 := by decide

/-- R180 example: the link record, and the callee's frame. -/
theorem test_step_callProc :
    bytesOf (after (machine .w2 32 [0x16#8, 1#8, 0#8] (List.replicate 8 0#8))) =
      List.replicate 8 0#8 ++ [0x23#8] ++ List.replicate 23 0#8 ∧
    (after (machine .w2 32 [0x16#8, 1#8, 0#8] (List.replicate 8 0#8))).fp = 32#64 ∧
    (after (machine .w2 32 [0x16#8, 1#8, 0#8] (List.replicate 8 0#8))).pc = 20#64 := by decide

/-- R182 example. -/
theorem test_step_returnProc :
    bytesOf (after { machine .w2 16 [0x17#8] (List.replicate 8 0#8 ++ [0x23#8] ++ List.replicate 31 0#8) with
      curProc := 1#64, fp := 32#64 }) = List.replicate 8 0#8 ∧
    (after { machine .w2 16 [0x17#8] (List.replicate 8 0#8 ++ [0x23#8] ++ List.replicate 31 0#8) with
      curProc := 1#64, fp := 32#64 }).pc = 0x23#64 := by decide

/-- R182: in procedure 0 it halts. -/
theorem test_step_returnProc_halts :
    (after (machine .w2 16 [0x17#8] [])).status = .halted .normal ∧
    (after (machine .w2 16 [0x17#8] [])).pc = 17#64 := by decide

/-- R184 example. -/
theorem test_step_jump : (after (machine .w2 64 [0x18#8, 0xEC#8, 0xFF#8] [])).pc = 0x2F#64 := by decide

/-- R185 example. -/
theorem test_step_jumpIfFalse :
    (after (machine .w2 16 [0x19#8, 6#8, 0#8] [0#8, 0#8])).pc = 0x19#64 ∧
    bytesOf (after (machine .w2 16 [0x19#8, 6#8, 0#8] [0#8, 0#8])) = [] := by decide

/-- R109: an empty stack with a truncated operand raises R_STACK_BOUNDS. -/
theorem test_step_jumpIfFalse_truncated :
    (after (machine .w2 16 [0x19#8, 6#8] [])).status = faultAt (machine .w2 16 [] []) .stackBounds 0 := by decide

/-- R190 example. -/
theorem test_step_entryProc :
    (after { machine .w2 16 [0x1A#8, 12#8, 0#8, 1#8, 0#8, 8#8, 0#8] (List.replicate 32 1#8) with
      curProc := 1#64, fp := 32#64 }).stack.len = 40 ∧
    (after { machine .w2 16 [0x1A#8, 12#8, 0#8, 1#8, 0#8, 8#8, 0#8] (List.replicate 32 1#8) with
      curProc := 1#64, fp := 32#64 }).pc = 23#64 := by decide

/-- R191 example. -/
theorem test_step_endOfCode :
    (after (machine .w2 48 [0x1E#8] [])).status = .halted .endOfCode ∧
    (after (machine .w2 48 [0x1E#8] [])).pc = 0x31#64 := by decide

/-- R200 example. -/
theorem test_step_put :
    (after (machine .w2 11 [0x1F#8] [])).status =
      .faulted { cls := .runtimeFault, code := .unimplemented, pc0 := 0x0B, info := 0x1F } := by decide

/-- R201 example. -/
theorem test_step_get :
    (after (machine .w2 11 [0x20#8] [])).status =
      .faulted { cls := .runtimeFault, code := .unimplemented, pc0 := 0x0B, info := 0x20 } := by decide

/-- R202 example. -/
theorem test_step_opAddAddr :
    (after (machine .w2 11 [0x21#8] [1#8, 0#8, 2#8, 0#8])).status =
      .faulted { cls := .runtimeFault, code := .unimplemented, pc0 := 0x0B, info := 0x21 } := by decide

/-- R203 example. -/
theorem test_step_unknown :
    (after (machine .w2 11 [0xFF#8] [])).status =
      .faulted { cls := .formatError, code := .unknownOpcode, pc0 := 0x0B, info := 0xFF } := by decide

/-- The word of a table row is fetched and run as the first instruction after reset. -/
theorem test_fetchWord_putString :
    (after (State.reset.withFetchWord 24 0x6B6F1B)).output = [.outString [0x6F#8, 0x6B#8]] := by decide

/-! ## Load and scan -/

/-- L1-A of 95_test_vectors.md: Scenario A with the corrected length, W = 4. -/
def scenarioA : List Byte := [
  0x01#8, 0x00#8, 0x04#8, 0x00#8, 0x1A#8, 0x05#8, 0x00#8, 0x00#8, 0x00#8, 0x00#8, 0x00#8,
  0x06#8, 0x00#8, 0x00#8, 0x08#8, 0x17#8, 0x2A#8, 0x00#8, 0x00#8, 0x00#8]

/-- The state `boot` starts a program in. -/
def started (bytes : List Byte) : State :=
  match boot Config.default bytes false [] with
  | .next s => s
  | .fault _ => State.reset
  | .refused _ => State.reset

/-- R241, R244 on it: the pool is [42], and the run starts at offset 4. -/
theorem test_boot_scenarioA :
    (started scenarioA).cp = [42] ∧ (started scenarioA).cpStart = 16 ∧ (started scenarioA).pc = 4#64 := by decide

/-- L1-B: width field 3 is a LoadError. -/
theorem test_load_bad_width :
    load [1#8, 0#8, 3#8, 0#8, 0x1A#8] =
      .error { cls := .loadError, code := .badWidth, pc0 := 2, info := 3 } := rfl

/-! ## The hypotheses of the statements can be met

One theorem for each statement that has hypotheses: states and operands that meet them, for each clause at a boundary of
its range. -/

/-- Two Data values of width 2, at pc = 16. -/
def two : State := machine .w2 16 [] [1#8, 0#8, 2#8, 0#8]

/-- A stack of the given bytes, of width 2. -/
def holding (bs : List Byte) : State := machine .w2 16 [] bs

/-- Procedure 1 was never called. -/
def uncalled : State :=
  { two with procTable := [{ startPos := 4#64, framePtr := some 0#64 }, { startPos := 20#64, framePtr := none }] }

/-- Procedure 1 runs, with its frame at `f`, on a stack of `n` zero bytes. -/
def callee (f n : Nat) : State :=
  { holding (List.replicate n 0#8) with
    curProc := 1#64
    procTable := [{ startPos := 4#64, framePtr := some 0#64 },
      { startPos := 20#64, framePtr := some (BitVec.ofNat 64 f) }] }

theorem test_frames : two.frameAt 0 (some 0#64) ∧ two.frameAt 1 (some 32#64) ∧ uncalled.frameAt 1 none :=
  ⟨⟨by decide, by decide, _, rfl, rfl⟩, ⟨by decide, by decide, _, rfl, rfl⟩, ⟨by decide, by decide, _, rfl, rfl⟩⟩

theorem test_meets_DecodeEncodeAllInstructions :
    (Instr.putString [0x6F#8]).wf = true ∧ (Instr.jump (-32768)).wf = true ∧
    decode [0x0C#8, 0x17#8] = .ok (.opAdd, [0x17#8]) := ⟨by decide, rfl, rfl⟩

theorem test_meets_DecodedBytesReencode : decode [0x1B#8, 0x6F#8, 0#8] = .ok (.putString [0x6F#8], []) := rfl

theorem test_meets_StepRunsDecodedInstruction :
    (machine .w2 16 [0x0C#8] []).status = .running ∧
    decodeAt (machine .w2 16 [0x0C#8] []).pb 16 = .ok (.opAdd, []) := ⟨rfl, rfl⟩

theorem test_meets_EndedRunsStay :
    ({ two with status := .halted .normal } : State).status ≠ .running ∧
    ({ two with status := faultAt two .divZero 0 } : State).status ≠ .running := by decide

theorem test_meets_UnknownOpcodeStep :
    (machine .w2 16 [0x22#8] []).status = .running ∧ (machine .w2 16 [0x22#8] []).pb.drop 16 = [0x22#8] ∧
    0x22 ≤ (0x22#8 : Byte).toNat ∧ 0x22 ≤ (0xFF#8 : Byte).toNat := by decide

theorem test_meets_FetchPastEndStep : two.status = .running ∧ two.pb.length ≤ two.pc.toNat := by decide

theorem test_meets_truncation :
    (machine .w2 16 [0x00#8, 5#8] []).pb.drop 16 = [0x00#8, 5#8] ∧
    (machine .w2 16 [0x02#8, 5#8, 0#8, 1#8] []).pb.drop 16 = [0x02#8, 5#8, 0#8, 1#8] ∧
    (machine .w2 16 [0x16#8] []).pb.drop 16 = [0x16#8] := by decide

/-- A state whose fp is 2^64 - 1, as ReturnProc restores it from an overwritten link record. -/
def wide (p : WideAddress) (s : State) : State :=
  { s with fp := 0xFFFFFFFFFFFFFFFF#64, config := { s.config with wideAddress := p } }

/-- R207, R10: an address at 2^64 raises R_ADDRESS_OVERFLOW; one below it is left to R75. -/
theorem test_wide_address_overflow :
    ((wide .addressOverflow two).pushValue 3 .current 1#16) = raise .addressOverflow (2 ^ 64) ∧
    ((wide .addressOverflow two).pushValue 3 .current 0#16) = raise .stackBounds (2 ^ 64 - 1) := ⟨rfl, rfl⟩

/-- R75: the length check alone. -/
theorem test_wide_length_checks :
    ((wide .lengthChecks two).pushValue 3 .current 1#16) = raise .stackBounds (2 ^ 64) := rfl

/-- The clauses on an address at or above 2^64, for PushValue*, InputToAddr and EntryProc. -/
theorem test_meets_wide_clauses :
    (wide .addressOverflow two).ready 7 ∧ (wide .lengthChecks two).ready 7 ∧
    (wide .addressOverflow two).tooWide (((wide .addressOverflow two).fp.toNat : Int) + (1#16 : S16).toInt) ∧
    ¬ (wide .addressOverflow two).tooWide (((wide .addressOverflow two).fp.toNat : Int) + (0#16 : S16).toInt) ∧
    ¬ (wide .lengthChecks two).tooWide (((wide .lengthChecks two).fp.toNat : Int) + (1#16 : S16).toInt) ∧
    (wide .addressOverflow two).tooWide (((wide .addressOverflow two).fp.toNat : Int) + (wide .addressOverflow two).top) :=
  ⟨by decide, by decide, ⟨rfl, by decide⟩, fun h => absurd h.2 (by decide), fun h => absurd h.1 (by decide), ⟨rfl, by decide⟩⟩

theorem test_meets_PushValueLocalVarCases :
    two.ready 3 ∧ (limited 5 two).ready 3 ∧ (limited 6 two).ready 3 ∧
    (two.fp.toNat : Int) + (-1#16 : S16).toInt < 0 ∧
    (two.stack.len : Int) < (two.fp.toNat : Int) + (3#16 : S16).toInt + two.width.bytes ∧
    (two.fp.toNat : Int) + (2#16 : S16).toInt + two.width.bytes ≤ two.stack.len ∧
    (limited 5 two).maxStack < two.stack.len + two.width.bytes ∧
    two.stack.len + two.width.bytes ≤ (limited 6 two).maxStack := by decide

theorem test_meets_PushValueMainVarCases :
    (limited 6 two).ready 3 ∧ (limited 6 two).frameAt 0 (some 0#64) ∧
    ((0#64 : U64).toNat : Int) + (2#16 : S16).toInt + two.width.bytes ≤ two.stack.len :=
  ⟨by decide, ⟨by decide, by decide, _, rfl, rfl⟩, by decide⟩

theorem test_meets_PushValueGlobalVarCases :
    two.ready 5 ∧ (-1#16 : S16).toInt < 0 ∧ (two.procCount : Int) ≤ (2#16 : S16).toInt ∧
    uncalled.ready 5 ∧ uncalled.frameAt (1#16 : S16).toInt none ∧
    (holding (List.replicate 34 0#8)).ready 5 ∧ (holding (List.replicate 34 0#8)).frameAt (1#16 : S16).toInt (some 32#64) ∧
    ((32#64 : U64).toNat : Int) + (0#16 : S16).toInt + 2 ≤ (holding (List.replicate 34 0#8)).stack.len :=
  ⟨by decide, by decide, by decide, by decide, ⟨by decide, by decide, _, rfl, rfl⟩, by decide,
    ⟨by decide, by decide, _, rfl, rfl⟩, by decide⟩

theorem test_meets_PushAddressLocalVarCases :
    ({ two with fp := 32768#64 } : State).ready 3 ∧ ({ limited 5 two with fp := 32767#64 } : State).ready 3 ∧
    ({ limited 6 two with fp := 32767#64 } : State).ready 3 ∧
    (two.fp.toNat : Int) + (-1#16 : S16).toInt < 0 ∧
    (2 : Int) ^ (two.width.bits - 1) ≤ ((32768#64 : U64).toNat : Int) + (0#16 : S16).toInt ∧
    ((32767#64 : U64).toNat : Int) + (0#16 : S16).toInt < (2 : Int) ^ (two.width.bits - 1) ∧
    (limited 5 two).maxStack < two.stack.len + two.width.bytes ∧
    two.stack.len + two.width.bytes ≤ (limited 6 two).maxStack := by decide

theorem test_meets_PushAddressMainVarCases :
    two.ready 3 ∧ two.frameAt 0 (some 0#64) ∧ ((0#64 : U64).toNat : Int) + (-1#16 : S16).toInt < 0 ∧
    ((0#64 : U64).toNat : Int) + (32767#16 : S16).toInt < (2 : Int) ^ (two.width.bits - 1) :=
  ⟨by decide, ⟨by decide, by decide, _, rfl, rfl⟩, by decide, by decide⟩

theorem test_meets_PushAddressGlobalVarCases :
    two.ready 5 ∧ (-1#16 : S16).toInt < 0 ∧ (two.procCount : Int) ≤ (2#16 : S16).toInt ∧
    uncalled.ready 5 ∧ uncalled.frameAt (1#16 : S16).toInt none ∧ two.frameAt (1#16 : S16).toInt (some 32#64) ∧
    0 ≤ ((32#64 : U64).toNat : Int) + (-32#16 : S16).toInt ∧
    ((32#64 : U64).toNat : Int) + (-32#16 : S16).toInt < (2 : Int) ^ (two.width.bits - 1) :=
  ⟨by decide, by decide, by decide, by decide, ⟨by decide, by decide, _, rfl, rfl⟩,
    ⟨by decide, by decide, _, rfl, rfl⟩, by decide, by decide⟩

theorem test_meets_PushConstantCases :
    (-1#16 : S16).toInt < 0 ∧ (({ two with cp := [7], constCount := 1 } : State).constCount : Int) ≤ (1#16 : S16).toInt ∧
    ({ two with cp := [7], constCount := 1 } : State).ready 3 ∧
    0 ≤ (0#16 : S16).toInt ∧ (0#16 : S16).toInt < ({ two with cp := [7], constCount := 1 } : State).constCount ∧
    ({ two with cp := [7], constCount := 1 } : State).cp[(0#16 : S16).toInt.toNat]? = some 7 ∧
    inRange .w2 7 = true ∧ (limited 5 two).maxStack < two.stack.len + two.width.bytes ∧
    two.stack.len + two.width.bytes ≤ (limited 6 two).maxStack := by decide

theorem test_meets_StoreValueCases :
    (holding [1#8]).ready 1 ∧ (holding [1#8]).stack.len < 2 ∧ (holding [1#8, 0#8, 2#8]).ready 1 ∧
    (holding [1#8, 0#8, 2#8]).stack.len < 2 * 2 ∧
    (holding [0xFF#8, 0xFF#8, 7#8, 0#8]).ready 1 ∧ (holding [0xFF#8, 0xFF#8, 7#8, 0#8]).second = -1 ∧
    (limited 4 (holding [3#8, 0#8, 7#8, 0#8])).ready 1 ∧
    ((limited 4 (holding [3#8, 0#8, 7#8, 0#8])).maxStack : Int) < (holding [3#8, 0#8, 7#8, 0#8]).second + 2 ∧
    (holding [3#8, 0#8, 7#8, 0#8]).second + 2 ≤ (limited 5 (holding [3#8, 0#8, 7#8, 0#8])).maxStack := by decide

theorem test_meets_PopCases :
    (holding [1#8]).ready 1 ∧ (holding [1#8]).stack.len < 2 ∧ (holding [1#8, 0#8]).ready 1 ∧
    2 ≤ (holding [1#8, 0#8]).stack.len := by decide

theorem test_meets_SwapCases :
    (holding [0xFF#8, 0xFF#8]).ready 1 ∧ (holding [0xFF#8, 0xFF#8]).top = -1 ∧
    (holding [7#8, 0#8, 1#8, 0#8]).ready 1 ∧
    ((holding [7#8, 0#8, 1#8, 0#8]).stack.len : Int) - 2 < (holding [7#8, 0#8, 1#8, 0#8]).top + 2 ∧
    (holding [7#8, 0#8, 0#8, 0#8]).ready 1 ∧
    (holding [7#8, 0#8, 0#8, 0#8]).top + 2 ≤ ((holding [7#8, 0#8, 0#8, 0#8]).stack.len : Int) - 2 := by decide

theorem test_meets_PushAddressThenSwapIsPushValue :
    (limited 6 two).ready 4 ∧ (limited 6 two).stack.len + 2 ≤ (limited 6 two).maxStack ∧
    (two.fp.toNat : Int) + (-1#16 : S16).toInt < 0 ∧
    (2 : Int) ^ (two.width.bits - 1) ≤ ((1#64 : U64).toNat : Int) + (32767#16 : S16).toInt ∧
    (two.fp.toNat : Int) + (2#16 : S16).toInt + 2 ≤ two.stack.len ∧
    (two.stack.len : Int) < (two.fp.toNat : Int) + (3#16 : S16).toInt + 2 := by decide

theorem test_meets_OutputValueCases :
    (holding [1#8]).ready 1 ∧ (holding [1#8]).stack.len < 2 ∧ (holding [1#8, 0#8]).ready 1 ∧
    2 ≤ (holding [1#8, 0#8]).stack.len := by decide

theorem test_meets_InputToAddrCases :
    (holding [1#8]).ready 1 ∧ (holding [1#8]).stack.len < 2 ∧
    ({ holding [0xFF#8, 0xFF#8] with input := [-32768] } : State).ready 1 ∧ inRange .w2 (-32768) = true ∧
    (holding [0xFF#8, 0xFF#8]).top = -1 ∧
    ({ limited 4 (holding [3#8, 0#8]) with input := [32767] } : State).ready 1 ∧ inRange .w2 32767 = true ∧
    ((limited 4 (holding [3#8, 0#8])).maxStack : Int) < (holding [3#8, 0#8]).top + 2 ∧
    (holding [3#8, 0#8]).top + 2 ≤ (limited 5 (holding [3#8, 0#8])).maxStack := by decide

theorem test_meets_InputWaitChangesNothing : two.ready 1 ∧ 2 ≤ two.stack.len ∧ two.input = [] := by decide

theorem test_meets_PutStringCases :
    0#8 ∉ ([] : List Byte) ∧ wellFormedUTF8 [] = true ∧ (0xFFFFFFFFFFFFFFFD : Nat) + 2 < 2 ^ 64 ∧
    (machine .w2 16 [0x1B#8, 0x6F#8] []).pb.drop 16 = 0x1B#8 :: [0x6F#8] ∧ 0#8 ∉ [(0x6F#8 : Byte)] ∧
    (machine .w2 16 [0x1B#8, 0xC0#8, 0#8] []).pb.drop 16 = 0x1B#8 :: [0xC0#8] ++ 0#8 :: [] ∧
    wellFormedUTF8 [0xC0#8] = false := by decide

theorem test_meets_WraparoundLaw :
    inRange .w2 (-25536) = true ∧ ((2 : Int) ^ Width.w2.bits) ∣ (-25536 - 40000) := by decide

theorem test_meets_MinusifyCases_IsOddCases :
    (holding [1#8]).ready 1 ∧ (holding [1#8]).stack.len < 2 ∧ (holding [1#8, 0#8]).ready 1 ∧
    2 ≤ (holding [1#8, 0#8]).stack.len := by decide

theorem test_meets_ArithmeticCases_ComparisonCases :
    (holding [1#8]).ready 1 ∧ (holding [1#8]).stack.len < 2 ∧ (holding [1#8, 0#8, 2#8]).ready 1 ∧
    2 ≤ (holding [1#8, 0#8, 2#8]).stack.len ∧ (holding [1#8, 0#8, 2#8]).stack.len < 2 * 2 ∧
    two.ready 1 ∧ 2 * 2 ≤ two.stack.len := by decide

theorem test_meets_DivideCases :
    (holding [1#8, 0#8, 0#8, 0#8]).ready 1 ∧ (holding [1#8, 0#8, 0#8, 0#8]).top = 0 ∧
    (holding [1#8, 0#8, 1#8, 0#8]).ready 1 ∧ (holding [1#8, 0#8, 1#8, 0#8]).top ≠ 0 := by decide

theorem test_meets_CallProcCases :
    two.ready 3 ∧ (-1#16 : S16).toInt < 0 ∧ (two.procCount : Int) ≤ (2#16 : S16).toInt ∧
    (1#16 : S16).toInt < two.procCount ∧
    two.procTable[(1#16 : S16).toInt.toNat]? = some { startPos := 20#64, framePtr := some 32#64 } ∧
    (limited 11 two).ready 3 ∧ (limited 11 two).maxStack < two.stack.len + 8 ∧
    (limited 12 two).ready 3 ∧ two.stack.len + 8 ≤ (limited 12 two).maxStack ∧
    (limited 12 two).maxStack < two.stack.len + 16 ∧
    (limited 20 two).ready 3 ∧ two.stack.len + 16 ≤ (limited 20 two).maxStack ∧
    (limited 20 two).maxStack < two.stack.len + 24 ∧
    (limited 28 two).ready 3 ∧ two.stack.len + 24 ≤ (limited 28 two).maxStack := by decide

theorem test_meets_ReturnProcCases :
    two.ready 1 ∧ two.curProc = 0#64 ∧
    ({ two with curProc := 2#64 } : State).ready 1 ∧ two.procCount ≤ (2#64 : U64).toNat ∧
    ({ uncalled with curProc := 1#64 } : State).frameAt (1#64 : U64).toNat none ∧
    (callee 32 31).ready 1 ∧ (callee 32 31).stack.len < 32 ∧ (callee 23 23).ready 1 ∧
    (callee 23 23).frameAt (1#64 : U64).toNat (some 23#64) ∧
    (callee 24 24).ready 1 ∧ (callee 24 24).frameAt (1#64 : U64).toNat (some 24#64) :=
  ⟨by decide, by decide, by decide, by decide, ⟨by decide, by decide, _, rfl, rfl⟩, by decide, by decide, by decide,
    ⟨by decide, by decide, _, rfl, rfl⟩, by decide, ⟨by decide, by decide, _, rfl, rfl⟩⟩

theorem test_meets_CallReturnNeutrality :
    (limited 28 two).ready 3 ∧ 0 < (1#16 : S16).toInt ∧ (1#16 : S16).toInt < (limited 28 two).procCount ∧
    (limited 28 two).stack.len + 24 ≤ (limited 28 two).maxStack ∧ ∃ t, exec (.callProc 1#16) (limited 28 two) = .next t ∧
    t.ready 1 ∧ t.curProc = 1#64 ∧ t.frameAt (1#16 : S16).toInt (some t.fp) :=
  ⟨by decide, by decide, by decide, by decide, _, rfl, by decide, by decide, by decide, by decide, _, rfl, by decide⟩

theorem test_meets_JumpCases :
    two.pc.toNat + 3 < 2 ^ 64 ∧ (two.pc.toNat : Int) + 3 + (-20#16 : S16).toInt = -1 ∧
    (two.pc.toNat : Int) + 3 + (-19#16 : S16).toInt = 0 ∧
    (0xFFFFFFFFFFFFFFFC#64 : U64).toNat + 3 < 2 ^ 64 ∧
    ((0xFFFFFFFFFFFFFFFC#64 : U64).toNat : Int) + 3 + (1#16 : S16).toInt = 2 ^ 64 ∧
    ((0xFFFFFFFFFFFFFFFC#64 : U64).toNat : Int) + 3 + (0#16 : S16).toInt < 2 ^ 64 := by decide

theorem test_meets_JumpIfFalseCases :
    (machine .w2 16 [0x19#8, 6#8] [0#8]).pb.drop 16 = [0x19#8, 6#8] ∧
    (machine .w2 16 [0x19#8, 6#8] [0#8]).stack.len < 2 ∧ 2 ≤ (machine .w2 16 [0x19#8, 6#8] [0#8, 0#8]).stack.len ∧
    (holding [0#8]).ready 3 ∧ (holding [0#8, 0#8]).ready 3 ∧ (holding [0#8, 0#8]).top = 0 ∧
    (holding [0xFF#8, 0xFF#8]).ready 3 ∧ (holding [0xFF#8, 0xFF#8]).top ≠ 0 := by decide

theorem test_meets_AnalyzerTargetIsEngineTarget :
    (holding [0#8, 0#8]).ready 3 ∧ (holding [0#8, 0#8]).status = .running ∧ (holding [0#8, 0#8]).top = 0 ∧
    (∃ t, exec (.jump (-19#16)) (holding [0#8, 0#8]) = .next t ∧ t.status = .running) ∧
    (∃ t, exec (.jumpIfFalse 0#16) (holding [0#8, 0#8]) = .next t ∧ t.status = .running) :=
  ⟨by decide, rfl, by decide, ⟨_, rfl, by decide⟩, ⟨_, rfl, by decide⟩⟩

theorem test_meets_EntryProcCases :
    (machine .w2 16 [0x1A#8, 0#8, 0#8, 0#8] []).pb.drop 16 = 0x1A#8 :: [0#8, 0#8, 0#8] ∧
    (machine .w2 16 [0x1A#8, 0#8, 0#8, 0#8, 0#8, 8#8] []).pb.drop 16 =
      0x1A#8 :: s16Bytes 0#16 ++ s16Bytes 0#16 ++ [8#8] ∧
    two.ready 7 ∧ (1#16 : S16).toInt ≠ two.curProc.toNat ∧ (-1#16 : S16).toInt ≠ two.curProc.toNat ∧
    (0#16 : S16).toInt = two.curProc.toNat ∧ (-1#16 : S16).toInt < 0 ∧ (limited 5 two).ready 7 ∧
    ((limited 5 two).maxStack : Int) < two.fp.toNat + (6#16 : S16).toInt ∧ (limited 6 two).ready 7 ∧
    two.fp.toNat + (6#16 : S16).toInt ≤ (limited 6 two).maxStack := by decide

theorem test_meets_EndOfCodeHalts : (0xFFFFFFFFFFFFFFFE#64 : U64).toNat + 1 < 2 ^ 64 := by decide

theorem test_meets_ReservedInstructionsFault :
    (machine .w2 11 [0x1F#8] []).status = .running ∧ (machine .w2 11 [0x1F#8] []).pb.drop 11 = [0x1F#8] ∧
    (machine .w2 11 [0x20#8] []).pb.drop 11 = [0x20#8] ∧ (machine .w2 11 [0x21#8] []).pb.drop 11 = [0x21#8] := by decide

theorem test_meets_MemWriteCases :
    two.stack.wf = true ∧ 0xFFFF < 256 ^ 2 ∧ (-1 : Int) < 0 ∧ ((4 : Nat) : Int) < 3 + (2 : Nat) ∧
    (3 : Int) + (2 : Nat) ≤ (5 : Nat) := by decide

/-- A running state with the invariant. -/
theorem test_inv : (machine .w2 16 [0x0C#8] [1#8, 0#8, 2#8, 0#8]).Inv :=
  ⟨by decide, fun _ => by decide, fun _ => ⟨_, _, rfl, rfl⟩, by decide, by decide, by decide, by decide⟩

theorem test_meets_EveryStepKeepsInvariant :
    (machine .w2 16 [0x0C#8] [1#8, 0#8, 2#8, 0#8]).Inv ∧
    ∃ t, step (machine .w2 16 [0x0C#8] [1#8, 0#8, 2#8, 0#8]) = .next t ∧ t.top = 3 := ⟨test_inv, _, rfl, by decide⟩

theorem test_meets_ExecuteHasInvariant :
    ∃ vm, load scenarioA = .ok vm ∧ [(-2147483648 : Int), 2147483647].all (inRange vm.width) = true :=
  ⟨_, rfl, by decide⟩

theorem test_meets_StepKeepsProgramAndTables :
    ∃ t, step (machine .w2 16 [0x16#8, 1#8, 0#8] []) = .next t ∧ t.status = .running := ⟨_, rfl, by decide⟩

theorem test_meets_OnlyLinkageWritesFrames :
    ∃ t, exec .pop two = .next t ∧ t.status = .running ∧ (∀ p, Instr.pop ≠ .callProc p) ∧ Instr.pop ≠ .returnProc :=
  ⟨_, rfl, by decide, fun _ => by simp, by simp⟩

theorem test_meets_OutputOnlyGrows :
    ∃ t, exec .outputValue two = .next t ∧ t.output = two.output ++ [.outValue 2] := ⟨_, rfl, by decide⟩

theorem test_meets_FaultRecordsArePrecise :
    (machine .w2 11 [0xFF#8] []).status = .running ∧ ∃ t, step (machine .w2 11 [0xFF#8] []) = .next t ∧
    t.status = faultAt (machine .w2 11 [] []) .unknownOpcode 0xFF := ⟨rfl, _, rfl, by decide⟩

theorem test_meets_FaultsOfEachInstruction :
    (holding [1#8]).ready (Instr.pop).length ∧ (holding [1#8]).frameAt 0 (some 0#64) ∧
    (holding [1#8]).status = .running ∧ ∃ t, exec .pop (holding [1#8]) = .next t ∧
    t.status = faultAt two .stackBounds 1 :=
  ⟨by decide, ⟨by decide, by decide, _, rfl, rfl⟩, rfl, _, rfl, by decide⟩

theorem test_meets_HaltsOnlyByReturnOrEndOfCode :
    (∃ t, step (machine .w2 16 [0x17#8] []) = .next t ∧ t.status = .halted .normal) ∧
    ∃ t, step (machine .w2 16 [0x1E#8] []) = .next t ∧ t.status = .halted .endOfCode :=
  ⟨⟨_, rfl, by decide⟩, _, rfl, by decide⟩

theorem test_meets_OnlyInputToAddrTakesInput :
    ∃ t, exec .inputToAddr { two with input := [5, 6] } = .next t ∧ t.input = [6] := ⟨_, rfl, by decide⟩

theorem test_meets_BoundedRunsReportTheirEnd :
    (∃ t, runFuel 1 (machine .w2 16 [0x1E#8] []) = .ended t) ∧
    ∃ t, runFuel 0 (machine .w2 16 [0x1E#8] []) = .notFinished t := ⟨⟨_, rfl⟩, _, rfl⟩

theorem test_meets_LoadCases :
    [1#8, 0#8, 2#8, (0#8 : Byte)].length ≤ 4 ∧ (2#8 : Byte).toNat + 256 * (1#8 : Byte).toNat ≠ 2 ∧
    (2#8 : Byte).toNat + 256 * (1#8 : Byte).toNat ≠ 4 ∧ (2#8 : Byte).toNat + 256 * (1#8 : Byte).toNat ≠ 8 ∧
    (8#8 : Byte).toNat + 256 * (0#8 : Byte).toNat = Width.w8.bytes := by decide

/-- The machine `load` makes of Scenario A. -/
def scenarioVM : VM := { pb := scenarioA, width := .w4, procCount := 1 }

theorem test_meets_LoaderScanFindsEveryProcedure :
    scenarioVM.pb.length < 2 ^ 64 ∧ 4 ≤ scenarioVM.pb.length ∧
    ∃ t, loaderScan .afterHeader scenarioVM = .ok t ∧ t.startPos[0]? = some 4#64 :=
  ⟨by decide, by decide, _, rfl, by decide⟩

theorem test_meets_ExecuteStartsAtReset :
    (∃ r, loaderScan .afterHeader { scenarioVM with procCount := 2 } = .error r) ∧
    (∃ t, loaderScan .afterHeader { scenarioVM with procCount := 0 } = .ok t) ∧
    ∃ t, loaderScan .afterHeader scenarioVM = .ok t ∧ 0 < scenarioVM.procCount := ⟨⟨_, rfl⟩, ⟨_, rfl⟩, _, rfl, by decide⟩

theorem test_meets_StaticDecodeAgreesWithEngine :
    staticDecode [0x18#8, 0#8, 0#8] 0 = .ok (.jump 0, 3) ∧ (Instr.jump 0).wf = true ∧
    [0x18#8, 0#8, 0#8].drop 0 = encode (.jump 0) ++ [] ∧ ([] : List Byte).length ≤ 0 ∧
    [0x18#8].drop 0 = (encode (.jump 0)).take 1 ∧ [0x18#8, 0#8].drop 0 = (encode (.jump 0)).take 2 ∧
    2 < (encode (.jump 0)).length ∧ 0x22 ≤ (0x22#8 : Byte).toNat ∧ 0x00#8 ∉ ([] : List Byte) ∧
    0x00#8 ∉ [0xFF#8] ∧ wellFormedUTF8 [0xFF#8] = false := by decide

theorem test_meets_AnalyzerLinesAreDecodedInstructions :
    (∃ t, loaderScan .afterHeader scenarioVM = .ok t) ∧
    (analyze .afterHeader scenarioVM).lines.map (fun l => (l.offset, l.main)) =
      [(4, true), (11, false), (14, false), (15, false)] ∧
    (analyze .afterHeader scenarioVM).fault = none ∧
    (analyze .afterHeader scenarioVM).consts.map (fun l => (l.index, l.value)) = [(0, 42)] :=
  ⟨⟨_, rfl⟩, by decide, by decide, by decide⟩

/-- A machine as `load` makes it, with the bytes after the header given. -/
def scanVM (procCount : Nat) (code : List Byte) : VM :=
  { pb := [0#8, 0#8, 2#8, 0#8] ++ code, width := .w2, procCount := procCount }

/-- V-DEC-18: the jump's target, 14 - 32768, is reported at its offset, after the EntryProc line. -/
theorem test_analyze_bad_target :
    (analyze .afterHeader (scanVM 1 [0x1A#8, 3#8, 0#8, 0#8, 0#8, 0#8, 0#8, 0x18#8, 0#8, 0x80#8])).fault =
      some { raised := { code := .badTarget, info := -32754 }, pos := 11 } := by decide

theorem test_meets_AnalyzerReportsOnlyItsFaults :
    (∃ r, loaderScan .afterHeader { scenarioVM with procCount := 2 } = .error r) ∧
    (analyze .afterHeader { scenarioVM with procCount := 2 }).fault =
      some { raised := { code := .badLayout, info := 16 }, pos := 16 } := ⟨⟨_, rfl⟩, by decide⟩

/-- Each clause at offset 4, with nothing found yet: every procedure found; no byte; a byte other than EntryProc's; a
header cut short; ids -1 and procCount; a body of -1 bytes (6 - 7 counted from the opcode); a body one byte too long. -/
theorem test_meets_LoaderScanFaults :
    ScanReaches .afterHeader (scanVM 1 []) [] 4 ∧ ([] : List (Nat × Nat)).length = (scanVM 0 []).procCount ∧
    (scanVM 1 []).pb.length ≤ 4 ∧ (scanVM 1 [0x17#8]).pb.drop 4 = [0x17#8] ∧
    (scanVM 1 [0x1A#8, 0#8]).pb.drop 4 = [0x1A#8, 0#8] ∧
    (scanVM 1 [0x1A#8, 0#8, 0#8, 1#8, 0#8, 0#8, 0#8]).pb.drop 4 = encode (.entryProc 0 1 0) ++ [] ∧
    (-1#16 : S16).toInt < 0 ∧ ((scanVM 1 []).procCount : Int) ≤ (1#16 : S16).toInt ∧
    declaresBody .afterHeader (-1#16) (-1) ∧ declaresBody .fromOpcode 6#16 (-1) ∧
    declaresBody .afterHeader 1#16 1 ∧ ((([] : List Byte).length : Int) < 1) :=
  ⟨.start, rfl, by decide, rfl, rfl, rfl, by decide, by decide, rfl, rfl, rfl, by decide⟩

/-- The clause on an id found before: the scan stands at 11, after the header of procedure 0. -/
theorem test_meets_LoaderScanFaults_duplicate :
    ScanReaches .afterHeader (scanVM 2 (encode (.entryProc 0 0 0) ++ encode (.entryProc 0 0 0))) [(4, 0)] 11 ∧
    loaderScan .afterHeader (scanVM 2 (encode (.entryProc 0 0 0) ++ encode (.entryProc 0 0 0))) =
      .error { cls := .formatError, code := .duplicateProc, pc0 := 11, info := 0 } :=
  ⟨.header (n := 0) (len := 0) (i := 0) (reserved := 0) (rest := encode (.entryProc 0 0 0)) .start (by decide) rfl rfl
    (by decide) (by simp) rfl (by decide), rfl⟩

/-- V-LD-14: counted from the opcode, a bodyLen of 12 leaves 5 body bytes, so the pool begins at 16. -/
theorem test_scan_fromOpcode :
    loaderScan .fromOpcode { pb := [1#8, 0#8, 4#8, 0#8, 0x1A#8, 0x0C#8, 0#8, 0#8, 0#8, 0#8, 0#8, 6#8, 0#8, 0#8, 8#8,
      0x17#8, 0x2A#8, 0#8, 0#8, 0#8], width := .w4, procCount := 1 } =
      .ok { startPos := [4#64], cpStart := 16, cp := [42] } := rfl

end Sys2Proof.Tests
end

section
/-!
SUPPORT. The loader scan from where it stands after whole procedures (70_reset_and_hazards.md R241, R242): what each
header makes it do, the table it has built (`foundTable`, tied to the scan by `ScanReaches.scanFrom_eq`), and what a
scan that succeeds went over. The two statements about the loader scan are settled at the end.
-/
namespace Sys2Proof.Machine

/-! ## EntryProc's bytes -/

/-- Only one row of the dispatch table is EntryProc's. -/
theorem opcodeOf_eq_entryProc {op : Byte} : opcodeOf op = some .entryProc ↔ op = 0x1A#8 := by
  constructor
  · intro h
    obtain ⟨row, hrow, hop⟩ := Option.map_eq_some_iff.mp h
    have hbyte : row.byte = op := by simpa using List.find?_some hrow
    have unique : ∀ r ∈ opcodeMap, r.opcode = .entryProc → r.byte = 0x1A#8 := by decide
    exact hbyte ▸ unique row (List.mem_of_find?_eq_some hrow) hop
  · rintro rfl; decide

/-- EntryProc's encoding, by the operands' two bytes each (R94, R101). -/
theorem encode_entryProc_s16 (l0 l1 i0 i1 r0 r1 : Byte) :
    encode (.entryProc (s16 l0 l1) (s16 i0 i1) (s16 r0 r1)) = [0x1A#8, l0, l1, i0, i1, r0, r1] := by
  show 0x1A#8 :: (s16Bytes _ ++ s16Bytes _ ++ s16Bytes _) = _
  simp only [s16Bytes_s16, List.cons_append, List.nil_append]

theorem decode_encode_entryProc (len i reserved : S16) (rest : List Byte) :
    decode (encode (.entryProc len i reserved) ++ rest) = .ok (.entryProc len i reserved, rest) := by
  show decodeF3 .entryProc (s16Bytes len ++ s16Bytes i ++ s16Bytes reserved ++ rest) = _
  simp only [s16Bytes, List.cons_append, List.nil_append, decodeF3, s16_extract]

/-- A header at `pos` takes seven bytes, and the buffer goes on with what follows it. -/
theorem length_of_header_at {pb rest : List Byte} {pos : Nat} {len i reserved : S16}
    (h : pb.drop pos = encode (.entryProc len i reserved) ++ rest) : pb.length = pos + 7 + rest.length := by
  have hlen := congrArg List.length h
  have hseven : (encode (.entryProc len i reserved)).length = 7 := Laws.EncodedLength.entryProc len i reserved
  rw [List.length_drop, List.length_append, hseven] at hlen
  omega

theorem drop_after_header {pb rest : List Byte} {pos : Nat} {len i reserved : S16}
    (h : pb.drop pos = encode (.entryProc len i reserved) ++ rest) (n : Nat) :
    pb.drop (pos + 7 + n) = rest.drop n := by
  rw [← List.drop_drop, ← List.drop_drop, h]
  rfl

/-! ## The four ways a header is taken -/

section
variable {mode : EntryLenMode} {n pos id : Nat} {found : Found} {len i : Int}

theorem scanHeader_of_id_out (h : i < 0 ∨ (n : Int) ≤ i) :
    scanHeader mode n found pos len i = .error (Raise.record { code := .procOutOfRange, info := i } pos) :=
  if_pos h

theorem scanHeader_of_id_found {p : U64} (hid : id < n) (hf : found[id]? = some (some p)) :
    scanHeader mode n found pos len id = .error (Raise.record { code := .duplicateProc, info := id } pos) := by
  rw [scanHeader, if_neg (by omega), Int.toNat_natCast, hf]

theorem scanHeader_of_body_negative (hid : id < n) (hf : found[id]? = some none) (hb : bodyBytes mode len < 0) :
    scanHeader mode n found pos len id = .error (Raise.record { code := .badLayout, info := pos } pos) := by
  simp only [scanHeader, if_neg (show ¬((id : Int) < 0 ∨ (n : Int) ≤ id) by omega), Int.toNat_natCast, hf, if_pos hb]

theorem scanHeader_of_new_id {body : Nat} (hid : id < n) (hf : found[id]? = some none)
    (hb : bodyBytes mode len = body) :
    scanHeader mode n found pos len id = .ok (body, found.set id (some (BitVec.ofNat 64 pos))) := by
  simp only [scanHeader, if_neg (show ¬((id : Int) < 0 ∨ (n : Int) ≤ id) by omega), Int.toNat_natCast, hf, hb,
    if_neg (show ¬(body : Int) < 0 by omega)]

end

/-! ## The scan where it stands at no body byte -/

section
variable {mode : EntryLenMode} {n pos toFind : Nat} {found : Found}

theorem scanFrom_done (bs : List Byte) : scanFrom mode n bs pos 0 0 found = .ok (pos, found) := by
  cases bs <;> rfl

theorem scanFrom_not_entryProc {op : Byte} (rest : List Byte) (h : op ≠ 0x1A#8) :
    scanFrom mode n (op :: rest) pos 0 (toFind + 1) found =
      .error (Raise.record { code := .badLayout, info := pos } pos) := by
  have hop : ¬ opcodeOf op = some .entryProc := mt opcodeOf_eq_entryProc.mp h
  match rest with
  | _ :: _ :: _ :: _ :: _ :: _ :: _ | [] | [_] | [_, _] | [_, _, _] | [_, _, _, _] | [_, _, _, _, _] =>
    simp only [scanFrom, if_neg hop]

theorem scanFrom_header_truncated {rest : List Byte} (h : rest.length < 6) :
    scanFrom mode n (0x1A#8 :: rest) pos 0 (toFind + 1) found =
      .error (Raise.record { code := .truncated, info := (pos : Int) + 1 + rest.length } pos) := by
  match rest with
  | [] | [_] | [_, _] | [_, _, _] | [_, _, _, _] | [_, _, _, _, _] =>
    simp only [scanFrom, if_pos (opcodeOf_eq_entryProc.mpr rfl)]
  | _ :: _ :: _ :: _ :: _ :: _ :: _ => simp only [List.length_cons] at h; omega

/-- A scan with a procedure still to find succeeds only over a whole header that it accepts and the whole body. -/
theorem scanFrom_succ_ok {bs : List Byte} {r : Nat × Found}
    (h : scanFrom mode n bs pos 0 (toFind + 1) found = .ok r) :
    ∃ (len i reserved : S16) (rest : List Byte) (body : Nat) (found' : Found),
      bs = encode (.entryProc len i reserved) ++ rest ∧
      scanHeader mode n found pos len.toInt i.toInt = .ok (body, found') ∧ body ≤ rest.length ∧
      scanFrom mode n (rest.drop body) (pos + 7 + body) 0 toFind found' = .ok r := by
  match bs with
  | [] => cases h
  | op :: bs =>
    by_cases hop : op = 0x1A#8
    swap
    · rw [scanFrom_not_entryProc bs hop] at h; cases h
    subst hop
    match bs with
    | [] | [_] | [_, _] | [_, _, _] | [_, _, _, _] | [_, _, _, _, _] =>
      rw [scanFrom_header_truncated (by simp)] at h; cases h
    | l0 :: l1 :: i0 :: i1 :: r0 :: r1 :: rest =>
      have hbytes : 0x1A#8 :: l0 :: l1 :: i0 :: i1 :: r0 :: r1 :: rest =
          encode (.entryProc (s16 l0 l1) (s16 i0 i1) (s16 r0 r1)) ++ rest := by
        rw [encode_entryProc_s16]; rfl
      rw [hbytes, scanFrom_header] at h
      cases hhead : scanHeader mode n found pos (s16 l0 l1).toInt (s16 i0 i1).toInt with
      | error e => simp only [hhead] at h; cases h
      | ok next =>
        obtain ⟨body, found'⟩ := next
        simp only [hhead] at h
        have hbody : body ≤ rest.length := by
          by_contra hlt
          rw [scanFrom_body_truncated _ _ _ _ _ (Nat.lt_of_not_le hlt)] at h
          cases h
        rw [scanFrom_body _ _ _ _ _ hbody] at h
        exact ⟨_, _, _, rest, body, found', hbytes, hhead, hbody, h⟩

end

/-! ## The table of the procedures found -/

/-- The scan's table of `n` procedures, once it has found `found` (the last one first). -/
def foundTable (n : Nat) : List (Nat × Nat) → Found
  | [] => List.replicate n none
  | (p, id) :: found => (foundTable n found).set id (some (BitVec.ofNat 64 p))

@[simp] theorem length_foundTable (n : Nat) (found : List (Nat × Nat)) : (foundTable n found).length = n := by
  induction found with
  | nil => simp [foundTable]
  | cons _ found ih => simpa [foundTable] using ih

theorem foundTable_of_not_mem {n id : Nat} {found : List (Nat × Nat)} (hid : id < n) (h : ∀ p, (p, id) ∉ found) :
    (foundTable n found)[id]? = some none := by
  induction found with
  | nil => simp [foundTable, hid]
  | cons head found ih =>
    obtain ⟨p, k⟩ := head
    have hk : k ≠ id := fun e => h p (by simp [e])
    rw [foundTable, List.getElem?_set_ne hk]
    exact ih fun q hq => h q (List.mem_cons_of_mem _ hq)

theorem foundTable_of_mem {n id p : Nat} {found : List (Nat × Nat)} (hid : id < n) (h : (p, id) ∈ found) :
    ∃ q, (foundTable n found)[id]? = some (some q) := by
  induction found with
  | nil => cases h
  | cons head found ih =>
    obtain ⟨p', k⟩ := head
    by_cases hk : k = id
    · exact ⟨BitVec.ofNat 64 p', by simp [foundTable, hk, hid]⟩
    · rw [foundTable, List.getElem?_set_ne hk]
      exact ih (by simpa [Ne.symm hk] using h)

theorem mem_of_foundTable {n k : Nat} {found : List (Nat × Nat)} {q : U64}
    (h : (foundTable n found)[k]? = some (some q)) : ∃ p, (p, k) ∈ found ∧ q = BitVec.ofNat 64 p := by
  induction found with
  | nil =>
    have hmem := List.mem_of_getElem? h
    simp [foundTable] at hmem
  | cons head found ih =>
    obtain ⟨p, id⟩ := head
    by_cases hk : id = k
    · subst hk
      obtain ⟨hid, -⟩ := List.getElem?_eq_some_iff.mp h
      rw [foundTable, List.getElem?_set_self (by simpa using hid)] at h
      exact ⟨p, by simp, by simpa using h.symm⟩
    · rw [foundTable, List.getElem?_set_ne hk] at h
      obtain ⟨p', hp', hq⟩ := ih h
      exact ⟨p', List.mem_cons_of_mem _ hp', hq⟩

/-- A procedure not found before takes one empty entry of the table. -/
theorem count_none_foundTable_cons {n id : Nat} {found : List (Nat × Nat)} (p : Nat) (hid : id < n)
    (h : ∀ p, (p, id) ∉ found) :
    (foundTable n ((p, id) :: found)).count none + 1 = (foundTable n found).count none := by
  have hlen : id < (foundTable n found).length := by simpa using hid
  have hget : (foundTable n found)[id] = none :=
    Option.some.inj ((List.getElem?_eq_getElem hlen).symm.trans (foundTable_of_not_mem hid h))
  have hpos : 0 < (foundTable n found).count none := List.count_pos_iff.mpr (hget ▸ List.getElem_mem hlen)
  rw [foundTable, List.count_set hlen, hget]
  simp only [BEq.rfl, if_true, show ((some (BitVec.ofNat 64 p) : Option U64) == none) = false from rfl,
    Bool.false_eq_true, if_false]
  omega

/-- Where no entry is empty, the entries are the values they hold. -/
theorem map_some_filterMap_id {α : Type} {l : List (Option α)} (h : none ∉ l) : (l.filterMap id).map some = l := by
  induction l with
  | nil => rfl
  | cons a l ih =>
    obtain ⟨ha, hl⟩ := not_or.mp (mt List.mem_cons.mpr h)
    cases a with
    | none => exact absurd rfl ha
    | some a => exact congrArg (some a :: ·) (ih hl)

/-! ## Where the scan stands after whole procedures -/

section
variable {mode : EntryLenMode} {vm : VM} {found : List (Nat × Nat)} {pos : Nat}

theorem ScanReaches.four_le (h : ScanReaches mode vm found pos) : 4 ≤ pos := by
  induction h with
  | start => exact le_refl 4
  | header _ _ _ _ _ _ _ _ ih => omega

theorem ScanReaches.le_length (h : ScanReaches mode vm found pos) (hpb : 4 ≤ vm.pb.length) : pos ≤ vm.pb.length := by
  induction h with
  | start => exact hpb
  | header _ _ hdrop _ _ _ _ hbody _ =>
    have := length_of_header_at hdrop
    omega

/-- Each procedure found has its EntryProc at its offset, before where the scan stands. -/
theorem ScanReaches.header_of_mem (h : ScanReaches mode vm found pos) {p k : Nat} (hmem : (p, k) ∈ found) :
    4 ≤ p ∧ p + 7 ≤ pos ∧ ∃ (len i reserved : S16) (rest : List Byte),
      vm.pb.drop p = encode (.entryProc len i reserved) ++ rest ∧ i.toInt = k := by
  induction h with
  | start => cases hmem
  | header hreach _ hdrop hi _ _ _ _ ih =>
    rcases List.mem_cons.mp hmem with heq | hmem
    · cases heq
      exact ⟨hreach.four_le, by omega, _, _, _, _, hdrop, hi⟩
    · obtain ⟨h4, h7, hheader⟩ := ih hmem
      exact ⟨h4, by omega, hheader⟩

/-- The table's empty entries are the procedures still to find. -/
theorem ScanReaches.count_none (h : ScanReaches mode vm found pos) :
    (foundTable vm.procCount found).count none + found.length = vm.procCount := by
  induction h with
  | start => simp [foundTable]
  | @header _ pos _ _ _ _ _ _ _ _ _ _ hid hnew _ _ ih =>
    have := count_none_foundTable_cons pos hid hnew
    simp only [List.length_cons] at ih ⊢
    omega

/-- The loader scan goes on from every point it reaches. -/
theorem ScanReaches.scanFrom_eq (h : ScanReaches mode vm found pos) :
    scanFrom mode vm.procCount (vm.pb.drop 4) 4 0 vm.procCount (List.replicate vm.procCount none) =
      scanFrom mode vm.procCount (vm.pb.drop pos) pos 0 (vm.procCount - found.length)
        (foundTable vm.procCount found) := by
  induction h with
  | start => rfl
  | @header found pos id n len i reserved rest _ hlt hdrop hi hid hnew hdecl hbody ih =>
    have hhead := scanHeader_of_new_id (pos := pos) hid (foundTable_of_not_mem hid hnew) (declaresBody_iff.mp hdecl)
    rw [ih, hdrop, show vm.procCount - found.length = vm.procCount - (found.length + 1) + 1 by omega,
      scanFrom_header, hi, hhead, drop_after_header hdrop]
    exact scanFrom_body _ _ _ _ _ hbody

end

/-! ## What a scan that succeeds went over -/

/-- From a point the scan reaches, success is at a point it reaches with every procedure found. -/
theorem ScanReaches.of_scanFrom_ok {mode : EntryLenMode} {vm : VM} {cpStart : Nat} {table : Found} :
    ∀ (toFind : Nat) {found : List (Nat × Nat)} {pos : Nat}, ScanReaches mode vm found pos →
      found.length + toFind = vm.procCount →
      scanFrom mode vm.procCount (vm.pb.drop pos) pos 0 toFind (foundTable vm.procCount found) = .ok (cpStart, table) →
      ∃ found', ScanReaches mode vm found' cpStart ∧ found'.length = vm.procCount ∧
        table = foundTable vm.procCount found'
  | 0, found, pos, hreach, hlen, h => by
    rw [scanFrom_done] at h
    cases h
    exact ⟨found, hreach, hlen, rfl⟩
  | toFind + 1, found, pos, hreach, hlen, h => by
    obtain ⟨len, i, reserved, rest, body, found', hdrop, hhead, hbody, hnext⟩ := scanFrom_succ_ok h
    obtain ⟨h0, hlt, hnone, hdecl, rfl⟩ := scanHeader_ok hhead
    have hi : i.toInt = i.toInt.toNat := (Int.toNat_of_nonneg h0).symm
    have hid : i.toInt.toNat < vm.procCount := by omega
    have hnew : ∀ p, (p, i.toInt.toNat) ∉ found := fun p hp => by
      obtain ⟨q, hq⟩ := foundTable_of_mem hid hp
      rw [hnone] at hq
      cases hq
    have hreach' := hreach.header (by omega) hdrop hi hid hnew (declaresBody_iff.mpr hdecl.symm) hbody
    refine of_scanFrom_ok toFind hreach' (by simp only [List.length_cons]; omega) ?_
    rw [drop_after_header hdrop]
    exact hnext

theorem exists_scanReaches_of_loaderScan_ok {mode : EntryLenMode} {vm : VM} {t : Tables}
    (h : loaderScan mode vm = .ok t) :
    t.cp = constantPool vm.width vm.pb t.cpStart ∧
    ∃ found, ScanReaches mode vm found t.cpStart ∧ found.length = vm.procCount ∧
      t.startPos.map some = foundTable vm.procCount found := by
  unfold loaderScan at h
  split at h
  · cases h
  · rename_i cpStart table hscan
    cases h
    obtain ⟨found, hreach, hlen, rfl⟩ := ScanReaches.of_scanFrom_ok vm.procCount .start (Nat.zero_add _) hscan
    have hcount := hreach.count_none
    exact ⟨rfl, found, hreach, hlen, map_some_filterMap_id (List.count_eq_zero.mp (by omega))⟩

/-- A start_pos of a scan that succeeds is the offset of a header found, below 2^64 as the buffer is. -/
theorem mem_found_of_startPos {mode : EntryLenMode} {vm : VM} {found : List (Nat × Nat)} {pos k : Nat}
    {startPos : List U64} {p : U64} (hpb : vm.pb.length < 2 ^ 64) (hpos : pos ≤ vm.pb.length)
    (hreach : ScanReaches mode vm found pos) (htable : startPos.map some = foundTable vm.procCount found)
    (hp : startPos[k]? = some p) : (p.toNat, k) ∈ found := by
  have hentry : (foundTable vm.procCount found)[k]? = some (some p) := by
    rw [← htable, List.getElem?_map, hp]
    rfl
  obtain ⟨q, hmem, rfl⟩ := mem_of_foundTable hentry
  obtain ⟨-, hq, -⟩ := hreach.header_of_mem hmem
  rwa [BitVec.toNat_ofNat, Nat.mod_eq_of_lt (by omega)]

/-! ## What the scan answers from where it stands -/

section
variable {mode : EntryLenMode} {vm : VM} {found : List (Nat × Nat)} {pos : Nat}

theorem ScanReaches.loaderScan_succeeds (h : ScanReaches mode vm found pos) (hall : found.length = vm.procCount) :
    ∃ t, loaderScan mode vm = .ok t ∧ t.cpStart = pos := by
  unfold loaderScan
  rw [h.scanFrom_eq, hall, Nat.sub_self, scanFrom_done]
  exact ⟨_, rfl, rfl⟩

/-- With a procedure still to find, a fault of the scan where it stands is the loader scan's. -/
theorem ScanReaches.loaderScan_error (h : ScanReaches mode vm found pos) (hlt : found.length < vm.procCount)
    {r : FaultRecord} (hscan : ∀ toFind, scanFrom mode vm.procCount (vm.pb.drop pos) pos 0 (toFind + 1)
      (foundTable vm.procCount found) = .error r) :
    loaderScan mode vm = .error r := by
  unfold loaderScan
  rw [h.scanFrom_eq, show vm.procCount - found.length = vm.procCount - found.length - 1 + 1 by omega, hscan]

/-- What the scan answers at a whole header, from what the header makes it do. -/
theorem ScanReaches.loaderScan_header_error (h : ScanReaches mode vm found pos) (hlt : found.length < vm.procCount)
    {len i reserved : S16} {rest : List Byte} (hdrop : vm.pb.drop pos = encode (.entryProc len i reserved) ++ rest)
    {r : FaultRecord}
    (hhead : scanHeader mode vm.procCount (foundTable vm.procCount found) pos len.toInt i.toInt = .error r) :
    loaderScan mode vm = .error r :=
  h.loaderScan_error hlt fun toFind => by rw [hdrop, scanFrom_header, hhead]

/-- A body that runs past the end of the buffer faults at the end. -/
theorem ScanReaches.loaderScan_body_truncated (h : ScanReaches mode vm found pos) (hlt : found.length < vm.procCount)
    {len i reserved : S16} {rest : List Byte} (hdrop : vm.pb.drop pos = encode (.entryProc len i reserved) ++ rest)
    {body : Nat} {found' : Found} (hhead : scanHeader mode vm.procCount (foundTable vm.procCount found) pos
      len.toInt i.toInt = .ok (body, found')) (hbody : rest.length < body) :
    vm.scanRaises mode vm.pb.length .truncated vm.pb.length := by
  refine h.loaderScan_error hlt fun toFind => ?_
  rw [hdrop, scanFrom_header, hhead, length_of_header_at hdrop]
  exact scanFrom_body_truncated _ _ _ _ _ hbody

end

/-! ## The statements -/

/-- Settles O60: each clause is what the scan does at the bytes where it stands (`ScanReaches.loaderScan_error`), and
at a whole header what `scanHeader` answers. -/
theorem loaderScanFaults : Obligations.LoaderScanFaults := by
  intro mode vm found pos hreach
  refine ⟨hreach.loaderScan_succeeds, fun hlt => ⟨fun hend => ?_, fun op rest hdrop hop => ?_,
    fun rest hdrop hshort => ?_, fun len i reserved rest hdrop => ⟨fun hout => ?_, fun id hi hid => ⟨?_, ?_⟩⟩⟩⟩
  · refine hreach.loaderScan_error hlt fun _ => ?_
    rw [List.drop_eq_nil_of_le hend]
    rfl
  · refine hreach.loaderScan_error hlt fun _ => ?_
    rw [hdrop]
    exact scanFrom_not_entryProc rest hop
  · refine hreach.loaderScan_error hlt fun _ => ?_
    have hlen : vm.pb.length = pos + 1 + rest.length := by
      have := congrArg List.length hdrop
      simp only [List.length_drop, List.length_cons] at this
      omega
    rw [hdrop, scanFrom_header_truncated hshort, hlen]
    rfl
  · exact hreach.loaderScan_header_error hlt hdrop (scanHeader_of_id_out hout)
  · rintro ⟨p, hp⟩
    obtain ⟨q, hq⟩ := foundTable_of_mem hid hp
    exact hreach.loaderScan_header_error hlt hdrop (by rw [hi]; exact scanHeader_of_id_found hid hq)
  · intro hnew n hdecl
    have hnone := foundTable_of_not_mem hid hnew
    have hbytes := declaresBody_iff.mp hdecl
    refine ⟨fun hneg => ?_, fun hlong => ?_⟩
    · exact hreach.loaderScan_header_error hlt hdrop
        (hi ▸ scanHeader_of_body_negative hid hnone (hbytes ▸ hneg))
    · exact hreach.loaderScan_body_truncated hlt hdrop
        (hi ▸ scanHeader_of_new_id (body := n.toNat) hid hnone (by omega)) (by omega)

/-- Settles O55: a scan that succeeds went over whole procedures (`exists_scanReaches_of_loaderScan_ok`), and what it
found of each of them is the header it went over (`ScanReaches.header_of_mem`). -/
theorem loaderScanFindsEveryProcedure : Obligations.LoaderScanFindsEveryProcedure := by
  intro mode vm t hpb hfour h
  obtain ⟨hcp, found, hreach, hall, htable⟩ := exists_scanReaches_of_loaderScan_ok h
  have hle := hreach.le_length hfour
  have hmem : ∀ (k : Nat) (p : U64), t.startPos[k]? = some p → (p.toNat, k) ∈ found :=
    fun k p => mem_found_of_startPos hpb hle hreach htable
  have hlength : t.startPos.length = vm.procCount := by
    simpa using congrArg List.length htable
  have hpool : t.cp.length = (vm.pb.length - t.cpStart) / vm.width.bytes := by
    simp [hcp, constantPool, recordCount]
  refine ⟨hlength, hreach.four_le, hle, hpool, fun k hk => ?_, ⟨found, hreach, hall, hmem⟩, fun k p hp => ?_⟩
  · have hk' : k < recordCount vm.width vm.pb t.cpStart := lt_of_lt_of_eq hk hpool
    rw [hcp, constantPool, List.getElem?_map, List.getElem?_range hk']
    rfl
  · obtain ⟨h4, h7, len, i, reserved, rest, hdrop, hi⟩ := hreach.header_of_mem (hmem k p hp)
    exact ⟨h4, h7, len, i, reserved, rest, by rw [decodeAt, hdrop, decode_encode_entryProc], hi⟩

end Sys2Proof.Machine
end

section
/-!
SUPPORT. What an instruction can do to the machine, said once (`exec_endsIn`): it completes in one of the ways of
`Completes`, it raises, or InputToAddr waits. And what a step can do (`step_cases`). The noninterference statements and
the invariant below are read off from these.
-/
namespace Sys2Proof.Machine

/-! ## A sound stack -/

/-- `State.stackOk` of a stack by itself, so that it can be followed from one access primitive to the next. -/
def Memory.soundWithin (max : Nat) (m : Memory) : Prop := m.wf = true ∧ m.len ≤ max

/-- `m` is sound if the stack of `s` is: an instruction that leaves `m` keeps the stack sound. -/
def State.keepsSound (s : State) (m : Memory) : Prop := s.stack.soundWithin s.maxStack → m.soundWithin s.maxStack

theorem stackOk_of_keepsSound {s : State} {m : Memory} (hm : s.keepsSound m) (hs : s.stackOk) :
    State.stackOk { s with stack := m } :=
  hm hs

/-- MemWrite, and so push_W and push_64, keep a stack sound. -/
theorem Memory.soundWithin.write {max : Nat} {m m' : Memory} {addr : Int} {n v : Nat} (hm : m.soundWithin max)
    (h : m.write max addr n v = .ok m') : m'.soundWithin max :=
  ⟨wf_write hm.1 h, len_write_le hm.2 h⟩

theorem Memory.soundWithin.cut {max n : Nat} {m : Memory} (hm : m.soundWithin max) (hn : n ≤ max) :
    (m.cut n).soundWithin max :=
  ⟨wf_cut hm.1 n, hn⟩

theorem Memory.soundWithin.popW {max : Nat} {w : Width} {m m' : Memory} {v : Int} (hm : m.soundWithin max)
    (h : m.popW w = .ok (v, m')) : m'.soundWithin max := by
  obtain ⟨-, -, rfl⟩ := popW_ok h
  exact hm.cut ((Nat.sub_le ..).trans hm.2)

theorem Memory.soundWithin.pop64 {max : Nat} {m m' : Memory} {u : U64} (hm : m.soundWithin max)
    (h : m.pop64 = .ok (u, m')) : m'.soundWithin max := by
  obtain ⟨-, -, rfl⟩ := pop64_ok h
  exact hm.cut ((Nat.sub_le ..).trans hm.2)

theorem Memory.soundWithin.truncate {max n : Nat} {m m' : Memory} (hm : m.soundWithin max)
    (h : m.truncate n = .ok m') : m'.soundWithin max := by
  obtain ⟨hn, rfl⟩ := truncate_ok h
  exact hm.cut (hn.trans hm.2)

theorem Memory.soundWithin.resize {max : Nat} {n : Int} {m m' : Memory} (hm : m.soundWithin max)
    (h : m.resize max n = .ok m') : m'.soundWithin max := by
  obtain ⟨-, hn, rfl⟩ := resize_ok h
  exact hm.cut hn

theorem Memory.soundWithin.pushLink {max : Nat} {m m' : Memory} {pc fp cur : U64} (hm : m.soundWithin max)
    (h : pushLink max m pc fp cur = .ok m') : m'.soundWithin max := by
  obtain ⟨hwf, hlen, hmax, -⟩ := pushLink_spec hm.1 h
  exact ⟨hwf, hlen ▸ hmax⟩

/-! ## How an instruction ends -/

/-- The first step of pseudocode that answers has answered, and the rest answers from its result (R213). -/
theorem exists_of_bind_eq_ok {α β : Type} {x : Checked α} {f : α → Checked β} {b : β} (h : x >>= f = .ok b) :
    ∃ a, x = .ok a ∧ f a = .ok b := by
  cases x with
  | error e => cases h
  | ok a => exact ⟨a, rfl, h⟩

/-- The state `u`, before its trace record, that an instruction completing from `s` may leave. Every field that a
constructor does not name is as it was in `s`. -/
inductive Completes (s : State) : Instr → State → Prop where
  /-- only S and pc change -/
  | moves {i : Instr} {m : Memory} {pc : U64} (hm : s.keepsSound m) :
      Completes s i { s with stack := m, pc := pc }
  /-- OutputValue emits what it popped (R147) -/
  | emitsValue {m : Memory} {pc : U64} {v : Int} (hm : s.keepsSound m)
      (hv : inRange s.width v = true) : Completes s .outputValue { s.emit (.outValue v) with stack := m, pc := pc }
  /-- PutString emits its string (R150) -/
  | emitsString {text : List Byte} {pc : U64} (ht : wellFormedUTF8 text = true) :
      Completes s (.putString text) { s.emit (.outString text) with pc := pc }
  /-- InputToAddr takes the first answer and stores it (R149) -/
  | storesAnswer {v : Int} {rest : List Int} {m : Memory} {pc : U64} (hin : s.input = v :: rest)
      (hm : s.keepsSound m) :
      Completes s .inputToAddr { s with input := rest, stack := m, pc := pc }
  /-- CallProc writes one frame_ptr, fp and curProc (R180) -/
  | calls {p : S16} {k : Nat} {m : Memory} {f cur pc : U64} (hm : s.keepsSound m) :
      Completes s (.callProc p) { s.setFramePtr k f with stack := m, fp := f, curProc := cur, pc := pc }
  /-- ReturnProc restores fp and curProc (R182) -/
  | returns {m : Memory} {f cur pc : U64} (hm : s.keepsSound m) :
      Completes s .returnProc { s with stack := m, curProc := cur, fp := f, pc := pc }
  /-- ReturnProc in procedure 0 halts (R181) -/
  | returnHalts {pc : U64} (hcur : s.curProc = 0#64) :
      Completes s .returnProc { s with pc := pc, status := .halted .normal }
  /-- EndOfCode halts (R191) -/
  | codeEnds {pc : U64} : Completes s .endOfCode { s with pc := pc, status := .halted .endOfCode }

/-- The states that an instruction begun in `s` may answer. -/
inductive EndsIn (s : State) (i : Instr) : State → Prop where
  | completes {u : State} (hu : Completes s i u) : EndsIn s i u.emitTrace
  | raises (e : Raise) : EndsIn s i (s.takeFault e).emitTrace
  /-- the store of InputToAddr faults after the answer was taken (D45) -/
  | storeRaises {v : Int} {rest : List Int} (e : Raise) (hi : i = .inputToAddr) (hin : s.input = v :: rest) :
      EndsIn s i (({ s with input := rest }).takeFault e).emitTrace
  /-- InputToAddr waits for the host (R227) -/
  | waits (hi : i = .inputToAddr) (hin : s.input = []) : EndsIn s i s

theorem EndsIn.of_finish {s t : State} {i : Instr} {r : Checked State} (hr : ∀ {u}, r = .ok u → Completes s i u)
    (h : s.finish r = .next t) : EndsIn s i t := by
  obtain ⟨u, hu, rfl⟩ | ⟨e, -, rfl⟩ := finish_cases h
  · exact .completes (hr hu)
  · exact .raises e

/-! ## The shapes that several instructions share -/

section
variable {s u : State} {i : Instr}

theorem Completes.of_pushValue {n : Nat} {b : Base} {addr : S16} (h : s.pushValue n b addr = .ok u) :
    Completes s i u := by
  obtain ⟨f, m, v, -, -, -, hpush, rfl⟩ := pushValue_ok h
  exact .moves fun hs => hs.write hpush

theorem Completes.of_pushAddress {n : Nat} {b : Base} {addr : S16} (h : s.pushAddress n b addr = .ok u) :
    Completes s i u := by
  obtain ⟨f, m, v, -, -, -, hpush, rfl⟩ := pushAddress_ok h
  exact .moves fun hs => hs.write hpush

theorem Completes.of_unary {f : Int → Int} (h : s.unary f = .ok u) : Completes s i u := by
  obtain ⟨m, v, m1, hpop, hpush, rfl⟩ := unary_ok h
  exact .moves fun hs => (hs.popW hpop).write hpush

theorem Completes.of_binary {f : Int → Int → Checked Int} (h : s.binary f = .ok u) : Completes s i u := by
  obtain ⟨m, r, l, v, m1, m2, hr, hl, -, hpush, rfl⟩ := binary_ok h
  exact .moves fun hs => ((hs.popW hr).popW hl).write hpush

end

/-! ## The instructions with a shape of their own -/

section
variable {s t : State}

/-- The reserved instructions only raise (R200 to R202). -/
theorem unimplemented_endsIn {o : Opcode} {i : Instr} (h : s.finish (unimplemented o) = .next t) :
    EndsIn s i t := by
  cases h
  exact .raises _

theorem execPushConstant_endsIn {idx : S16} (h : execPushConstant idx s = .next t) :
    EndsIn s (.pushConstant idx) t := by
  refine .of_finish (fun hu => ?_) h
  obtain ⟨pc, -, hu⟩ := exists_of_bind_eq_ok hu
  obtain ⟨v, -, hu⟩ := exists_of_bind_eq_ok hu
  obtain ⟨m, hpush, hu⟩ := exists_of_bind_eq_ok hu
  cases hu
  exact .moves fun hs => hs.write hpush

theorem execStoreValue_endsIn (h : execStoreValue s = .next t) : EndsIn s .storeValue t := by
  refine .of_finish (fun hu => ?_) h
  obtain ⟨pc, -, hu⟩ := exists_of_bind_eq_ok hu
  obtain ⟨⟨v, m1⟩, hv, hu⟩ := exists_of_bind_eq_ok hu
  obtain ⟨⟨a, m2⟩, ha, hu⟩ := exists_of_bind_eq_ok hu
  obtain ⟨m, hwrite, hu⟩ := exists_of_bind_eq_ok hu
  cases hu
  exact .moves fun hs => ((hs.popW hv).popW ha).write hwrite

theorem execPop_endsIn (h : execPop s = .next t) : EndsIn s .pop t := by
  refine .of_finish (fun hu => ?_) h
  obtain ⟨pc, -, hu⟩ := exists_of_bind_eq_ok hu
  obtain ⟨⟨v, m⟩, hpop, hu⟩ := exists_of_bind_eq_ok hu
  cases hu
  exact .moves fun hs => hs.popW hpop

theorem execSwap_endsIn (h : execSwap s = .next t) : EndsIn s .swap t := by
  refine .of_finish (fun hu => ?_) h
  obtain ⟨pc, -, hu⟩ := exists_of_bind_eq_ok hu
  obtain ⟨⟨a, m1⟩, hpop, hu⟩ := exists_of_bind_eq_ok hu
  obtain ⟨v, -, hu⟩ := exists_of_bind_eq_ok hu
  obtain ⟨m, hpush, hu⟩ := exists_of_bind_eq_ok hu
  cases hu
  exact .moves fun hs => (hs.popW hpop).write hpush

/-- The value popped is read from W bytes of S, so it is a Data value (R70). -/
theorem execOutputValue_endsIn (h : execOutputValue s = .next t) : EndsIn s .outputValue t := by
  refine .of_finish (fun hu => ?_) h
  obtain ⟨pc, -, hu⟩ := exists_of_bind_eq_ok hu
  obtain ⟨⟨v, m⟩, hpop, hu⟩ := exists_of_bind_eq_ok hu
  cases hu
  obtain ⟨-, rfl, -⟩ := popW_ok hpop
  exact .emitsValue (fun hs => hs.popW hpop) (data_inRange ..)

theorem execInputToAddr_endsIn (h : execInputToAddr s = .next t) : EndsIn s .inputToAddr t := by
  unfold execInputToAddr at h
  split at h
  · cases h
    exact .raises _
  next pc a m hpop =>
    obtain ⟨_, -, hpop⟩ := exists_of_bind_eq_ok hpop
    obtain ⟨⟨_, _⟩, hpop, heq⟩ := exists_of_bind_eq_ok hpop
    cases heq
    split at h
    next hin =>
      cases h
      exact .waits rfl hin
    next v rest hin =>
      obtain ⟨u, hu, rfl⟩ | ⟨e, -, rfl⟩ := finish_cases h
      · obtain ⟨-, m', hwrite, rfl⟩ := storeInput_ok hu
        exact .completes (.storesAnswer hin fun hs => (hs.popW hpop).write hwrite)
      · exact .storeRaises e rfl hin

theorem execPutString_endsIn {text : List Byte} (h : execPutString text s = .next t) :
    EndsIn s (.putString text) t := by
  refine .of_finish (fun hu => ?_) h
  split at hu
  next ht =>
    obtain ⟨pc, -, hu⟩ := exists_of_bind_eq_ok hu
    cases hu
    exact .emitsString ht
  · cases hu

theorem execCallProc_endsIn {p : S16} (h : execCallProc p s = .next t) : EndsIn s (.callProc p) t := by
  refine .of_finish (fun hu => ?_) h
  obtain ⟨ret, -, hu⟩ := exists_of_bind_eq_ok hu
  obtain ⟨e, -, hu⟩ := exists_of_bind_eq_ok hu
  obtain ⟨m, hlink, hu⟩ := exists_of_bind_eq_ok hu
  cases hu
  exact .calls fun hs => hs.pushLink hlink

theorem execReturnProc_endsIn (h : execReturnProc s = .next t) : EndsIn s .returnProc t := by
  refine .of_finish (fun hu => ?_) h
  split at hu
  next hcur => exact halt_ok hu ▸ .returnHalts hcur
  · obtain ⟨_, -, hu⟩ := exists_of_bind_eq_ok hu
    obtain ⟨f, -, hu⟩ := exists_of_bind_eq_ok hu
    obtain ⟨m, hcut, hu⟩ := exists_of_bind_eq_ok hu
    obtain ⟨⟨c, m1⟩, hc, hu⟩ := exists_of_bind_eq_ok hu
    obtain ⟨⟨f2, m2⟩, hf, hu⟩ := exists_of_bind_eq_ok hu
    obtain ⟨⟨p2, m3⟩, hp, hu⟩ := exists_of_bind_eq_ok hu
    cases hu
    exact .returns fun hs => (((hs.truncate hcut).pop64 hc).pop64 hf).pop64 hp

theorem execJump_endsIn {offset : S16} (h : execJump offset s = .next t) : EndsIn s (.jump offset) t := by
  refine .of_finish (fun hu => ?_) h
  obtain ⟨next, -, hu⟩ := exists_of_bind_eq_ok hu
  obtain ⟨target, -, hu⟩ := exists_of_bind_eq_ok hu
  cases hu
  exact .moves id

theorem execJumpIfFalse_endsIn {offset : S16} (h : execJumpIfFalse offset s = .next t) :
    EndsIn s (.jumpIfFalse offset) t := by
  refine .of_finish (fun hu => ?_) h
  obtain ⟨⟨v, m⟩, hpop, hu⟩ := exists_of_bind_eq_ok hu
  obtain ⟨next, -, hu⟩ := exists_of_bind_eq_ok hu
  have hm : s.keepsSound m := fun hs => hs.popW hpop
  split at hu
  · obtain ⟨target, -, hu⟩ := exists_of_bind_eq_ok hu
    cases hu
    exact .moves hm
  · cases hu
    exact .moves hm

theorem execEntryProc_endsIn {len p reserved : S16} (h : execEntryProc len p reserved s = .next t) :
    EndsIn s (.entryProc len p reserved) t := by
  refine .of_finish (fun hu => ?_) h
  obtain ⟨pc, -, hu⟩ := exists_of_bind_eq_ok hu
  obtain ⟨_, -, hu⟩ := exists_of_bind_eq_ok hu
  split at hu
  · cases hu
  · obtain ⟨n, -, hu⟩ := exists_of_bind_eq_ok hu
    obtain ⟨m, hresize, hu⟩ := exists_of_bind_eq_ok hu
    cases hu
    exact .moves fun hs => hs.resize hresize

end

/-! ## What an instruction, and a step, can do -/

/-- Each instruction that answers a next state ends in one of the ways of `EndsIn`. -/
theorem exec_endsIn {i : Instr} {s t : State} (h : exec i s = .next t) : EndsIn s i t := by
  cases i with
  | pushValueLocalVar | pushValueMainVar | pushValueGlobalVar => exact .of_finish .of_pushValue h
  | pushAddressLocalVar | pushAddressMainVar | pushAddressGlobalVar => exact .of_finish .of_pushAddress h
  | minusify | isOdd => exact .of_finish .of_unary h
  | opAdd | opSubtract | opMultiply | opDivide => exact .of_finish .of_binary h
  | compareEq | compareNotEq | compareLT | compareGT | compareLTEq | compareGTEq => exact .of_finish .of_binary h
  | pushConstant => exact execPushConstant_endsIn h
  | storeValue => exact execStoreValue_endsIn h
  | pop => exact execPop_endsIn h
  | swap => exact execSwap_endsIn h
  | outputValue => exact execOutputValue_endsIn h
  | inputToAddr => exact execInputToAddr_endsIn h
  | putString => exact execPutString_endsIn h
  | callProc => exact execCallProc_endsIn h
  | returnProc => exact execReturnProc_endsIn h
  | jump => exact execJump_endsIn h
  | jumpIfFalse => exact execJumpIfFalse_endsIn h
  | entryProc => exact execEntryProc_endsIn h
  | endOfCode => exact .of_finish (fun hu => halt_ok hu ▸ .codeEnds) h
  | put | get | opAddAddr => exact unimplemented_endsIn h

/-- R38 (log 1): the model's step from a status that is terminal. -/
theorem step_of_not_running {s : State} (h : s.status ≠ .running) : step s = .next s := by
  unfold step
  cases hs : s.status with
  | running => exact absurd hs h
  | halted k => rfl
  | faulted r => rfl

theorem step_of_fetch_ok {s : State} {i : Instr} {rest : List Byte} (hs : s.status = .running)
    (hf : s.fetch = .ok (i, rest)) : step s = exec i s := by
  simp only [step, hs, hf]

theorem step_of_fetch_error {s : State} {e : DecodeError} (hs : s.status = .running) (hf : s.fetch = .error e) :
    step s = .next (s.takeFault (s.fetchRaise e)).emitTrace := by
  simp only [step, hs, hf, finish_error]

/-- A step leaves a terminal state as it is, runs the instruction at pc, or takes the fault of the bytes there (R108). -/
theorem step_cases {s t : State} (h : step s = .next t) :
    (s.status ≠ .running ∧ t = s) ∨
    (s.status = .running ∧ ∃ i rest, s.fetch = .ok (i, rest) ∧ EndsIn s i t) ∨
    (s.status = .running ∧ ∃ e, s.fetch = .error e ∧ t = (s.takeFault (s.fetchRaise e)).emitTrace) := by
  by_cases hs : s.status = .running
  · cases hf : s.fetch with
    | ok p =>
      rw [step_of_fetch_ok hs hf] at h
      exact .inr (.inl ⟨hs, p.1, p.2, rfl, exec_endsIn h⟩)
    | error e =>
      rw [step_of_fetch_error hs hf] at h
      cases h
      exact .inr (.inr ⟨hs, e, rfl, rfl⟩)
  · rw [step_of_not_running hs] at h
    cases h
    exact .inl ⟨hs, rfl⟩

end Sys2Proof.Machine
end

section
/-!
SUPPORT. What every step keeps (10_state.md): the program and the tables, and the invariant of the machine; who writes
frames, the output and the input. The statements of the family are settled at the end.
-/
namespace Sys2Proof.Machine

/-! ## What no instruction writes -/

/-- What is fixed once a program is loaded: the program buffer, W, the counts, the pool, the parameters and every
start_pos (R39 to R42, R45, R46). -/
def State.loadedPart (s : State) :=
  (s.pb, s.width, s.procCount, s.cpStart, s.constCount, s.cp, s.config, s.debugTrace, s.procTable.map (·.startPos))

theorem loadedPart_emitTrace (s : State) : s.emitTrace.loadedPart = s.loadedPart := rfl

theorem loadedPart_takeFault (s : State) (e : Raise) : (s.takeFault e).loadedPart = s.loadedPart := rfl

/-- Writing a frame_ptr (R42) leaves every start_pos. -/
theorem map_startPos_setFramePtr (s : State) (k : Nat) (f : U64) :
    (s.setFramePtr k f).procTable.map (·.startPos) = s.procTable.map (·.startPos) := by
  rw [setFramePtr_procTable]
  apply List.ext_getElem?
  intro j
  rw [List.getElem?_map, List.getElem?_map, List.getElem?_modify]
  cases s.procTable[j]? with
  | none => rfl
  | some e => by_cases hj : k = j <;> simp [hj]

theorem loadedPart_setFramePtr (s : State) (k : Nat) (f : U64) : (s.setFramePtr k f).loadedPart = s.loadedPart := by
  simp only [State.loadedPart, map_startPos_setFramePtr]
  rfl

theorem Completes.loadedPart_eq {s u : State} {i : Instr} (h : Completes s i u) : u.loadedPart = s.loadedPart := by
  cases h with
  | calls => exact loadedPart_setFramePtr s _ _
  | moves | emitsValue | emitsString | storesAnswer | returns | returnHalts | codeEnds => rfl

theorem EndsIn.loadedPart_eq {s t : State} {i : Instr} (h : EndsIn s i t) : t.loadedPart = s.loadedPart := by
  cases h with
  | completes hu => rw [loadedPart_emitTrace, hu.loadedPart_eq]
  | raises e => rw [loadedPart_emitTrace, loadedPart_takeFault]
  | storeRaises e => rw [loadedPart_emitTrace, loadedPart_takeFault]; rfl
  | waits => rfl

theorem step_loadedPart {s t : State} (h : step s = .next t) : t.loadedPart = s.loadedPart := by
  obtain ⟨-, rfl⟩ | ⟨-, i, rest, -, hi⟩ | ⟨-, e, -, rfl⟩ := step_cases h
  · rfl
  · exact hi.loadedPart_eq
  · rw [loadedPart_emitTrace, loadedPart_takeFault]

/-! ## The invariant -/

theorem State.Inv.emitTrace {s : State} (h : s.Inv) : s.emitTrace.Inv :=
  ⟨h.stack, h.tables, h.mainFrame, h.constants, h.answers, h.events, h.status⟩

/-- A faulted state owes nothing to its tables, and its record has its code's class. -/
theorem State.Inv.takeFault {s : State} (h : s.Inv) (e : Raise) : (s.takeFault e).Inv where
  stack := h.stack
  tables := nofun
  mainFrame := nofun
  constants := h.constants
  answers := h.answers
  events := h.events
  status := by simp [RunStatus.legal]

theorem State.Inv.takeAnswer {s : State} {v : Int} {rest : List Int} (h : s.Inv) (hin : s.input = v :: rest) :
    State.Inv { s with input := rest } := by
  have hrest : rest.all (inRange s.width) = true := by
    have hall := h.answers
    rw [hin, List.all_cons, Bool.and_eq_true] at hall
    exact hall.2
  exact { h with answers := hrest }

theorem State.Inv.emit {s : State} {e : OutEvent} (h : s.Inv) (he : e.legal s.width = true) : (s.emit e).Inv := by
  have hevents : (s.output ++ [e]).all (OutEvent.legal s.width) = true := by
    rw [List.all_append, h.events, List.all_cons, he]
    rfl
  exact { h with events := hevents }

/-- Procedure 0 keeps a frame when some procedure gets one (R133). -/
theorem State.Inv.setFramePtr {s : State} (h : s.Inv) (k : Nat) (f : U64) : (s.setFramePtr k f).Inv := by
  have htables (hr : s.status = .running) :
      (s.setFramePtr k f).procTable.length = s.procCount ∧ s.cp.length = s.constCount := by
    rw [setFramePtr_procTable, List.length_modify]
    exact h.tables hr
  have hmain (hr : s.status = .running) :
      ∃ e g, (s.setFramePtr k f).procTable[0]? = some e ∧ e.framePtr = some g := by
    obtain ⟨e, g, he, hg⟩ := h.mainFrame hr
    rw [setFramePtr_procTable, List.getElem?_modify, he]
    by_cases hk : k = 0
    · exact ⟨{ e with framePtr := some f }, f, by simp [hk], rfl⟩
    · exact ⟨e, g, by simp [hk], hg⟩
  exact { h with tables := htables, mainFrame := hmain }

/-- The invariant does not speak of pc, fp and curProc, and asks of S only that it is sound. -/
theorem State.Inv.withStack {s : State} {m : Memory} (h : s.Inv) (hm : s.keepsSound m)
    (pc fp curProc : U64) : State.Inv { s with stack := m, pc := pc, fp := fp, curProc := curProc } :=
  { h with stack := stackOk_of_keepsSound hm h.stack }

theorem State.Inv.halted {s : State} (h : s.Inv) (pc : U64) (k : HaltKind) :
    State.Inv { s with pc := pc, status := .halted k } :=
  { h with tables := nofun, mainFrame := nofun, status := rfl }

theorem Completes.inv {s u : State} {i : Instr} (h : Completes s i u) (hs : s.Inv) : u.Inv := by
  cases h with
  | moves hm => exact hs.withStack hm _ _ _
  | emitsValue hm hv => exact (hs.emit (e := .outValue _) hv).withStack hm _ _ _
  | emitsString ht => exact (hs.emit (e := .outString _) ht).withStack id _ _ _
  | storesAnswer hin hm => exact (hs.takeAnswer hin).withStack hm _ _ _
  | calls hm => exact (hs.setFramePtr _ _).withStack hm _ _ _
  | returns hm => exact hs.withStack hm _ _ _
  | returnHalts | codeEnds => exact hs.halted _ _

theorem EndsIn.inv {s t : State} {i : Instr} (h : EndsIn s i t) (hs : s.Inv) : t.Inv := by
  cases h with
  | completes hu => exact (hu.inv hs).emitTrace
  | raises e => exact (hs.takeFault e).emitTrace
  | storeRaises e _ hin => exact ((hs.takeAnswer hin).takeFault e).emitTrace
  | waits => exact hs

/-! ## The statements -/

/-- Settles O5. -/
theorem endedRunsStay : Obligations.EndedRunsStay := fun _ => step_of_not_running

/-- Settles O41: each value is the one that `State.reset` writes down. -/
theorem resetLeavesSpecValues : Obligations.ResetLeavesSpecValues :=
  ⟨rfl, rfl, rfl, rfl, rfl, rfl, _, rfl, rfl, rfl⟩

/-- Settles O40, by what a step can do (`step_cases`) and what an instruction can do (`exec_endsIn`). -/
theorem everyStepKeepsInvariant : Obligations.EveryStepKeepsInvariant := by
  intro s t hs h
  obtain ⟨-, rfl⟩ | ⟨-, i, rest, -, hi⟩ | ⟨-, e, -, rfl⟩ := step_cases h
  · exact hs
  · exact hi.inv hs
  · exact (hs.takeFault _).emitTrace

/-- Settles O45: in the model a start_pos is kept even by a step that faults (log 2). -/
theorem stepKeepsProgramAndTables : Obligations.StepKeepsProgramAndTables := by
  intro s t h
  have hkept := step_loadedPart h
  simp only [State.loadedPart, Prod.mk.injEq] at hkept
  obtain ⟨hpb, hwidth, hprocs, hstart, hconsts, hcp, hconfig, htrace, hpos⟩ := hkept
  exact ⟨hpb, hwidth, hprocs, hstart, hconsts, hcp, hconfig, htrace, fun _ => hpos⟩

/-- Settles O46: of the ways to complete only `calls` and `returns` write a frame, fp or curProc. -/
theorem onlyLinkageWritesFrames : Obligations.OnlyLinkageWritesFrames := by
  intro i s t h hok hcall
  cases exec_endsIn h with
  | completes hu =>
    cases hu with
    | calls => exact absurd rfl (hcall _)
    | returns => exact ⟨rfl, fun hret => absurd rfl hret⟩
    | moves | emitsValue | emitsString | storesAnswer | returnHalts | codeEnds => exact ⟨rfl, fun _ => ⟨rfl, rfl⟩⟩
  | raises | storeRaises => exact absurd rfl (hok _)
  | waits => exact ⟨rfl, fun _ => ⟨rfl, rfl⟩⟩

/-- Settles O47: of the ways to complete only `emitsValue` and `emitsString` emit, and a fault emits nothing. -/
theorem outputOnlyGrows : Obligations.OutputOnlyGrows := by
  intro i s t h
  cases exec_endsIn h with
  | completes hu =>
    cases hu with
    | emitsValue => exact .inr (.inl ⟨rfl, _, rfl⟩)
    | emitsString ht => exact .inr (.inr ⟨_, rfl, ht, rfl⟩)
    | moves | storesAnswer | calls | returns | returnHalts | codeEnds => exact .inl rfl
  | raises | storeRaises | waits => exact .inl rfl

/-- Settles O52: InputToAddr takes the answer whether its store completes or faults (D45). -/
theorem onlyInputToAddrTakesInput : Obligations.OnlyInputToAddrTakesInput := by
  intro i s t h
  cases exec_endsIn h with
  | completes hu =>
    cases hu with
    | storesAnswer hin => exact .inr ⟨rfl, _, hin⟩
    | moves | emitsValue | emitsString | calls | returns | returnHalts | codeEnds => exact .inl rfl
  | storeRaises e hi hin => exact .inr ⟨hi, _, hin⟩
  | raises | waits => exact .inl rfl

end Sys2Proof.Machine
end

section
/-!
SUPPORT. The step whose fetch fails (30_encoding.md R108, at PbByte's bound R72), and MemWrite (20_memory.md R76) over
the whole stack: its two faults, its length, its bytes inside and outside the range written. The two statements of the
family are settled at the end.
-/
namespace Sys2Proof.Machine

/-! ## The fetch past the program buffer -/

/-- PbByte (R72) at or past the end of the program buffer. -/
theorem pbByte_of_length_le {pb : List Byte} {pos : Nat} (h : pb.length ≤ pos) :
    pbByte pb pos = raise .truncated pos :=
  if_pos (.inr (Int.ofNat_le.2 h))

/-- No byte lies at or past the end, so nothing decodes there (R106). -/
theorem decodeAt_of_length_le {pb : List Byte} {pos : Nat} (h : pb.length ≤ pos) :
    decodeAt pb pos = .error .truncated := by
  rw [decodeAt, List.drop_eq_nil_of_le h, decode]

/-- With pc at or past the end it is the opcode byte that is missing, so the raise is PbByte's own. -/
theorem truncatedRaise_of_length_le {s : State} (h : s.pb.length ≤ s.pc.toNat) :
    s.truncatedRaise = { code := .truncated, info := s.pc.toNat } := by
  simp only [State.truncatedRaise, pbByte_of_length_le h, raise]

/-- A running step whose bytes at pc are no instruction takes the fault they raise, and neither emits nor takes input. -/
theorem stepRaises_of_fetch_error {s : State} {e : DecodeError} (hs : s.status = .running)
    (hf : s.fetch = .error e) : s.stepRaises (s.fetchRaise e).code (s.fetchRaise e).info :=
  ⟨_, step_of_fetch_error hs hf, rfl, rfl, rfl⟩

/-! ## MemWrite over the whole stack -/

section
variable {max n v : Nat} {m m' : Memory} {addr : Int}

theorem write_of_neg (h : addr < 0) : m.write max addr n v = raise .addressOverflow addr := if_pos h

theorem write_of_max_lt (h0 : 0 ≤ addr) (h : (max : Int) < addr + n) :
    m.write max addr n v = raise .stackOverflow (addr + n) := by
  rw [Memory.write, if_neg (by omega), if_pos h]

theorem len_write (h : m.write max addr n v = .ok m') : m'.len = Nat.max m.len (addr.toNat + n) := by
  obtain ⟨-, -, rfl⟩ := write_ok h
  rfl

/-- MemRead (R75) gives back what MemWrite wrote. -/
theorem read_write_same (hm : m.wf = true) (hv : v < 256 ^ n) (h : m.write max addr n v = .ok m') :
    m'.read addr n = .ok v := by
  have hlen : addr.toNat + n ≤ m'.len := len_write h ▸ Nat.le_max_right ..
  obtain ⟨h0, -, hm'⟩ := write_ok h
  have hbytes : m'.bytesAt addr.toNat n = leBytes n v := by
    have hstore := bytesAt_store ((wf_iff m).1 hm).1 m'.len addr.toNat (leBytes n v)
    rw [length_leBytes] at hstore
    rw [hm'] at hstore ⊢
    exact hstore
  rw [read_of_le h0 hlen, hbytes, leNat_leBytes_of_lt hv]

theorem byte_write_outside (h : m.write max addr n v = .ok m') {c : Nat} (hc : (c : Int) < addr ∨ addr + n ≤ c) :
    m'.byte c = m.byte c := by
  obtain ⟨h0, -, rfl⟩ := write_ok h
  exact lookupCell_storeBytes_outside _ _ _ (by rw [length_leBytes]; omega)

/-- Outside the range written a byte is as it was, zero where the stack grew over it (R76), and absent past its end. -/
theorem byte?_write_outside (hm : m.wf = true) (h : m.write max addr n v = .ok m') {c : Nat}
    (hc : (c : Int) < addr ∨ addr + n ≤ c) :
    m'.byte? c = if c < m.len then m.byte? c else if c < m'.len then some 0#8 else none := by
  have hbyte := byte_write_outside h hc
  have hgrow : m.len ≤ m'.len := len_write h ▸ Nat.le_max_left ..
  split
  · next hold => rw [byte?_of_lt (hold.trans_le hgrow), byte?_of_lt hold, hbyte]
  · next hnew =>
    split
    · next hin => rw [byte?_of_lt hin, hbyte, byte_of_len_le hm (Nat.not_lt.1 hnew), Memory.unlisted]
    · next hout => exact byte?_of_le (Nat.not_lt.1 hout)

end

/-! ## The statements -/

/-- Settles O7: the bytes at pc are truncated, and the byte missing first is the opcode. -/
theorem fetchPastEndStep : Obligations.FetchPastEndStep := by
  intro s hs hend
  have hraise : s.fetchRaise .truncated = { code := .truncated, info := s.pc.toNat } :=
    truncatedRaise_of_length_le hend
  have hstep := stepRaises_of_fetch_error hs (decodeAt_of_length_le hend)
  rwa [hraise] at hstep

/-- Settles O38: the two faults, and for a legal write what `write_of_le` answers. -/
theorem memWriteCases : Obligations.MemWriteCases := by
  intro m max n v addr hm hv
  refine ⟨write_of_neg, write_of_max_lt, fun h0 hmax => ?_⟩
  obtain ⟨m', hw⟩ : ∃ m', m.write max addr n v = .ok m' := ⟨_, write_of_le v h0 (by omega)⟩
  exact ⟨m', hw, wf_write hm hw, len_write hw, read_write_same hm hv hw, fun _ => byte?_write_outside hm hw⟩

end Sys2Proof.Machine
end

section
/-!
SUPPORT. The dispatch table read both ways (30_encoding.md R96, R97), each format's decoder against its operand bytes
(R94, R101, R103), and from these the decoder against the encoder (R106, R107): what decodes is exactly an encoding of
a well-formed instruction with the bytes after it (`decode_eq_ok_iff`), and an encoding cut short is truncated
(`decode_take_encode`). The statements about the decoder alone are settled at the end.
-/
namespace Sys2Proof

/-! ## The dispatch table -/

theorem opcodeOf_opcodeByte (o : Opcode) : opcodeOf (opcodeByte o) = some o := by
  cases o <;> rfl

/-- No mnemonic has two rows, so the byte that selects it is the byte it is encoded with. -/
theorem opcodeOf_eq_some_iff {op : Byte} {o : Opcode} : opcodeOf op = some o ↔ op = opcodeByte o := by
  constructor
  · intro h
    obtain ⟨row, hrow, rfl⟩ := Option.map_eq_some_iff.mp h
    have hbyte : row.byte = op := by simpa using List.find?_some hrow
    have unique : ∀ r ∈ opcodeMap, r.byte = opcodeByte r.opcode := by decide
    exact hbyte ▸ unique row (List.mem_of_find?_eq_some hrow)
  · rintro rfl
    exact opcodeOf_opcodeByte o

/-- The unknown bytes of R98. -/
theorem opcodeOf_eq_none {op : Byte} (h : 0x22 ≤ op.toNat) : opcodeOf op = none := by
  have below : ∀ r ∈ opcodeMap, r.byte.toNat < 0x22 := by decide
  refine Option.map_eq_none_iff.mpr (List.find?_eq_none.mpr fun r hr heq => ?_)
  have hbyte : r.byte = op := by simpa using heq
  have := below r hr
  rw [hbyte] at this
  omega

/-- The reserved rows of R97 are those of Put, Get and OpAddAddr. -/
theorem cls_eq_implemented_iff {i : Instr} :
    i.opcode.cls = .implemented ↔ i ≠ .put ∧ i ≠ .get ∧ i ≠ .opAddAddr := by
  cases i with
  | put | get | opAddAddr => exact iff_of_false nofun (by simp)
  | _ => exact iff_of_true rfl (by simp)

/-! ## Strings -/

theorem noNul_iff {s : List Byte} : noNul s = true ↔ 0#8 ∉ s := by
  rw [noNul, List.all_eq_true]
  exact ⟨fun h hmem => by simpa using h _ hmem, fun h b hb => bne_iff_ne.mpr fun h0 => h (h0 ▸ hb)⟩

theorem splitNul_eq_none {s : List Byte} (h : 0#8 ∉ s) : splitNul s = none := by
  cases hs : splitNul s with
  | none => rfl
  | some p => exact absurd (by simp [(splitNul_eq_some hs).1]) h

/-! ## Each format's operands -/

section
variable {bs rest : List Byte} {i : Instr}

theorem decodeF1_eq_ok_iff {mk : S16 → Instr} :
    decodeF1 mk bs = .ok (i, rest) ↔ ∃ a, i = mk a ∧ bs = s16Bytes a ++ rest := by
  constructor
  · intro h
    match bs with
    | [] | [_] => cases h
    | a0 :: a1 :: bs =>
      cases h
      exact ⟨s16 a0 a1, rfl, by rw [s16Bytes_s16]; rfl⟩
  · rintro ⟨a, rfl, rfl⟩
    simp only [s16Bytes, List.cons_append, List.nil_append, decodeF1, s16_extract]

theorem decodeF2_eq_ok_iff {mk : S16 → S16 → Instr} :
    decodeF2 mk bs = .ok (i, rest) ↔ ∃ a b, i = mk a b ∧ bs = s16Bytes a ++ s16Bytes b ++ rest := by
  constructor
  · intro h
    match bs with
    | [] | [_] | [_, _] | [_, _, _] => cases h
    | a0 :: a1 :: b0 :: b1 :: bs =>
      cases h
      exact ⟨s16 a0 a1, s16 b0 b1, rfl, by simp only [s16Bytes_s16]; rfl⟩
  · rintro ⟨a, b, rfl, rfl⟩
    simp only [s16Bytes, List.cons_append, List.nil_append, decodeF2, s16_extract]

theorem decodeF3_eq_ok_iff {mk : S16 → S16 → S16 → Instr} :
    decodeF3 mk bs = .ok (i, rest) ↔
      ∃ a b c, i = mk a b c ∧ bs = s16Bytes a ++ s16Bytes b ++ s16Bytes c ++ rest := by
  constructor
  · intro h
    match bs with
    | [] | [_] | [_, _] | [_, _, _] | [_, _, _, _] | [_, _, _, _, _] => cases h
    | a0 :: a1 :: b0 :: b1 :: c0 :: c1 :: bs =>
      cases h
      exact ⟨s16 a0 a1, s16 b0 b1, s16 c0 c1, rfl, by simp only [s16Bytes_s16]; rfl⟩
  · rintro ⟨a, b, c, rfl, rfl⟩
    simp only [s16Bytes, List.cons_append, List.nil_append, decodeF3, s16_extract]

theorem decodeFS_of_utf8 {mk : List Byte → Instr} {s : List Byte} (hnul : noNul s = true)
    (hutf8 : wellFormedUTF8 s = true) : decodeFS mk (s ++ 0#8 :: rest) = .ok (mk s, rest) := by
  simp only [decodeFS, splitNul_append hnul, hutf8, if_true]

theorem decodeFS_of_not_utf8 {mk : List Byte → Instr} {s : List Byte} (hnul : noNul s = true)
    (hutf8 : wellFormedUTF8 s = false) : decodeFS mk (s ++ 0#8 :: rest) = .error .badUtf8 := by
  simp only [decodeFS, splitNul_append hnul, hutf8, Bool.false_eq_true, if_false]

theorem decodeFS_of_no_nul {mk : List Byte → Instr} (h : 0#8 ∉ bs) : decodeFS mk bs = .error .truncated := by
  simp only [decodeFS, splitNul_eq_none h]

theorem decodeFS_eq_ok_iff {mk : List Byte → Instr} :
    decodeFS mk bs = .ok (i, rest) ↔
      ∃ s, i = mk s ∧ noNul s = true ∧ wellFormedUTF8 s = true ∧ bs = s ++ 0#8 :: rest := by
  constructor
  · intro h
    unfold decodeFS at h
    split at h
    · cases h
    next s rest' hsplit =>
      obtain ⟨rfl, hnul⟩ := splitNul_eq_some hsplit
      split at h
      next hutf8 =>
        cases h
        exact ⟨s, rfl, hnul, hutf8, rfl⟩
      · cases h
  · rintro ⟨s, rfl, hnul, hutf8, rfl⟩
    exact decodeFS_of_utf8 hnul hutf8

theorem decodeF1_of_short {mk : S16 → Instr} (h : bs.length < 2) : decodeF1 mk bs = .error .truncated := by
  match bs with
  | [] | [_] => rfl
  | _ :: _ :: _ => simp at h

theorem decodeF2_of_short {mk : S16 → S16 → Instr} (h : bs.length < 4) : decodeF2 mk bs = .error .truncated := by
  match bs with
  | [] | [_] | [_, _] | [_, _, _] => rfl
  | _ :: _ :: _ :: _ :: _ => simp only [List.length_cons] at h; omega

theorem decodeF3_of_short {mk : S16 → S16 → S16 → Instr} (h : bs.length < 6) :
    decodeF3 mk bs = .error .truncated := by
  match bs with
  | [] | [_] | [_, _] | [_, _, _] | [_, _, _, _] | [_, _, _, _, _] => rfl
  | _ :: _ :: _ :: _ :: _ :: _ :: _ => simp only [List.length_cons] at h; omega

end

/-! ## The operands of an instruction -/

/-- Each instruction's operand bytes are read back, by its format. -/
theorem decodeOperands_bytes {i : Instr} (hwf : i.wf = true) (rest : List Byte) :
    decodeOperands i.opcode (i.operands.bytes ++ rest) = .ok (i, rest) := by
  cases i with
  | pushValueLocalVar a | pushValueMainVar a | pushAddressLocalVar a | pushAddressMainVar a | pushConstant a
  | callProc a | jump a | jumpIfFalse a => exact decodeF1_eq_ok_iff.mpr ⟨a, rfl, rfl⟩
  | pushValueGlobalVar a b | pushAddressGlobalVar a b => exact decodeF2_eq_ok_iff.mpr ⟨a, b, rfl, rfl⟩
  | entryProc a b c => exact decodeF3_eq_ok_iff.mpr ⟨a, b, c, rfl, rfl⟩
  | putString s =>
    obtain ⟨hnul, hutf8⟩ := Bool.and_eq_true_iff.mp hwf
    exact decodeFS_eq_ok_iff.mpr ⟨s, rfl, hnul, hutf8, List.append_assoc ..⟩
  | _ => rfl

/-- What a mnemonic's operand reader answers is an instruction of that mnemonic, well-formed, whose operand bytes were
read. -/
theorem decodeOperands_ok {o : Opcode} {bs rest : List Byte} {i : Instr} (h : decodeOperands o bs = .ok (i, rest)) :
    i.opcode = o ∧ i.wf = true ∧ bs = i.operands.bytes ++ rest := by
  cases o with
  | pushValueLocalVar | pushValueMainVar | pushAddressLocalVar | pushAddressMainVar | pushConstant
  | callProc | jump | jumpIfFalse =>
    obtain ⟨a, rfl, rfl⟩ := decodeF1_eq_ok_iff.mp h
    exact ⟨rfl, rfl, rfl⟩
  | pushValueGlobalVar | pushAddressGlobalVar =>
    obtain ⟨a, b, rfl, rfl⟩ := decodeF2_eq_ok_iff.mp h
    exact ⟨rfl, rfl, rfl⟩
  | entryProc =>
    obtain ⟨a, b, c, rfl, rfl⟩ := decodeF3_eq_ok_iff.mp h
    exact ⟨rfl, rfl, rfl⟩
  | putString =>
    obtain ⟨s, rfl, hnul, hutf8, rfl⟩ := decodeFS_eq_ok_iff.mp h
    exact ⟨rfl, Bool.and_eq_true_iff.mpr ⟨hnul, hutf8⟩, (List.append_assoc s [0#8] rest).symm⟩
  | _ =>
    cases h
    exact ⟨rfl, rfl, rfl⟩

/-- Operand bytes cut short are truncated, by the instruction's format. -/
theorem decodeOperands_take_bytes {i : Instr} {n : Nat} (hwf : i.wf = true) (hn : n < i.operands.bytes.length) :
    decodeOperands i.opcode (i.operands.bytes.take n) = .error .truncated := by
  have hshort : (i.operands.bytes.take n).length < i.operands.bytes.length :=
    (List.length_take_le n _).trans_lt hn
  cases i with
  | pushValueLocalVar | pushValueMainVar | pushAddressLocalVar | pushAddressMainVar | pushConstant
  | callProc | jump | jumpIfFalse => exact decodeF1_of_short hshort
  | pushValueGlobalVar | pushAddressGlobalVar => exact decodeF2_of_short hshort
  | entryProc => exact decodeF3_of_short hshort
  | putString s =>
    obtain ⟨hnul, -⟩ := Bool.and_eq_true_iff.mp hwf
    have hle : n ≤ s.length := by simpa [Instr.operands, Operands.bytes, Nat.lt_succ_iff] using hn
    refine decodeFS_of_no_nul fun hmem => noNul_iff.mp hnul ?_
    rw [Instr.operands, Operands.bytes, List.take_append_of_le_length hle] at hmem
    exact List.mem_of_mem_take hmem
  | _ => exact absurd hn (Nat.not_lt_zero n)

/-! ## The decoder and the encoder -/

theorem length_encode (i : Instr) : (encode i).length = i.length := by
  unfold encode Instr.length
  cases i.operands <;> simp [Operands.bytes]

theorem decode_of_unknown {op : Byte} (rest : List Byte) (h : 0x22 ≤ op.toNat) :
    decode (op :: rest) = .error (.unknownOpcode op) := by
  simp only [decode, opcodeOf_eq_none h]

theorem decode_opcodeByte_cons (o : Opcode) (bs : List Byte) : decode (opcodeByte o :: bs) = decodeOperands o bs := by
  simp only [decode, opcodeOf_opcodeByte]

/-- The bytes that decode are the encodings of the well-formed instructions, each with the bytes after it. -/
theorem decode_eq_ok_iff {bs rest : List Byte} {i : Instr} :
    decode bs = .ok (i, rest) ↔ i.wf = true ∧ bs = encode i ++ rest := by
  constructor
  · intro h
    match bs with
    | [] => cases h
    | op :: bs =>
      cases hop : opcodeOf op with
      | none =>
        simp only [decode, hop] at h
        cases h
      | some o =>
        simp only [decode, hop] at h
        obtain ⟨rfl, hwf, rfl⟩ := decodeOperands_ok h
        exact ⟨hwf, by rw [opcodeOf_eq_some_iff.mp hop]; rfl⟩
  · rintro ⟨hwf, rfl⟩
    exact (decode_opcodeByte_cons ..).trans (decodeOperands_bytes hwf rest)

/-- An encoding cut short after its opcode byte is truncated. -/
theorem decode_take_encode {i : Instr} {n : Nat} (hwf : i.wf = true) (h0 : 0 < n) (hn : n < (encode i).length) :
    decode ((encode i).take n) = .error .truncated := by
  match n with
  | n + 1 =>
    exact (decode_opcodeByte_cons ..).trans (decodeOperands_take_bytes hwf (Nat.lt_of_succ_lt_succ hn))

/-! ## The statements -/

/-- Settles O1: decoding answers `(i, rest)` on the encoding of `i` before `rest`, and on no other bytes. -/
theorem decodeEncodeAllInstructions : Obligations.DecodeEncodeAllInstructions := by
  refine ⟨fun i rest hwf => decode_eq_ok_iff.mpr ⟨hwf, rfl⟩, fun bs bs' i rest h h' => ?_⟩
  exact (decode_eq_ok_iff.mp h).2.trans (decode_eq_ok_iff.mp h').2.symm

/-- Settles O2. -/
theorem decodedBytesReencode : Obligations.DecodedBytesReencode := by
  intro bs i rest h
  obtain ⟨hwf, hbs⟩ := decode_eq_ok_iff.mp h
  exact ⟨hwf, hbs.symm⟩

/-- Settles O3: the decoder evaluated on each word. -/
theorem writtenWordsDecode : Obligations.WrittenWordsDecode :=
  ⟨rfl, rfl, rfl, rfl, rfl, rfl, rfl, rfl, rfl, rfl, rfl⟩

end Sys2Proof
end

section
/-!
SUPPORT. The static analyzer against the decoder and the engine (30_encoding.md R106, R111 to R115): what the static
Decode answers (`staticDecode_cases`, `staticDecode_eq_ok_iff`), what the linear decode says at each line and where it
stops (`analyzeFrom_stops`), and where a completed jump leaves pc. The statements about the step and the analyzer are
settled at the end.
-/
namespace Sys2Proof.Machine

/-! ## The static Decode -/

/-- The analyzer's verdict on bytes at `pos` that the decoder refuses (R106): what the static Decode answers there, by
`staticDecode_of_decode_error`. -/
def decodeVerdict (pb : List Byte) (pos : Nat) : DecodeError → AnalysisFault
  | .truncated => { raised := { code := .truncated, info := pb.length }, pos := pb.length }
  | .unknownOpcode b => { raised := { code := .unknownOpcode, info := b.toNat }, pos := pos }
  | .badUtf8 => { raised := { code := .badUtf8, info := (pos : Int) + 1 }, pos := pos + 1 }

section
variable {pb rest : List Byte} {pos next : Nat} {op : Byte} {i : Instr}

theorem pbByte_of_drop (h : pb.drop pos = op :: rest) : pbByte pb pos = .ok op := by
  have hlt : pos < pb.length := by
    have := congrArg List.length h
    simp only [List.length_drop, List.length_cons] at this
    omega
  have hget : pb[pos]? = some op := by rw [← List.head?_drop, h]; rfl
  rw [pbByte, if_neg (by omega), Int.toNat_natCast, List.getD_eq_getElem?_getD, hget]
  rfl

theorem staticDecode_of_length_le (h : pb.length ≤ pos) :
    staticDecode pb pos = .error { raised := { code := .truncated, info := pos }, pos := pos } := by
  simp only [staticDecode, pbByte_of_length_le h, raise]

theorem staticDecode_of_decode_error {e : DecodeError} (hdrop : pb.drop pos = op :: rest)
    (h : decode (op :: rest) = .error e) : staticDecode pb pos = .error (decodeVerdict pb pos e) := by
  simp only [staticDecode, pbByte_of_drop hdrop, decodeAt, hdrop, h]
  cases e <;> rfl

/-- A reserved instruction is no instruction to the analyzer (R204, D36). -/
theorem staticDecode_of_reserved {tail : List Byte} (hdrop : pb.drop pos = op :: rest)
    (h : decode (op :: rest) = .ok (i, tail)) (hcls : i.opcode.cls = .reserved) :
    staticDecode pb pos = .error { raised := { code := .unimplemented, info := op.toNat }, pos := pos } := by
  simp only [staticDecode, pbByte_of_drop hdrop, decodeAt, hdrop, h, hcls]

theorem staticDecode_of_implemented {tail : List Byte} (hdrop : pb.drop pos = op :: rest)
    (h : decode (op :: rest) = .ok (i, tail)) (hcls : i.opcode.cls = .implemented) :
    staticDecode pb pos = .ok (i, pos + (encode i).length) := by
  simp only [staticDecode, pbByte_of_drop hdrop, decodeAt, hdrop, h, hcls, length_encode]

/-- The four things the static Decode can do at a position (R106). -/
theorem staticDecode_cases (pb : List Byte) (pos : Nat) :
    staticDecode pb pos = .error { raised := { code := .truncated, info := pos }, pos := pos } ∨
    ∃ op rest, pb.drop pos = op :: rest ∧
      ((∃ e, staticDecode pb pos = .error (decodeVerdict pb pos e)) ∨
        staticDecode pb pos = .error { raised := { code := .unimplemented, info := op.toNat }, pos := pos } ∨
        ∃ i tail, decode (op :: rest) = .ok (i, tail) ∧ i.opcode.cls = .implemented ∧
          staticDecode pb pos = .ok (i, pos + (encode i).length)) := by
  cases hdrop : pb.drop pos with
  | nil => exact .inl (staticDecode_of_length_le (List.drop_eq_nil_iff.mp hdrop))
  | cons op rest =>
    refine .inr ⟨op, rest, rfl, ?_⟩
    cases hdec : decode (op :: rest) with
    | error e => exact .inl ⟨e, staticDecode_of_decode_error hdrop hdec⟩
    | ok p =>
      cases hcls : p.1.opcode.cls with
      | reserved => exact .inr (.inl (staticDecode_of_reserved hdrop hdec hcls))
      | implemented => exact .inr (.inr ⟨p.1, p.2, rfl, hcls, staticDecode_of_implemented hdrop hdec hcls⟩)

/-- The static Decode accepts the well-formed instructions that are not reserved, where their encodings stand. -/
theorem staticDecode_eq_ok_iff : staticDecode pb pos = .ok (i, next) ↔
    i.wf = true ∧ i.opcode.cls = .implemented ∧ next = pos + (encode i).length ∧
      ∃ tail, pb.drop pos = encode i ++ tail := by
  constructor
  · intro h
    obtain herr | ⟨op, rest, hdrop, ⟨e, herr⟩ | herr | ⟨i', tail, hdec, hcls, hok⟩⟩ := staticDecode_cases pb pos
    · rw [herr] at h; cases h
    · rw [herr] at h; cases h
    · rw [herr] at h; cases h
    · rw [hok] at h
      cases h
      obtain ⟨hwf, hbytes⟩ := decode_eq_ok_iff.mp hdec
      exact ⟨hwf, hcls, rfl, tail, hdrop.trans hbytes⟩
  · rintro ⟨hwf, hcls, rfl, tail, hdrop⟩
    exact staticDecode_of_implemented hdrop (decode_eq_ok_iff.mpr ⟨hwf, rfl⟩) hcls

theorem staticDecode_error_code {f : AnalysisFault} (h : staticDecode pb pos = .error f) :
    f.raised.code ∈ [FaultCode.truncated, .unknownOpcode, .unimplemented, .badUtf8] := by
  obtain herr | ⟨op, rest, -, ⟨e, herr⟩ | herr | ⟨i, tail, -, -, hok⟩⟩ := staticDecode_cases pb pos
  · rw [herr] at h; cases h; simp
  · rw [herr] at h; cases h; cases e <;> simp [decodeVerdict]
  · rw [herr] at h; cases h; simp
  · rw [hok] at h; cases h

end

/-! ## One line -/

section
variable {pb : List Byte} {pos next : Nat} {i : Instr} {line : InstrLine}

/-- A line is made only where a jump's target is in range (R114), and its fields are the instruction's. -/
theorem analyzeInstr_ok (h : analyzeInstr pos i = .ok line) :
    line = { offset := pos, raw := opcodeByte i.opcode, opcode := i.opcode, operands := i.operands,
             target := staticTarget pos i, main := mainMark i } ∧
    ∀ t, staticTarget pos i = some t → 0 ≤ t ∧ t < 2 ^ 64 := by
  simp only [analyzeInstr] at h
  split at h
  next hnone =>
    cases h
    exact ⟨rfl, fun t ht => by rw [hnone] at ht; cases ht⟩
  next t hsome =>
    split at h
    · cases h
    next hin =>
      cases h
      refine ⟨rfl, fun t' ht => ?_⟩
      rw [hsome] at ht
      cases ht
      omega

theorem analyzeInstr_error {f : AnalysisFault} (h : analyzeInstr pos i = .error f) :
    ∃ t, jumpsTo pos i t ∧ (t < 0 ∨ 2 ^ 64 ≤ t) ∧ f = { raised := { code := .badTarget, info := t }, pos := pos } := by
  simp only [analyzeInstr] at h
  split at h
  · cases h
  next t hsome =>
    split at h
    next hout =>
      cases h
      exact ⟨t, staticTarget_eq_some.mp hsome, hout, rfl⟩
    · cases h

/-- The line of the instruction that the static Decode accepts says all of R115. -/
theorem describes_of_analyzeInstr (hdec : staticDecode pb pos = .ok (i, next)) (h : analyzeInstr pos i = .ok line) :
    line.offset = pos ∧ line.describes pb next := by
  obtain ⟨rfl, htarget⟩ := analyzeInstr_ok h
  obtain ⟨-, -, -, tail, hdrop⟩ := staticDecode_eq_ok_iff.mp hdec
  have hraw : pb[pos]? = some (opcodeByte i.opcode) := by
    rw [← List.head?_drop, hdrop]
    rfl
  exact ⟨rfl, i, hdec, hraw, rfl, rfl, fun _ => staticTarget_eq_some, htarget, mainMark_iff⟩

end

/-! ## The linear decode -/

/-- The linear decode faults at `stop` with `f`: the static Decode does, or a jump there has its target out of range
(R111, R114). -/
def linearFault (pb : List Byte) (stop : Nat) (f : AnalysisFault) : Prop :=
  staticDecode pb stop = .error f ∨ ∃ (i : Instr) (next : Nat) (target : Int),
    staticDecode pb stop = .ok (i, next) ∧ jumpsTo stop i target ∧ (target < 0 ∨ 2 ^ 64 ≤ target) ∧
    f = { raised := { code := .badTarget, info := target }, pos := stop }

theorem linearFault_code {pb : List Byte} {stop : Nat} {f : AnalysisFault} (h : linearFault pb stop f) :
    f.raised.code ∈ [FaultCode.truncated, .unknownOpcode, .unimplemented, .badUtf8, .badTarget] := by
  obtain hdec | ⟨i, next, target, -, -, -, rfl⟩ := h
  · exact List.mem_append_left [FaultCode.badTarget] (staticDecode_error_code hdec)
  · simp

/-- The lines from `pos` describe one instruction after another up to where the linear decode stops: at or past cpStart,
or below it with a fault. `fuel` suffices, as an instruction has a byte at least. -/
theorem analyzeFrom_stops {pb : List Byte} {cpStart : Nat} :
    ∀ (fuel pos : Nat), cpStart ≤ pos + fuel →
      ∃ stop, describesFrom pb cpStart pos (analyzeFrom pb cpStart fuel pos).1 stop ∧
        ((analyzeFrom pb cpStart fuel pos).2 = none → cpStart ≤ stop) ∧
        ∀ f, (analyzeFrom pb cpStart fuel pos).2 = some f → stop < cpStart ∧ linearFault pb stop f
  | 0, pos, hfuel => ⟨pos, rfl, fun _ => hfuel, nofun⟩
  | fuel + 1, pos, hfuel => by
    by_cases hend : cpStart ≤ pos
    · rw [analyzeFrom, if_pos hend]
      exact ⟨pos, rfl, fun _ => hend, nofun⟩
    have hpos : pos < cpStart := Nat.lt_of_not_le hend
    cases hdec : staticDecode pb pos with
    | error f =>
      simp only [analyzeFrom, if_neg hend, hdec]
      exact ⟨pos, rfl, nofun, fun _ hf => ⟨hpos, .inl (Option.some.inj hf ▸ hdec)⟩⟩
    | ok p =>
      obtain ⟨i, next⟩ := p
      cases hline : analyzeInstr pos i with
      | error f =>
        obtain ⟨t, hjump, hout, hf⟩ := analyzeInstr_error hline
        simp only [analyzeFrom, if_neg hend, hdec, hline]
        exact ⟨pos, rfl, nofun, fun _ hf' => ⟨hpos, .inr ⟨i, next, t, hdec, hjump, hout, Option.some.inj hf' ▸ hf⟩⟩⟩
      | ok line =>
        obtain ⟨hoffset, hdescribes⟩ := describes_of_analyzeInstr hdec hline
        obtain ⟨-, -, hnext, -⟩ := staticDecode_eq_ok_iff.mp hdec
        have hone : 1 ≤ (encode i).length := Nat.succ_pos _
        have hnextFuel : cpStart ≤ next + fuel := by omega
        obtain ⟨stop, hlines, hnone, hsome⟩ := analyzeFrom_stops fuel next hnextFuel
        simp only [analyzeFrom, if_neg hend, hdec, hline]
        exact ⟨stop, ⟨hoffset, hpos, next, hdescribes, hlines⟩, hnone, hsome⟩

/-! ## The analysis -/

section
variable {mode : EntryLenMode} {vm : VM} {t : Tables}

theorem analyze_of_scan_error {r : FaultRecord} (h : loaderScan mode vm = .error r) : analyze mode vm =
    { lines := [], consts := [], fault := some { raised := { code := r.code, info := r.info }, pos := r.pc0 } } := by
  simp only [analyze, h]

/-- After a scan that succeeds, the analysis is the linear decode's, and the constant lines where that finds no fault. -/
theorem analyze_of_scan_ok (h : loaderScan mode vm = .ok t) : analyze mode vm =
    { lines := (analyzeFrom vm.pb t.cpStart t.cpStart 4).1
      consts := if (analyzeFrom vm.pb t.cpStart t.cpStart 4).2 = none then constLines vm.width vm.pb t else []
      fault := (analyzeFrom vm.pb t.cpStart t.cpStart 4).2 } := by
  simp only [analyze, h]
  split
  next heq => simp only [heq, reduceCtorEq, if_false]
  next heq => simp only [heq, if_true]

theorem length_constLines (w : Width) (pb : List Byte) (t : Tables) : (constLines w pb t).length = t.cp.length := by
  simp [constLines]

/-- Constant line k shows record k of the pool. -/
theorem constLines_getElem? {k : Nat} {line : ConstLine} (hscan : loaderScan mode vm = .ok t)
    (h : (constLines vm.width vm.pb t)[k]? = some line) :
    line.index = k ∧ t.cp[k]? = some line.value ∧ line.bytes = recordBytes vm.width vm.pb t.cpStart k := by
  obtain ⟨hcp, -⟩ := exists_scanReaches_of_loaderScan_ok hscan
  obtain ⟨hk, -⟩ := List.getElem?_eq_some_iff.mp h
  rw [length_constLines] at hk
  rw [constLines, List.getElem?_map, List.getElem?_range hk] at h
  cases h
  have hrecord : k < recordCount vm.width vm.pb t.cpStart := by simpa [hcp, constantPool] using hk
  refine ⟨rfl, ?_, rfl⟩
  rw [hcp, constantPool, List.getElem?_map, List.getElem?_range hrecord]
  rfl

end

/-! ## The loader's faults -/

theorem scanHeader_error_code {mode : EntryLenMode} {n pos : Nat} {found : Found} {len id : Int} {r : FaultRecord}
    (h : scanHeader mode n found pos len id = .error r) :
    r.code ∈ [FaultCode.procOutOfRange, .duplicateProc, .badLayout] := by
  unfold scanHeader at h
  split at h
  · cases h; simp
  split at h
  · cases h; simp
  · cases h; simp
  split at h
  · cases h; simp
  · cases h

theorem scanFrom_error_code {mode : EntryLenMode} {n : Nat} {bs : List Byte} {pos remaining toFind : Nat}
    {found : Found} {r : FaultRecord} (h : scanFrom mode n bs pos remaining toFind found = .error r) :
    r.code ∈ [FaultCode.truncated, .procOutOfRange, .duplicateProc, .badLayout] := by
  fun_induction scanFrom mode n bs pos remaining toFind found with
  | case1 => cases h
  | case4 | case6 =>
    rename_i ih
    exact ih h
  | case5 =>
    rename_i hhead
    cases h
    exact List.mem_cons_of_mem _ (scanHeader_error_code hhead)
  | case2 | case3 | case7 | case8 | case9 => cases h; simp

theorem loaderScan_error_code {mode : EntryLenMode} {vm : VM} {r : FaultRecord} (h : loaderScan mode vm = .error r) :
    r.code ∈ [FaultCode.truncated, .procOutOfRange, .duplicateProc, .badLayout] := by
  unfold loaderScan at h
  split at h
  next r' hscan =>
    cases h
    exact scanFrom_error_code hscan
  · cases h

/-! ## Where a completed jump goes -/

/-- An instruction that leaves no fault ended with its own state. -/
theorem finish_not_faulted {s t : State} {r : Checked State} (h : s.finish r = .next t)
    (ht : ∀ e, t.status ≠ .faulted e) : ∃ u, r = .ok u ∧ t = u.emitTrace := by
  obtain hok | ⟨e, -, rfl⟩ := finish_cases h
  · exact hok
  · exact absurd rfl (ht _)

/-- The engine's target is the exact sum that the analyzer prints (R113, R186). -/
theorem toNat_jumpTarget {s : State} {next target : U64} {offset : S16} (hnext : s.pcAfter 3 = .ok next)
    (h : jumpTarget next offset = .ok target) : (target.toNat : Int) = (s.pc.toNat : Int) + 3 + offset.toInt := by
  obtain ⟨hlt, rfl⟩ := pcAfter_ok hnext
  rw [jumpTarget_ok h, toNat_pcPlus hlt]
  rfl

theorem pc_of_execJump {s t : State} {offset : S16} (h : execJump offset s = .next t)
    (ht : ∀ e, t.status ≠ .faulted e) : (t.pc.toNat : Int) = (s.pc.toNat : Int) + 3 + offset.toInt := by
  obtain ⟨u, hu, rfl⟩ := finish_not_faulted h ht
  obtain ⟨next, hnext, hu⟩ := exists_of_bind_eq_ok hu
  obtain ⟨target, htarget, hu⟩ := exists_of_bind_eq_ok hu
  cases hu
  exact toNat_jumpTarget hnext htarget

theorem pc_of_execJumpIfFalse {s t : State} {offset : S16} (h : execJumpIfFalse offset s = .next t)
    (ht : ∀ e, t.status ≠ .faulted e) (htop : s.top = 0) :
    (t.pc.toNat : Int) = (s.pc.toNat : Int) + 3 + offset.toInt := by
  obtain ⟨u, hu, rfl⟩ := finish_not_faulted h ht
  obtain ⟨⟨v, m⟩, hpop, hu⟩ := exists_of_bind_eq_ok hu
  obtain ⟨next, hnext, hu⟩ := exists_of_bind_eq_ok hu
  obtain ⟨-, hv, -⟩ := popW_ok hpop
  have hfalse : falseData v = true := decide_eq_true (hv.trans htop)
  simp only [hfalse, if_true] at hu
  obtain ⟨target, htarget, hu⟩ := exists_of_bind_eq_ok hu
  cases hu
  exact toNat_jumpTarget hnext htarget

/-! ## The statements -/

/-- Settles O4. -/
theorem stepRunsDecodedInstruction : Obligations.StepRunsDecodedInstruction := fun _ _ _ => step_of_fetch_ok

/-- Settles O34: `staticTarget` is the sum that the engine's target is, where the jump completes. -/
theorem analyzerTargetIsEngineTarget : Obligations.AnalyzerTargetIsEngineTarget := by
  intro s t offset _ hstatus hs
  have ht : ∀ e, t.status ≠ .faulted e := fun e => hstatus ▸ hs e
  exact ⟨fun h => congrArg some (pc_of_execJump h ht).symm,
    fun h htop => congrArg some (pc_of_execJumpIfFalse h ht htop).symm⟩

/-- Settles O57: what is accepted by `staticDecode_eq_ok_iff`, each verdict by what the decoder answers there. -/
theorem staticDecodeAgreesWithEngine : Obligations.StaticDecodeAgreesWithEngine := by
  refine ⟨fun pb pos next i h => ?_, fun pb pos => ⟨fun i rest hwf hput hget hadd hdrop => ?_, fun hend => ?_,
    fun i n h0 hn hwf hdrop => ?_, fun b rest hdrop hb => ?_, fun b rest hdrop hb => ?_, fun text hdrop hnul => ?_,
    fun text rest hdrop hnul hutf8 => ?_⟩⟩
  · obtain ⟨hwf, hcls, rfl, tail, hdrop⟩ := staticDecode_eq_ok_iff.mp h
    have htail : pb.drop (pos + (encode i).length) = tail := by
      rw [← List.drop_drop, hdrop, List.drop_left]
    exact ⟨decode_eq_ok_iff.mpr ⟨hwf, by rw [htail, hdrop]⟩, rfl, cls_eq_implemented_iff.mp hcls⟩
  · have hcls := cls_eq_implemented_iff.mpr ⟨hput, hget, hadd⟩
    exact staticDecode_eq_ok_iff.mpr ⟨hwf, hcls, rfl, rest, hdrop⟩
  · exact staticDecode_of_length_le hend
  · match n with
    | n + 1 => exact staticDecode_of_decode_error hdrop (decode_take_encode hwf h0 hn)
  · exact staticDecode_of_decode_error hdrop (decode_of_unknown rest hb)
  · obtain rfl | rfl | rfl := hb
    · exact staticDecode_of_reserved hdrop (decode_opcodeByte_cons .put rest) rfl
    · exact staticDecode_of_reserved hdrop (decode_opcodeByte_cons .get rest) rfl
    · exact staticDecode_of_reserved hdrop (decode_opcodeByte_cons .opAddAddr rest) rfl
  · exact staticDecode_of_decode_error hdrop
      ((decode_opcodeByte_cons .putString text).trans (decodeFS_of_no_nul hnul))
  · exact staticDecode_of_decode_error hdrop
      ((decode_opcodeByte_cons .putString _).trans (decodeFS_of_not_utf8 (noNul_iff.mpr hnul) hutf8))

/-- Settles O58: the linear decode's lines and stop (`analyzeFrom_stops`), then the pool's records. -/
theorem analyzerLinesAreDecodedInstructions : Obligations.AnalyzerLinesAreDecodedInstructions := by
  intro mode vm t hscan
  obtain ⟨stop, hlines, hnone, hsome⟩ := analyzeFrom_stops (pb := vm.pb) t.cpStart 4 (Nat.le_add_left ..)
  rw [analyze_of_scan_ok hscan]
  refine ⟨stop, hlines, fun hfault => ?_, fun f hfault => ?_⟩
  · simp only at hfault
    rw [if_pos hfault]
    exact ⟨hnone hfault, length_constLines .., fun k line hline => constLines_getElem? hscan hline⟩
  · simp only at hfault
    obtain ⟨hstop, hf⟩ := hsome f hfault
    exact ⟨hstop, if_neg (by simp [hfault]), hf⟩

/-- Settles O59: a fault is the loader scan's, or the linear decode's (`linearFault`). -/
theorem analyzerReportsOnlyItsFaults : Obligations.AnalyzerReportsOnlyItsFaults := by
  intro mode vm
  refine ⟨fun r hscan => ?_, fun f hf => ?_⟩
  · rw [analyze_of_scan_error hscan]
    exact ⟨rfl, rfl, rfl⟩
  · cases hscan : loaderScan mode vm with
    | error r =>
      rw [analyze_of_scan_error hscan] at hf
      cases hf
      have hcode := loaderScan_error_code hscan
      simp only [List.mem_cons] at hcode ⊢
      tauto
    | ok t =>
      rw [analyze_of_scan_ok hscan] at hf
      obtain ⟨stop, -, -, hsome⟩ := analyzeFrom_stops (pb := vm.pb) t.cpStart 4 (Nat.le_add_left ..)
      exact List.mem_append_left [FaultCode.procOutOfRange, .duplicateProc, .badLayout]
        (linearFault_code (hsome f hf).2)

end Sys2Proof.Machine
end

section
/-!
SUPPORT. The words that the statements about one instruction are written in (Sys2Proof/Safety.lean), each reached from
what the instruction's pseudocode answers: a raise (`raises_of_finish`), a push (`pushesAt_of_finish`), a store
(`storesAt_of_finish`); and the step of an instruction whose operands are cut short (`truncatesAt_of_f1`,
`truncatesAt_of_f2`; 30_encoding.md R102, 20_memory.md R73).
-/
namespace Sys2Proof.Machine

/-! ## Pseudocode that has answered or raised so far (R213) -/

@[simp] theorem ok_bind {α β : Type} (a : α) (f : α → Checked β) : (Except.ok a : Checked α) >>= f = f a := rfl

@[simp] theorem raise_bind {α β : Type} (code : FaultCode) (info : Int) (f : α → Checked β) :
    (raise code info : Checked α) >>= f = raise code info := rfl

@[simp] theorem pure_eq_ok {α : Type} (a : α) : (pure a : Checked α) = .ok a := rfl

/-! ## MemRead's faults (R75), and a stack that was cut -/

section
variable {m : Memory} {w : Width} {n k a : Nat} {addr : Int}

theorem read_of_neg (h : addr < 0) : m.read addr n = raise .addressOverflow addr := if_pos h

theorem read_of_len_lt (h0 : 0 ≤ addr) (h : (m.len : Int) < addr + n) : m.read addr n = raise .stackBounds addr := by
  rw [Memory.read, if_neg (by omega), if_pos h]

theorem shortenedTo_refl (hm : m.wf = true) : m.shortenedTo m m.len := ⟨hm, rfl, fun _ _ => rfl⟩

theorem shortenedTo_cut (hm : m.wf = true) (hk : k ≤ m.len) : m.shortenedTo (m.cut k) k := by
  refine ⟨wf_cut hm k, rfl, fun a ha => ?_⟩
  rw [byte?_of_lt (show a < (m.cut k).len from ha), byte?_of_lt (ha.trans_le hk), byte_cut, if_pos ha]

/-- A Data value that lies below a cut is read as before. -/
theorem data_cut (h : a + w.bytes ≤ k) : (m.cut k).data w a = m.data w a :=
  data_congr fun c _ hc => by rw [byte_cut, if_pos (by omega)]

end

/-! ## The pops of an instruction -/

section
variable {s : State}

/-- The first pop takes `top`. -/
theorem popW_stack (h : s.width.bytes ≤ s.stack.len) :
    s.stack.popW s.width = .ok (s.top, s.stack.cut (s.stack.len - s.width.bytes)) := popW_of_le h

/-- The second pop takes `second`. -/
theorem popW_popped (h : 2 * s.width.bytes ≤ s.stack.len) :
    (s.stack.cut (s.stack.len - s.width.bytes)).popW s.width =
      .ok (s.second, s.stack.cut (s.stack.len - 2 * s.width.bytes)) := by
  have hlen : s.stack.len - s.width.bytes - s.width.bytes = s.stack.len - 2 * s.width.bytes := by omega
  rw [popW_of_le (by rw [len_cut]; omega), len_cut, hlen, data_cut (by omega), cut_cut _ (by omega)]
  rfl

/-- With one Data value on the stack it is the second pop that lacks bytes (R139, R161). -/
theorem popW_popped_of_lt (h : s.width.bytes ≤ s.stack.len) (h2 : s.stack.len < 2 * s.width.bytes) :
    (s.stack.cut (s.stack.len - s.width.bytes)).popW s.width =
      raise .stackBounds ((s.stack.len : Int) - s.width.bytes) := by
  rw [popW_of_lt (by rw [len_cut]; omega), len_cut, Int.ofNat_sub h]

end

/-! ## How an instruction ends, in the words of the statements -/

section
variable {s : State} {i : Instr} {r : Checked State}

theorem raises_of_finish {code : FaultCode} {info : Int} (hexec : exec i s = s.finish r) (hr : r = raise code info) :
    s.raises i code info :=
  ⟨(s.takeFault { code := code, info := info }).emitTrace, by rw [hexec, hr]; rfl, rfl, rfl, rfl⟩

/-- A push on what is left of S below `keep` is the push that `pushesAt` describes. -/
theorem pushesAt_of_finish {n keep : Nat} {v : Int} {m0 m : Memory} (hexec : exec i s = s.finish r)
    (hr : r = .ok { s with stack := m, pc := s.pcPlus n }) (hcut : s.stack.shortenedTo m0 keep)
    (hpush : m0.pushW s.maxStack s.width v = .ok m) (hv : inRange s.width v = true) : s.pushesAt i n keep v := by
  obtain ⟨hwf0, rfl, hlow0⟩ := hcut
  obtain ⟨hwf, hlen, -, hdata, hlow⟩ := pushW_spec hwf0 hpush
  refine ⟨m, by rw [hexec, hr]; rfl, hwf, hlen, hdata.trans (narrow_of_inRange hv), fun a ha => ?_⟩
  rw [← hlow0 a ha, byte?_of_lt ha, byte?_of_lt (hlen ▸ ha.trans_le (Nat.le_add_right ..)), hlow a ha]

/-- A write to what is left of S below `keep` is the store that `storesAt` describes. -/
theorem storesAt_of_finish {inp : List Int} {keep : Nat} {a v : Int} {m0 m : Memory}
    (hexec : exec i s = State.finish { s with input := inp } r)
    (hr : r = .ok { s with stack := m, pc := s.pcPlus 1, input := inp }) (hcut : s.stack.shortenedTo m0 keep)
    (hwrite : m0.write s.maxStack a s.width.bytes (wrap s.width v) = .ok m) (hv : inRange s.width v = true) :
    s.storesAt i keep inp a.toNat v := by
  obtain ⟨hwf0, rfl, hlow0⟩ := hcut
  obtain ⟨ha0, -, -⟩ := write_ok hwrite
  have hread := read_write_same hwf0 (wrap_lt_bytes s.width v) hwrite
  obtain ⟨-, -, hbytes⟩ := read_ok hread
  refine ⟨m, ?_, wf_write hwf0 hwrite, len_write hwrite, ?_, fun c hc => ?_⟩
  · rw [hexec, hr]; rfl
  · rw [Memory.data, ← hbytes, sext_wrap, narrow_of_inRange hv]
  · rw [byte?_write_outside hwf0 hwrite (by omega)]
    split
    · next hold => exact hlow0 c hold
    · rfl

end

/-! ## Operands cut short (R73, R102) -/

section
variable {s : State} {op : Byte} {rest : List Byte} {pos : Nat} {o : Opcode}

theorem pbByte_of_lt {pb : List Byte} (h : pos < pb.length) : pbByte pb pos = .ok pb[pos] := by
  rw [pbByte, if_neg (by omega), Int.toNat_natCast, List.getD_eq_getElem _ _ h]

theorem fetchS16_of_le (h : pos + 2 ≤ s.pb.length) : ∃ v, s.fetchS16 pos = .ok v := by
  have hnext : pbByte s.pb ((pos : Int) + 1) = .ok s.pb[pos + 1] := pbByte_of_lt (pos := pos + 1) (by omega)
  refine ⟨(s16 s.pb[pos] s.pb[pos + 1]).toInt, ?_⟩
  simp only [State.fetchS16, pbS16, pbByte_of_lt (show pos < s.pb.length by omega), hnext, ok_bind, pure_eq_ok]

/-- An operand that the program buffer ends in faults at the end: there its first missing byte is. -/
theorem fetchS16_of_cut (h : pos ≤ s.pb.length) (hcut : s.pb.length < pos + 2) :
    s.fetchS16 pos = raise .truncated s.pb.length := by
  obtain heq | hlt := h.eq_or_lt
  · simp only [State.fetchS16, pbS16, heq, pbByte_of_length_le le_rfl, raise_bind]
  · have hend : s.pb.length = pos + 1 := by omega
    have hnext : pbByte s.pb ((pos : Int) + 1) = raise .truncated ((pos + 1 : Nat) : Int) :=
      pbByte_of_length_le hend.le
    simp only [State.fetchS16, pbS16, pbByte_of_lt hlt, hnext, ok_bind, raise_bind, hend]

theorem length_of_drop (h : s.pb.drop s.pc.toNat = op :: rest) : s.pb.length = s.pc.toNat + 1 + rest.length := by
  have hlen := congrArg List.length h
  rw [List.length_drop, List.length_cons] at hlen
  omega

/-- A running step whose opcode byte is there and whose operands are not raises what the operand reads raise (R109). -/
theorem truncatesAt_of_operandReads {n : Nat}
    (hdec : ∀ rest : List Byte, rest.length < n → decodeOperands o rest = .error .truncated)
    (hreads : ∀ rest : List Byte, s.pb.length = s.pc.toNat + 1 + rest.length → rest.length < n →
      s.operandReads o = raise .truncated s.pb.length) : s.truncatesAt (opcodeByte o) n := by
  intro hs rest hdrop hrest
  have hfetch : s.fetch = .error .truncated := by
    rw [State.fetch, decodeAt, hdrop, decode_opcodeByte_cons, hdec rest hrest]
  have hraise : s.fetchRaise .truncated = { code := .truncated, info := s.pb.length } := by
    simp only [State.fetchRaise, State.truncatedRaise, pbByte_of_drop hdrop, opcodeOf_opcodeByte,
      hreads rest (length_of_drop hdrop) hrest, raise]
  have hstep := stepRaises_of_fetch_error hs hfetch
  rwa [hraise] at hstep

theorem decodeOperands_of_f1_short (ho : o.format = .f1) (h : rest.length < 2) :
    decodeOperands o rest = .error .truncated := by
  cases o with
  | pushValueLocalVar | pushValueMainVar | pushAddressLocalVar | pushAddressMainVar | pushConstant
  | callProc | jump | jumpIfFalse => exact decodeF1_of_short h
  | _ => exact absurd ho (by decide)

theorem decodeOperands_of_f2_short (ho : o.format = .f2) (h : rest.length < 4) :
    decodeOperands o rest = .error .truncated := by
  cases o with
  | pushValueGlobalVar | pushAddressGlobalVar => exact decodeF2_of_short h
  | _ => exact absurd ho (by decide)

/-- JumpIfFalse is left out: its pop comes before its operand (R109, R185). -/
theorem truncatesAt_of_f1 (ho : o.format = .f1) (hpop : o ≠ .jumpIfFalse) : s.truncatesAt (opcodeByte o) 2 := by
  refine truncatesAt_of_operandReads (fun _ => decodeOperands_of_f1_short ho) fun rest hlen hrest => ?_
  have hread : s.fetchS16 (s.pc.toNat + 1) = raise .truncated s.pb.length :=
    fetchS16_of_cut (by omega) (by omega)
  simp only [State.operandReads, ho, hread, raise_bind]

/-- The operand that the end of the buffer cuts is the first or the second one. -/
theorem truncatesAt_of_f2 (ho : o.format = .f2) : s.truncatesAt (opcodeByte o) 4 := by
  refine truncatesAt_of_operandReads (fun _ => decodeOperands_of_f2_short ho) fun rest hlen hrest => ?_
  by_cases hfirst : rest.length < 2
  · have hread : s.fetchS16 (s.pc.toNat + 1) = raise .truncated s.pb.length :=
      fetchS16_of_cut (by omega) (by omega)
    simp only [State.operandReads, ho, hread, raise_bind]
  · obtain ⟨v, hread⟩ : ∃ v, s.fetchS16 (s.pc.toNat + 1) = .ok v := fetchS16_of_le (by omega)
    have hread2 : s.fetchS16 (s.pc.toNat + 3) = raise .truncated s.pb.length :=
      fetchS16_of_cut (by omega) (by omega)
    simp only [State.operandReads, ho, hread, hread2, ok_bind, raise_bind]

end

end Sys2Proof.Machine
end

section
/-!
SUPPORT. The stack-access instructions (40_stack_access.md R132 to R142): what the two shared shapes and the three
instructions with pops answer, equation by equation, and from these each one's cases. The statements of the family are
settled at the end.
-/
namespace Sys2Proof.Machine

/-! ## PushValue and PushAddress -/

section
variable {s : State} {i : Instr} {n : Nat} {b : Base} {addr : S16} {f : U64} {ea v : Int} {m : Memory}
  {code : FaultCode} {info : Int}

theorem ea_of_base (hb : s.baseOf b = .ok f) : s.ea b addr = s.address ((f.toNat : Int) + addr.toInt) := by
  rw [State.ea, hb, ok_bind]

theorem ea_of_base_raise (hb : s.baseOf b = raise code info) : s.ea b addr = raise code info := by
  rw [State.ea, hb, raise_bind]

theorem pushValue_of_ea_raise (hpc : s.pc.toNat + n < 2 ^ 64) (h : s.ea b addr = raise code info) :
    s.pushValue n b addr = raise code info := by
  simp only [State.pushValue, pcAfter_of_lt hpc, h, ok_bind, raise_bind]

theorem pushAddress_of_ea_raise (hpc : s.pc.toNat + n < 2 ^ 64) (h : s.ea b addr = raise code info) :
    s.pushAddress n b addr = raise code info := by
  simp only [State.pushAddress, pcAfter_of_lt hpc, h, ok_bind, raise_bind]

theorem pushValue_of_read_raise (hpc : s.pc.toNat + n < 2 ^ 64) (hea : s.ea b addr = .ok ea)
    (h : s.stack.read ea s.width.bytes = raise code info) : s.pushValue n b addr = raise code info := by
  simp only [State.pushValue, pcAfter_of_lt hpc, hea, h, ok_bind, raise_bind]

/-- PushValue* whose read is legal ends as its push ends. -/
theorem pushValue_of_read (hpc : s.pc.toNat + n < 2 ^ 64) (hea : s.ea b addr = .ok ea) (h0 : 0 ≤ ea)
    (h : ea + s.width.bytes ≤ s.stack.len) :
    s.pushValue n b addr = (do
      let m ← s.stack.pushW s.maxStack s.width (s.stack.data s.width ea.toNat)
      return { s with stack := m, pc := s.pcPlus n }) := by
  have hread := read_of_le (m := s.stack) (n := s.width.bytes) h0 (by omega)
  simp only [State.pushValue, pcAfter_of_lt hpc, hea, hread, ok_bind]
  rfl

theorem pushAddress_of_value_raise (hpc : s.pc.toNat + n < 2 ^ 64) (hea : s.ea b addr = .ok ea)
    (h : addrValue s.width ea = raise code info) : s.pushAddress n b addr = raise code info := by
  simp only [State.pushAddress, pcAfter_of_lt hpc, hea, h, ok_bind, raise_bind]

/-- PushAddress* whose address fits a Data value ends as its push ends. -/
theorem pushAddress_of_value (hpc : s.pc.toNat + n < 2 ^ 64) (hea : s.ea b addr = .ok ea) (h0 : 0 ≤ ea)
    (h : ea < (2 : Int) ^ (s.width.bits - 1)) :
    s.pushAddress n b addr = (do
      let m ← s.stack.pushW s.maxStack s.width ea
      return { s with stack := m, pc := s.pcPlus n }) := by
  simp only [State.pushAddress, pcAfter_of_lt hpc, hea, addrValue_of_lt h0 h, ok_bind]

/-- An address that fits a Data value is below 2^64. -/
theorem not_tooWide_of_fits (h : ea < (2 : Int) ^ (s.width.bits - 1)) : ¬ s.tooWide ea := by
  rintro ⟨-, hwide⟩
  have hle : (2 : Int) ^ (s.width.bits - 1) ≤ 2 ^ 63 := by cases s.width <;> decide
  omega

/-- What an instruction does that ends by pushing a Data value on S: it faults without room, and completes with it. -/
theorem push_cases {r : Checked State} {keep : Nat} {m0 : Memory} (hexec : exec i s = s.finish r)
    (hr : r = (do
      let m ← m0.pushW s.maxStack s.width v
      return { s with stack := m, pc := s.pcPlus n }))
    (hcut : s.stack.shortenedTo m0 keep) (hv : inRange s.width v = true) :
    (s.maxStack < keep + s.width.bytes → s.raises i .stackOverflow ((keep : Int) + s.width.bytes)) ∧
    (keep + s.width.bytes ≤ s.maxStack → s.pushesAt i n keep v) := by
  have ⟨_, hlen, _⟩ := hcut
  refine ⟨fun hfull => raises_of_finish hexec ?_, fun hroom => ?_⟩
  · rw [hr, pushW_of_lt v (hlen ▸ hfull), raise_bind, hlen]
  · obtain ⟨m, hpush⟩ := pushW_of_le (w := s.width) (m := m0) v (hlen ▸ hroom)
    exact pushesAt_of_finish hexec (by rw [hr, hpush, ok_bind, pure_eq_ok]) hcut hpush hv

/-- R132 to R134, by where the effective address lies. -/
theorem pushValueCases_of_ea (hready : s.ready n) (hexec : exec i s = s.finish (s.pushValue n b addr))
    (hea : s.ea b addr = s.address ea) : s.pushValueCases i n ea := by
  obtain ⟨⟨hwf, hmax⟩, hpc⟩ := hready
  have hpush (h0 : 0 ≤ ea) (h : ea + s.width.bytes ≤ s.stack.len) :=
    have hnw : ¬ s.tooWide ea := not_tooWide_of_le (by omega)
    push_cases hexec (pushValue_of_read hpc (hea.trans (address_of_not_tooWide hnw)) h0 h) (shortenedTo_refl hwf)
      (data_inRange ..)
  refine ⟨fun h => raises_of_finish hexec ?_, fun h0 hnw h => raises_of_finish hexec ?_,
    fun h0 h => (hpush h0 h).1, fun h0 h => (hpush h0 h).2⟩
  · by_cases hw : s.tooWide ea
    · exact pushValue_of_ea_raise hpc (hea.trans (address_of_tooWide hw))
    · exact pushValue_of_read_raise hpc (hea.trans (address_of_not_tooWide hw)) (read_of_neg (h.resolve_right hw))
  · exact pushValue_of_read_raise hpc (hea.trans (address_of_not_tooWide hnw)) (read_of_len_lt h0 h)

/-- R131, R135 to R137, by whether the effective address fits a Data value. -/
theorem pushAddressCases_of_ea (hready : s.ready n) (hexec : exec i s = s.finish (s.pushAddress n b addr))
    (hea : s.ea b addr = s.address ea) : s.pushAddressCases i n ea := by
  obtain ⟨⟨hwf, -⟩, hpc⟩ := hready
  have hpush (h0 : 0 ≤ ea) (h : ea < (2 : Int) ^ (s.width.bits - 1)) :=
    push_cases hexec (pushAddress_of_value hpc (hea.trans (address_of_not_tooWide (not_tooWide_of_fits h))) h0 h)
      (shortenedTo_refl hwf) (inRange_of_addr h0 h)
  refine ⟨fun h => raises_of_finish hexec ?_, fun h0 h => (hpush h0 h).1, fun h0 h => (hpush h0 h).2⟩
  by_cases hw : s.tooWide ea
  · exact pushAddress_of_ea_raise hpc (hea.trans (address_of_tooWide hw))
  · exact pushAddress_of_value_raise hpc (hea.trans (address_of_not_tooWide hw)) (addrValue_of_out h)

end

/-! ## PushConstant, StoreValue and Swap -/

section
variable {s : State}

/-- PushConstant whose index is in range ends as its push ends (R138). -/
theorem exec_pushConstant_of_constant {k : S16} {v : Int} (hpc : s.pc.toNat + 3 < 2 ^ 64)
    (hk : s.constant k.toInt = .ok v) : exec (.pushConstant k) s = s.finish (do
      let m ← s.stack.pushW s.maxStack s.width v
      return { s with stack := m, pc := s.pcPlus 3 }) := by
  simp only [exec, execPushConstant, pcAfter_of_lt hpc, hk, ok_bind]

/-- R139: the underflow of the first or of the second pop. -/
theorem storeValue_underflow (hpc : s.pc.toNat + 1 < 2 ^ 64) : s.binaryUnderflow .storeValue := by
  refine ⟨fun h => raises_of_finish rfl ?_, fun h h2 => raises_of_finish rfl ?_⟩
  · simp only [pcAfter_of_lt hpc, popW_of_lt h, ok_bind, raise_bind]
  · simp only [pcAfter_of_lt hpc, popW_stack h, popW_popped_of_lt h h2, ok_bind, raise_bind]

/-- StoreValue with two Data values on the stack ends as its write ends (R139). -/
theorem exec_storeValue_of_pops (hpc : s.pc.toNat + 1 < 2 ^ 64) (h : 2 * s.width.bytes ≤ s.stack.len) :
    exec .storeValue s = s.finish (do
      let m ← (s.stack.cut (s.stack.len - 2 * s.width.bytes)).write s.maxStack s.second s.width.bytes
        (wrap s.width s.top)
      return { s with stack := m, pc := s.pcPlus 1 }) := by
  simp only [exec, execStoreValue, pcAfter_of_lt hpc, popW_stack (show s.width.bytes ≤ s.stack.len by omega),
    popW_popped h, ok_bind]

/-- Swap whose read raises, against the length after the pop (R141). -/
theorem swap_raises_of_read {code : FaultCode} {info : Int} (hpc : s.pc.toNat + 1 < 2 ^ 64)
    (h : s.width.bytes ≤ s.stack.len)
    (hread : (s.stack.cut (s.stack.len - s.width.bytes)).read s.top s.width.bytes = raise code info) :
    s.raises .swap code info :=
  raises_of_finish rfl (by simp only [pcAfter_of_lt hpc, popW_stack h, hread, ok_bind, raise_bind])

/-- Swap whose read is legal ends as its push ends (R141): what it reads lies below the cut. -/
theorem exec_swap_of_read (hpc : s.pc.toNat + 1 < 2 ^ 64) (h : s.width.bytes ≤ s.stack.len) (h0 : 0 ≤ s.top)
    (hle : s.top + s.width.bytes ≤ (s.stack.len : Int) - s.width.bytes) :
    exec .swap s = s.finish (do
      let m ← (s.stack.cut (s.stack.len - s.width.bytes)).pushW s.maxStack s.width
        (s.stack.data s.width s.top.toNat)
      return { s with stack := m, pc := s.pcPlus 1 }) := by
  have hread := read_of_le (m := s.stack.cut (s.stack.len - s.width.bytes)) (n := s.width.bytes) h0
    (by rw [len_cut]; omega)
  have hdata : (s.stack.cut (s.stack.len - s.width.bytes)).data s.width s.top.toNat =
      s.stack.data s.width s.top.toNat := data_cut (by omega)
  simp only [exec, execSwap, pcAfter_of_lt hpc, popW_stack h, hread, ok_bind, ← hdata]
  rfl

end

/-! ## Swap after PushAddress (R142) -/

/-- Cutting a pushed value off gives back the stack it was pushed on. -/
theorem cut_of_pushed {m m0 : Memory} (hm : m.wf = true) (hm0 : m0.wf = true) (hlen : m0.len ≤ m.len)
    (hlow : ∀ a, a < m0.len → m.byte? a = m0.byte? a) : m.cut m0.len = m0 := by
  refine memory_ext (wf_cut hm _) hm0 rfl fun a ha => ?_
  rw [len_cut] at ha
  have hsome := hlow a ha
  rw [byte?_of_lt ha, byte?_of_lt (ha.trans_le hlen), Option.some.injEq] at hsome
  rw [byte_cut, if_pos ha, hsome]

/-- The state in which `pushesAt` leaves an instruction of `n` bytes that made the stack `m`. -/
def State.afterPush (s : State) (n : Nat) (m : Memory) : State :=
  { s with stack := m, pc := s.pcPlus n, traceRecords := s.tracesAfter }

section
variable {s : State} {n : Nat} {m : Memory}

@[simp] theorem afterPush_stack : (s.afterPush n m).stack = m := rfl
@[simp] theorem afterPush_width : (s.afterPush n m).width = s.width := rfl
@[simp] theorem afterPush_maxStack : (s.afterPush n m).maxStack = s.maxStack := rfl
@[simp] theorem afterPush_pc : (s.afterPush n m).pc = s.pcPlus n := rfl

theorem ready_afterPush {k : Nat} (hm : m.wf = true) (hmax : m.len ≤ s.maxStack)
    (hpc : s.pc.toNat + (n + k) < 2 ^ 64) : (s.afterPush n m).ready k := by
  refine ⟨⟨hm, hmax⟩, ?_⟩
  rw [afterPush_pc, toNat_pcPlus (by omega)]
  omega

theorem top_afterPush (hlen : m.len = s.stack.len + s.width.bytes) :
    (s.afterPush n m).top = m.data s.width s.stack.len := by
  rw [State.top, afterPush_stack, afterPush_width, hlen, Nat.add_sub_cancel]

/-- Swap pops the address pushed and so pushes what it reads there on the stack before the push. -/
theorem exec_swap_afterPush {ea : Int} (hready : (s.afterPush n m).ready 1)
    (hlen : m.len = s.stack.len + s.width.bytes) (hcut : m.cut s.stack.len = s.stack)
    (hea : m.data s.width s.stack.len = ea) (h0 : 0 ≤ ea) (hle : ea + s.width.bytes ≤ s.stack.len) :
    exec .swap (s.afterPush n m) = (s.afterPush n m).finish (do
      let m' ← s.stack.pushW s.maxStack s.width (s.stack.data s.width ea.toNat)
      return { s.afterPush n m with stack := m', pc := (s.afterPush n m).pcPlus 1 }) := by
  have htop : (s.afterPush n m).top = ea := (top_afterPush hlen).trans hea
  have hbelow : m.len - s.width.bytes = s.stack.len := by rw [hlen, Nat.add_sub_cancel]
  have hdata : m.data s.width ea.toNat = s.stack.data s.width ea.toNat := by
    rw [← hcut, data_cut (by omega)]
  have hexec := exec_swap_of_read (s := s.afterPush n m) hready.2
    (by simp only [afterPush_stack, afterPush_width]; omega) (by rwa [htop])
    (by simp only [htop, afterPush_stack, afterPush_width]; omega)
  simpa only [htop, afterPush_stack, afterPush_width, afterPush_maxStack, hbelow, hcut, hdata] using hexec

end

/-! ## The statements -/

/-- Settles O8: PushValue* with base fp. -/
theorem pushValueLocalVarCases : Obligations.PushValueLocalVarCases := fun _ _ =>
  ⟨rfl, truncatesAt_of_f1 (o := .pushValueLocalVar) rfl nofun,
    fun hready => pushValueCases_of_ea hready rfl (ea_of_base rfl)⟩

/-- Settles O9: PushValue* with the frame of procedure 0. -/
theorem pushValueMainVarCases : Obligations.PushValueMainVarCases := fun _ _ =>
  ⟨rfl, truncatesAt_of_f1 (o := .pushValueMainVar) rfl nofun,
    fun _ hready hf => pushValueCases_of_ea hready rfl (ea_of_base (framePtr_of_frameAt hf))⟩

/-- Settles O10: PushValue* with the frame that the second operand names. -/
theorem pushValueGlobalVarCases : Obligations.PushValueGlobalVarCases := fun _ _ _ =>
  ⟨rfl, truncatesAt_of_f2 (o := .pushValueGlobalVar) rfl,
    fun hready h => raises_of_finish rfl (pushValue_of_ea_raise hready.2 (ea_of_base_raise (framePtr_of_out h))),
    fun hready h => raises_of_finish rfl (pushValue_of_ea_raise hready.2 (ea_of_base_raise (framePtr_of_unset h))),
    fun _ hready hf => pushValueCases_of_ea hready rfl (ea_of_base (framePtr_of_frameAt hf))⟩

/-- Settles O11: PushAddress* with base fp. -/
theorem pushAddressLocalVarCases : Obligations.PushAddressLocalVarCases := fun _ _ =>
  ⟨rfl, truncatesAt_of_f1 (o := .pushAddressLocalVar) rfl nofun,
    fun hready => pushAddressCases_of_ea hready rfl (ea_of_base rfl)⟩

/-- Settles O12: PushAddress* with the frame of procedure 0. -/
theorem pushAddressMainVarCases : Obligations.PushAddressMainVarCases := fun _ _ =>
  ⟨rfl, truncatesAt_of_f1 (o := .pushAddressMainVar) rfl nofun,
    fun _ hready hf => pushAddressCases_of_ea hready rfl (ea_of_base (framePtr_of_frameAt hf))⟩

/-- Settles O13: PushAddress* with the frame that the second operand names. -/
theorem pushAddressGlobalVarCases : Obligations.PushAddressGlobalVarCases := fun _ _ _ =>
  ⟨rfl, truncatesAt_of_f2 (o := .pushAddressGlobalVar) rfl,
    fun hready h => raises_of_finish rfl (pushAddress_of_ea_raise hready.2 (ea_of_base_raise (framePtr_of_out h))),
    fun hready h => raises_of_finish rfl (pushAddress_of_ea_raise hready.2 (ea_of_base_raise (framePtr_of_unset h))),
    fun _ hready hf => pushAddressCases_of_ea hready rfl (ea_of_base (framePtr_of_frameAt hf))⟩

/-- Settles O14: the index is checked first, then the constant is pushed. -/
theorem pushConstantCases : Obligations.PushConstantCases := by
  intro s k
  refine ⟨rfl, truncatesAt_of_f1 (o := .pushConstant) rfl nofun, fun ⟨_, hpc⟩ h => raises_of_finish rfl ?_,
    fun v ⟨⟨hwf, _⟩, hpc⟩ h0 h1 hcp hv => ?_⟩
  · simp only [pcAfter_of_lt hpc, constant_of_out h, ok_bind, raise_bind]
  · exact push_cases (exec_pushConstant_of_constant hpc (constant_of_mem h0 h1 hcp)) rfl (shortenedTo_refl hwf) hv

/-- Settles O15: two pops, then MemWrite on what is left. -/
theorem storeValueCases : Obligations.StoreValueCases := by
  refine ⟨rfl, fun s ⟨⟨hwf, _⟩, hpc⟩ => ⟨storeValue_underflow hpc, fun h => ?_⟩⟩
  have hexec := exec_storeValue_of_pops hpc h
  refine ⟨fun hneg => raises_of_finish hexec ?_, fun h0 hmax => raises_of_finish hexec ?_, fun h0 hmax => ?_⟩
  · rw [write_of_neg hneg, raise_bind]
  · rw [write_of_max_lt h0 hmax, raise_bind]
  · have hwrite := write_of_le (m := s.stack.cut (s.stack.len - 2 * s.width.bytes)) (n := s.width.bytes)
      (wrap s.width s.top) h0 (show s.second.toNat + s.width.bytes ≤ s.maxStack by omega)
    exact storesAt_of_finish hexec (by rw [hwrite]; rfl) (shortenedTo_cut hwf (Nat.sub_le ..)) hwrite
      (data_inRange ..)

/-- Settles O16: what pop_W leaves is S cut by W bytes. -/
theorem popCases : Obligations.PopCases := by
  refine ⟨rfl, fun s ⟨⟨hwf, _⟩, hpc⟩ => ⟨fun h => raises_of_finish rfl ?_, fun h => ?_⟩⟩
  · simp only [pcAfter_of_lt hpc, popW_of_lt h, ok_bind, raise_bind]
  · refine ⟨_, ?_, shortenedTo_cut hwf (Nat.sub_le ..)⟩
    simp only [exec, execPop, pcAfter_of_lt hpc, popW_stack h, ok_bind]
    rfl

/-- Settles O17: after the pop there is room for the push, so only the pop and the read can fault. -/
theorem swapCases : Obligations.SwapCases := by
  refine ⟨rfl, fun s ⟨⟨hwf, hmax⟩, hpc⟩ => ⟨fun h => raises_of_finish rfl ?_,
    fun h => ⟨fun hneg => ?_, fun h0 hlen => ?_, fun h0 hle => ?_⟩⟩⟩
  · simp only [pcAfter_of_lt hpc, popW_of_lt h, ok_bind, raise_bind]
  · exact swap_raises_of_read hpc h (read_of_neg hneg)
  · exact swap_raises_of_read hpc h (read_of_len_lt h0 (by rw [len_cut]; omega))
  · have hroom : s.stack.len - s.width.bytes + s.width.bytes ≤ s.maxStack := by
      rw [Nat.sub_add_cancel h]; exact hmax
    exact (push_cases (exec_swap_of_read hpc h h0 hle) rfl (shortenedTo_cut hwf (Nat.sub_le ..))
      (data_inRange ..)).2 hroom

/-- Settles O18: what is left below the address pushed is the stack that PushValueLocalVar reads and pushes on. -/
theorem pushAddressThenSwapIsPushValue : Obligations.PushAddressThenSwapIsPushValue := by
  intro s addr hready hroom ea
  obtain ⟨hstack, hpc⟩ := hready
  have hready3 : s.ready 3 := ⟨hstack, by omega⟩
  obtain ⟨-, -, haddress⟩ := pushAddressLocalVarCases s addr
  obtain ⟨-, -, hvalue⟩ := pushValueLocalVarCases s addr
  obtain ⟨hpaRaise, -, hpaPush⟩ := haddress hready3
  obtain ⟨hpvRaise, hpvBounds, -⟩ := hvalue hready3
  refine ⟨fun hneg => ⟨hpaRaise (.inl hneg), hpvRaise (.inl hneg)⟩, fun hbig => hpaRaise (.inr hbig),
    fun h0 hfits => ?_⟩
  obtain ⟨m, hexec, hwf, hlen, hdata, hlow⟩ := hpaPush h0 hfits hroom
  have hcut : m.cut s.stack.len = s.stack := cut_of_pushed hwf hstack.1 (by omega) hlow
  have hready1 : (s.afterPush 3 m).ready 1 := ready_afterPush hwf (hlen ▸ hroom) hpc
  refine ⟨s.afterPush 3 m, hexec, rfl, fun hle => ?_, fun hbounds => ⟨?_, ?_⟩⟩
  · have hea : s.ea .current addr = .ok ea :=
      (ea_of_base rfl).trans (address_of_not_tooWide (not_tooWide_of_fits hfits))
    have hpushValue : exec (.pushValueLocalVar addr) s = s.finish _ :=
      congrArg s.finish (pushValue_of_read hready3.2 hea h0 hle)
    have hswap := exec_swap_afterPush hready1 hlen hcut hdata h0 hle
    obtain ⟨m', hpush⟩ := pushW_of_le (w := s.width) (s.stack.data s.width ea.toNat) hroom
    rw [hpush, ok_bind] at hpushValue hswap
    exact ⟨_, _, hswap, hpushValue, rfl, rfl, rfl⟩
  · have htop : (s.afterPush 3 m).top = ea := (top_afterPush hlen).trans hdata
    obtain ⟨-, hcases⟩ := swapCases
    obtain ⟨-, hswap⟩ := hcases _ hready1
    simp only [afterPush_stack, afterPush_width, htop] at hswap
    obtain ⟨-, hbound, -⟩ := hswap (by omega)
    exact hbound h0 (by omega)
  · exact hpvBounds h0 (not_tooWide_of_fits hfits) hbounds

end Sys2Proof.Machine
end

section
/-!
SUPPORT. The host I/O instructions (41_io.md R147 to R151). InputToAddr that has popped its address waits, or ends as
its store ends with the answer taken (`exec_inputToAddr_of_answer`, D45); PutString's two faults come from the fetch,
so its bytes are followed from the decoder. The statements of the family are settled at the end.
-/
namespace Sys2Proof.Machine

/-! ## InputToAddr -/

section
variable {s : State} {rest : List Int} {a v : Int} {pc : U64} {m m' : Memory} {code : FaultCode} {info : Int}

/-- Pseudocode that begins with `inp` as the host's answers left, and raises. -/
theorem raisesLeaving_of_finish {i : Instr} {r : Checked State} {inp : List Int}
    (hexec : exec i s = State.finish { s with input := inp } r) (hr : r = raise code info) :
    s.raisesLeaving i code info inp :=
  ⟨(State.takeFault { s with input := inp } { code := code, info := info }).emitTrace, by rw [hexec, hr]; rfl,
    rfl, rfl, rfl⟩

/-- R149: an underflow raises before the host is asked. -/
theorem inputToAddr_underflow (hpc : s.pc.toNat + 1 < 2 ^ 64) (h : s.stack.len < s.width.bytes) :
    s.raises .inputToAddr .stackBounds s.stack.len := by
  refine raises_of_finish (r := raise .stackBounds s.stack.len) ?_ rfl
  simp only [exec, execInputToAddr, pcAfter_of_lt hpc, popW_of_lt h, ok_bind, raise_bind]
  rfl

theorem exec_inputToAddr_of_no_answer (hpc : s.pc.toNat + 1 < 2 ^ 64) (h : s.width.bytes ≤ s.stack.len)
    (hin : s.input = []) : exec .inputToAddr s = .next s := by
  simp only [exec, execInputToAddr, pcAfter_of_lt hpc, popW_stack h, ok_bind, pure_eq_ok, hin, State.waitForInput]

/-- With an answer, InputToAddr is its store in the state from which the answer is taken (R149, D45). -/
theorem exec_inputToAddr_of_answer (hpc : s.pc.toNat + 1 < 2 ^ 64) (h : s.width.bytes ≤ s.stack.len)
    (hin : s.input = v :: rest) :
    exec .inputToAddr s = State.finish { s with input := rest } (State.storeInput { s with input := rest } (s.pcPlus 1)
      (s.stack.cut (s.stack.len - s.width.bytes)) s.top v) := by
  simp only [exec, execInputToAddr, pcAfter_of_lt hpc, popW_stack h, ok_bind, pure_eq_ok, hin]

theorem storeInput_of_tooWide (hw : s.tooWide ((s.fp.toNat : Int) + a)) :
    s.storeInput pc m a v = raise .addressOverflow ((s.fp.toNat : Int) + a) := by
  rw [State.storeInput, address_of_tooWide hw, raise_bind]

theorem storeInput_of_write_raise (hw : ¬ s.tooWide ((s.fp.toNat : Int) + a))
    (h : m.write s.maxStack ((s.fp.toNat : Int) + a) s.width.bytes (wrap s.width v) = raise code info) :
    s.storeInput pc m a v = raise code info := by
  rw [State.storeInput, address_of_not_tooWide hw, ok_bind, h, raise_bind]

theorem storeInput_of_write (hw : ¬ s.tooWide ((s.fp.toNat : Int) + a))
    (h : m.write s.maxStack ((s.fp.toNat : Int) + a) s.width.bytes (wrap s.width v) = .ok m') :
    s.storeInput pc m a v = .ok { s with stack := m', pc := pc } := by
  rw [State.storeInput, address_of_not_tooWide hw, ok_bind, h, ok_bind, pure_eq_ok]

end

/-! ## PutString -/

section
variable {s : State} {text rest : List Byte}

theorem exec_putString_of_utf8 (hutf8 : wellFormedUTF8 text = true)
    (hpc : s.pc.toNat + (text.length + 2) < 2 ^ 64) :
    exec (.putString text) s =
      s.finish (.ok { s.emit (.outString text) with pc := s.pcPlus (text.length + 2) }) := by
  simp only [exec, execPutString, hutf8, if_true, pcAfter_of_lt hpc, ok_bind, pure_eq_ok]

/-- At PutString's opcode byte the fetch answers what its format's decoder answers (R94, R106). -/
theorem fetch_of_putString (hdrop : s.pb.drop s.pc.toNat = 0x1B#8 :: rest) :
    s.fetch = decodeFS .putString rest := by
  rw [State.fetch, decodeAt, hdrop]
  exact decode_opcodeByte_cons .putString rest

/-- A PutString cut short raises at the end of the program buffer, where its 0x00 is missing (R150). -/
theorem truncatedRaise_of_putString (hdrop : s.pb.drop s.pc.toNat = 0x1B#8 :: rest) :
    s.truncatedRaise = { code := .truncated, info := s.pb.length } := by
  have hop : opcodeOf 0x1B#8 = some .putString := opcodeOf_opcodeByte .putString
  have hreads : s.operandReads .putString = raise .truncated s.pb.length := rfl
  simp only [State.truncatedRaise, pbByte_of_drop hdrop, hop, hreads, raise]

theorem putString_stepRaises_truncated (hs : s.status = .running) (hdrop : s.pb.drop s.pc.toNat = 0x1B#8 :: text)
    (hnul : 0#8 ∉ text) : s.stepRaises .truncated s.pb.length := by
  have hstep := stepRaises_of_fetch_error hs ((fetch_of_putString hdrop).trans (decodeFS_of_no_nul hnul))
  rwa [State.fetchRaise, truncatedRaise_of_putString hdrop] at hstep

theorem putString_stepRaises_badUtf8 (hs : s.status = .running)
    (hdrop : s.pb.drop s.pc.toNat = 0x1B#8 :: (text ++ 0#8 :: rest)) (hnul : 0#8 ∉ text)
    (hutf8 : wellFormedUTF8 text = false) : s.stepRaises .badUtf8 ((s.pc.toNat : Int) + 1) :=
  stepRaises_of_fetch_error hs ((fetch_of_putString hdrop).trans (decodeFS_of_not_utf8 (noNul_iff.mpr hnul) hutf8))

end

/-! ## The statements -/

/-- Settles O19: one pop, and what it took is emitted. -/
theorem outputValueCases : Obligations.OutputValueCases := by
  refine ⟨rfl, fun s ⟨⟨hwf, _⟩, hpc⟩ => ⟨fun h => raises_of_finish rfl ?_, fun h => ?_⟩⟩
  · simp only [pcAfter_of_lt hpc, popW_of_lt h, ok_bind, raise_bind]
  · refine ⟨_, ?_, shortenedTo_cut hwf (Nat.sub_le ..)⟩
    simp only [exec, execOutputValue, pcAfter_of_lt hpc, popW_stack h, ok_bind]
    rfl

/-- Settles O20: one pop, the answer taken, then MemWrite at fp plus the address popped on what is left. -/
theorem inputToAddrCases : Obligations.InputToAddrCases := by
  refine ⟨rfl, fun s ⟨⟨hwf, _⟩, hpc⟩ => ⟨inputToAddr_underflow hpc, ?_⟩⟩
  intro v rest h hin hv ea
  have hexec := exec_inputToAddr_of_answer hpc h hin
  refine ⟨fun hout => raisesLeaving_of_finish hexec ?_, fun h0 hnw hmax => raisesLeaving_of_finish hexec ?_,
    fun h0 hmax => ?_⟩
  · by_cases hw : s.tooWide ea
    · exact storeInput_of_tooWide hw
    · exact storeInput_of_write_raise hw (write_of_neg (hout.resolve_right hw))
  · exact storeInput_of_write_raise hnw (write_of_max_lt h0 hmax)
  · have hnw : ¬ s.tooWide ea := not_tooWide_of_le (by omega)
    have hwrite := write_of_le (m := s.stack.cut (s.stack.len - s.width.bytes)) (n := s.width.bytes)
      (wrap s.width v) h0 (show ea.toNat + s.width.bytes ≤ s.maxStack by omega)
    exact storesAt_of_finish hexec (storeInput_of_write hnw hwrite) (shortenedTo_cut hwf (Nat.sub_le ..)) hwrite hv

/-- Settles O21. -/
theorem inputWaitChangesNothing : Obligations.InputWaitChangesNothing :=
  fun _ ⟨_, hpc⟩ => exec_inputToAddr_of_no_answer hpc

/-- Settles O22: the fetch refuses a string without its 0x00 or with bad UTF-8, so what is executed is emitted whole. -/
theorem putStringCases : Obligations.PutStringCases := fun _ _ =>
  ⟨rfl, fun _ hutf8 hpc => exec_putString_of_utf8 hutf8 hpc, putString_stepRaises_truncated,
    fun _ => putString_stepRaises_badUtf8⟩

end Sys2Proof.Machine
end

section
/-!
SUPPORT. The ALU (42_alu.md R156 to R171). The datapath's result is the one Data value congruent to the exact result
(`aluResult_eq_narrow`, `narrow_unique`); a unary and a binary instruction each end as their push ends
(`unary_of_pop`, `binary_of_pops`), and a push after a pop always has room. The statements of the family are settled at
the end.
-/
namespace Sys2Proof.Machine

/-! ## Residues of a power of two -/

section
variable {w : Width} {x y : Int}

/-- The low `a` bits of the low `b` bits of an integer are its low `a` bits. -/
theorem toNat_emod_two_pow_mod {a b : Nat} (h : a ≤ b) (x : Int) :
    (x % 2 ^ b).toNat % 2 ^ a = (x % 2 ^ a).toNat := by
  have hb : 0 ≤ x % 2 ^ b := Int.emod_nonneg x (by positivity)
  have hlow : x % 2 ^ b % 2 ^ a = x % 2 ^ a := Int.emod_emod_of_dvd x (pow_dvd_pow 2 h)
  rw [← hlow, Int.toNat_emod hb (by positivity), Int.toNat_pow_of_nonneg (by decide)]
  rfl

theorem bits_le_sixtyFour (w : Width) : w.bits ≤ 64 := by cases w <;> decide

theorem one_le_bits (w : Width) : 1 ≤ w.bits := by cases w <;> decide

/-- W bytes of the 64-bit accumulator are the N-bit pattern of the exact result (R156). -/
theorem wrap64_mod (w : Width) (x : Int) : wrap64 x % 2 ^ w.bits = wrap w x :=
  toNat_emod_two_pow_mod (bits_le_sixtyFour w) x

theorem aluResult_eq_narrow (w : Width) (x : Int) : aluResult w x = narrow w x := by
  rw [aluResult, wrap64_mod, sext_wrap]

theorem wrap_modEq (w : Width) (x : Int) : (wrap w x : Int) ≡ x [ZMOD 2 ^ w.bits] := by
  rw [wrap, Int.toNat_of_nonneg (Int.emod_nonneg x (by positivity))]
  exact Int.mod_modEq x _

/-- Reading a pattern as signed takes off 2^N or nothing. -/
theorem sext_modEq (w : Width) (v : Nat) : sext w v ≡ v [ZMOD 2 ^ w.bits] := by
  rw [sext]
  split
  · rfl
  · exact Int.sub_modulus_modEq_iff.mpr rfl

theorem narrow_modEq (w : Width) (x : Int) : narrow w x ≡ x [ZMOD 2 ^ w.bits] :=
  (sext_modEq w (wrap w x)).trans (wrap_modEq w x)

theorem narrow_congr (h : y ≡ x [ZMOD 2 ^ w.bits]) : narrow w y = narrow w x := by
  rw [narrow, narrow, wrap, wrap, h.eq]

/-- No two Data values are congruent (R157). -/
theorem narrow_unique (hy : inRange w y = true) (h : y ≡ x [ZMOD 2 ^ w.bits]) : y = narrow w x :=
  (narrow_of_inRange hy).symm.trans (narrow_congr h)

end

/-! ## A condition as a Data value -/

/-- Bit 0 of the two's-complement pattern is the oddness of the signed value (R160). -/
theorem oddBit_eq (w : Width) (v : Int) : oddBit w v = decide (v % 2 = 1) := by
  have hbit : wrap w v % 2 = (v % 2).toNat := toNat_emod_two_pow_mod (one_le_bits w) v
  rw [oddBit, Nat.testBit_zero, hbit, decide_eq_decide]
  omega

theorem boolData_decide (p : Prop) [Decidable p] : boolData (decide p) = if p then 1 else 0 := by
  by_cases h : p <;> simp [boolData, h]

/-! ## Pop, compute, push -/

section
variable {s : State} {i : Instr} {v : Int}

theorem unary_of_underflow {f : Int → Int} (hpc : s.pc.toNat + 1 < 2 ^ 64) (h : s.stack.len < s.width.bytes) :
    s.unary f = raise .stackBounds s.stack.len := by
  simp only [State.unary, pcAfter_of_lt hpc, popW_of_lt h, ok_bind, raise_bind]

/-- A unary instruction that finds its operand ends as its push ends. -/
theorem unary_of_pop {f : Int → Int} (hpc : s.pc.toNat + 1 < 2 ^ 64) (h : s.width.bytes ≤ s.stack.len) :
    s.unary f = (do
      let m ← (s.stack.cut (s.stack.len - s.width.bytes)).pushW s.maxStack s.width (f s.top)
      return { s with stack := m, pc := s.pcPlus 1 }) := by
  simp only [State.unary, pcAfter_of_lt hpc, popW_stack h, ok_bind]

/-- R159, R160: the pop has made the room that the push needs. -/
theorem unaryCases_of_unary {f : Int → Int} (hready : s.ready 1) (hexec : exec i s = s.finish (s.unary f))
    (hv : inRange s.width (f s.top) = true) : s.unaryCases i (f s.top) := by
  obtain ⟨⟨hwf, hmax⟩, hpc⟩ := hready
  refine ⟨fun h => raises_of_finish hexec (unary_of_underflow hpc h), fun h => ?_⟩
  have hroom : s.stack.len - s.width.bytes + s.width.bytes ≤ s.maxStack := by omega
  exact (push_cases hexec (unary_of_pop hpc h) (shortenedTo_cut hwf (Nat.sub_le ..)) hv).2 hroom

/-- R161: the underflow of the first or of the second pop, whatever the instruction computes. -/
theorem binaryUnderflow_of_binary {f : Int → Int → Checked Int} (hpc : s.pc.toNat + 1 < 2 ^ 64)
    (hexec : exec i s = s.finish (s.binary f)) : s.binaryUnderflow i := by
  refine ⟨fun h => raises_of_finish hexec ?_, fun h h2 => raises_of_finish hexec ?_⟩
  · simp only [State.binary, pcAfter_of_lt hpc, popW_of_lt h, ok_bind, raise_bind]
  · simp only [State.binary, pcAfter_of_lt hpc, popW_stack h, popW_popped_of_lt h h2, ok_bind, raise_bind]

/-- A binary instruction that finds its operands, the right one on top (R171), computes on them, then pushes. -/
theorem binary_of_pops {f : Int → Int → Checked Int} (hpc : s.pc.toNat + 1 < 2 ^ 64)
    (h : 2 * s.width.bytes ≤ s.stack.len) :
    s.binary f = (do
      let v ← f s.second s.top
      let m ← (s.stack.cut (s.stack.len - 2 * s.width.bytes)).pushW s.maxStack s.width v
      return { s with stack := m, pc := s.pcPlus 1 }) := by
  simp only [State.binary, pcAfter_of_lt hpc, popW_stack (show s.width.bytes ≤ s.stack.len by omega), popW_popped h,
    ok_bind]

/-- A binary instruction whose result is the Data value `v`: two pops have made the room that the push needs. -/
theorem pushesAt_of_binary {f : Int → Int → Checked Int} (hready : s.ready 1)
    (hexec : exec i s = s.finish (s.binary f)) (h : 2 * s.width.bytes ≤ s.stack.len)
    (hf : f s.second s.top = .ok v) (hv : inRange s.width v = true) :
    s.pushesAt i 1 (s.stack.len - 2 * s.width.bytes) v := by
  obtain ⟨⟨hwf, hmax⟩, hpc⟩ := hready
  have hroom : s.stack.len - 2 * s.width.bytes + s.width.bytes ≤ s.maxStack := by omega
  have hpush := binary_of_pops (f := f) hpc h
  rw [hf, ok_bind] at hpush
  exact (push_cases hexec hpush (shortenedTo_cut hwf (Nat.sub_le ..)) hv).2 hroom

theorem binaryCases_of_binary {f : Int → Int → Checked Int} (hready : s.ready 1)
    (hexec : exec i s = s.finish (s.binary f)) (hf : f s.second s.top = .ok v) (hv : inRange s.width v = true) :
    s.binaryCases i v :=
  ⟨binaryUnderflow_of_binary hready.2 hexec, fun h => pushesAt_of_binary hready hexec h hf hv⟩

/-- R161 to R163. -/
theorem binaryCases_of_arithmetic {f : Int → Int → Int} (hready : s.ready 1)
    (hexec : exec i s = s.finish (s.arithmetic f)) : s.binaryCases i (narrow s.width (f s.second s.top)) :=
  binaryCases_of_binary hready hexec (congrArg Except.ok (aluResult_eq_narrow ..)) (narrow_inRange ..)

/-- R165 to R170. -/
theorem binaryCases_of_compare {p : Int → Int → Prop} [∀ l r, Decidable (p l r)] (hready : s.ready 1)
    (hexec : exec i s = s.finish (s.compare fun l r => decide (p l r))) :
    s.binaryCases i (if p s.second s.top then 1 else 0) := by
  rw [← boolData_decide]
  exact binaryCases_of_binary hready hexec rfl (boolData_inRange ..)

end

/-! ## The quotient -/

theorem divide_of_zero (w : Width) (l : Int) : divide w l 0 = raise .divZero 0 := rfl

theorem divide_of_ne_zero (w : Width) (l : Int) {r : Int} (h : r ≠ 0) : divide w l r = .ok (narrow w (l.tdiv r)) := by
  rw [divide, if_neg h, aluResult_eq_narrow]

/-! ## The statements -/

/-- Settles O23: the accumulator keeps the low W bytes, and a Data value is determined by its residue. -/
theorem wraparoundLaw : Obligations.WraparoundLaw := fun w x =>
  ⟨aluResult_eq_narrow w x, narrow_inRange w x, (narrow_modEq w x).symm.dvd,
    fun _ hy hdvd => narrow_unique hy (Int.modEq_iff_dvd.mpr hdvd).symm⟩

/-- Settles O24: a unary instruction on the datapath. -/
theorem minusifyCases : Obligations.MinusifyCases := by
  refine ⟨rfl, fun s hready => ?_⟩
  rw [← aluResult_eq_narrow]
  exact unaryCases_of_unary (f := fun v => aluResult s.width (0 - v)) hready rfl (aluResult_inRange ..)

/-- Settles O25: bit 0 of the pattern is the oddness of the signed value. -/
theorem isOddCases : Obligations.IsOddCases := by
  refine ⟨rfl, fun s hready => ?_⟩
  rw [← boolData_decide, ← oddBit_eq s.width]
  exact unaryCases_of_unary (f := fun v => boolData (oddBit s.width v)) hready rfl (boolData_inRange ..)

/-- Settles O26: three binary instructions on the datapath. -/
theorem arithmeticCases : Obligations.ArithmeticCases :=
  ⟨rfl, rfl, rfl, fun _ hready =>
    ⟨binaryCases_of_arithmetic hready rfl, binaryCases_of_arithmetic hready rfl,
      binaryCases_of_arithmetic hready rfl⟩⟩

/-- Settles O27: the zero test stands between the pops and the push. -/
theorem divideCases : Obligations.DivideCases := by
  refine ⟨rfl, fun s hready =>
    ⟨binaryUnderflow_of_binary hready.2 rfl, fun h => ⟨fun hzero => raises_of_finish rfl ?_, fun hne => ?_⟩⟩⟩
  · rw [binary_of_pops hready.2 h, hzero, divide_of_zero, raise_bind]
  · exact pushesAt_of_binary hready rfl h (divide_of_ne_zero s.width s.second hne) (narrow_inRange ..)

/-- Settles O28: six binary instructions that push a boolean. -/
theorem comparisonCases : Obligations.ComparisonCases :=
  ⟨rfl, rfl, rfl, rfl, rfl, rfl, fun _ hready =>
    ⟨binaryCases_of_compare hready rfl, binaryCases_of_compare hready rfl, binaryCases_of_compare hready rfl,
      binaryCases_of_compare hready rfl, binaryCases_of_compare hready rfl, binaryCases_of_compare hready rfl⟩⟩

end Sys2Proof.Machine
end

section
/-!
SUPPORT. Control transfer and linkage (43_control_linkage.md R180 to R191). The link record both ways: CallProc's pushes
field by field (`pushLink_of_full_at_pc` and the two after it, `exec_callProc_of_link`), ReturnProc's pops after its
truncation (`pop64_cut`, `exec_returnProc_of_frame`); the branch target from pc0 (`jumpTarget_pcPlus`); EntryProc's
Resize (`byte?_cut`). The statements of the family are settled at the end.
-/
namespace Sys2Proof.Machine

/-! ## Operands cut short, at a byte of their own (R109) -/

section
variable {s : State} {o : Opcode} {pos : Nat} {code : FaultCode} {info : Int}

/-- A running step whose opcode byte is there and whose operands are not raises what the operand reads raise. -/
theorem stepRaises_of_operandReads {rest : List Byte} (hs : s.status = .running)
    (hdrop : s.pb.drop s.pc.toNat = opcodeByte o :: rest) (hdec : decodeOperands o rest = .error .truncated)
    (hreads : s.operandReads o = raise code info) : s.stepRaises code info := by
  have hfetch : s.fetch = .error .truncated := by
    rw [State.fetch, decodeAt, hdrop, decode_opcodeByte_cons, hdec]
  have hraise : s.fetchRaise .truncated = { code := code, info := info } := by
    simp only [State.fetchRaise, State.truncatedRaise, pbByte_of_drop hdrop, opcodeOf_opcodeByte, hreads, raise]
  have hstep := stepRaises_of_fetch_error hs hfetch
  rwa [hraise] at hstep

/-- An operand whose two bytes lie at `pos` is read (R73, R101). -/
theorem fetchS16_of_drop {v : S16} {rest : List Byte} (h : s.pb.drop pos = s16Bytes v ++ rest) :
    s.fetchS16 pos = .ok v.toInt := by
  have hlow : pbByte s.pb pos = .ok (v.extractLsb' 0 8) := pbByte_of_drop h
  have hhigh : pbByte s.pb ((pos : Int) + 1) = .ok (v.extractLsb' 8 8) :=
    pbByte_of_drop (pos := pos + 1) (rest := rest) (by rw [← List.drop_drop, h]; rfl)
  simp only [State.fetchS16, pbS16, hlow, hhigh, ok_bind, pure_eq_ok, s16_extract]

/-- An operand with a byte missing faults at the first missing one: at `pos`, or where the program buffer ends after
it (R73). -/
theorem fetchS16_of_missing (h : s.pb.length < pos + 2) :
    s.fetchS16 pos = raise .truncated (Nat.max pos s.pb.length) := by
  obtain hle | hle := Nat.le_total s.pb.length pos
  · have hfirst : Nat.max pos s.pb.length = pos := Nat.max_eq_left hle
    simp only [State.fetchS16, pbS16, pbByte_of_length_le hle, raise_bind, hfirst]
  · have hend : Nat.max pos s.pb.length = s.pb.length := Nat.max_eq_right hle
    rw [fetchS16_of_cut hle h, hend]

end

/-! ## The stack, cut or grown (R80, R81) -/

section
variable {m m' : Memory} {k n a max : Nat}

theorem field_congr (h : ∀ c, a ≤ c → c < a + 8 → m.byte c = m'.byte c) : m.field a = m'.field a := by
  rw [Memory.field, Memory.field, bytesAt_congr h]

/-- pop_64 from a stack that was cut takes the 8-byte field just below the cut. -/
theorem pop64_cut (m : Memory) (k : Nat) :
    (m.cut (k + 8)).pop64 = .ok (BitVec.ofNat 64 (m.field k), m.cut k) := by
  have hfield : (m.cut (k + 8)).field k = m.field k := field_congr fun c _ hc => by rw [byte_cut, if_pos hc]
  rw [pop64_of_le (by rw [len_cut]; omega), len_cut, Nat.add_sub_cancel, hfield, cut_cut _ (Nat.le_add_right ..)]

/-- What Resize leaves (R81): the bytes there were, and zero where the stack grew. -/
theorem byte?_cut (hm : m.wf = true) (ha : a < n) :
    (m.cut n).byte? a = if a < m.len then m.byte? a else some 0#8 := by
  rw [byte?_of_lt (show a < (m.cut n).len from ha), byte_cut, if_pos ha]
  split
  · next hold => rw [byte?_of_lt hold]
  · next hnew => rw [byte_of_len_le hm (Nat.not_lt.1 hnew), Memory.unlisted]

theorem truncate_of_lt (h : m.len < n) : m.truncate n = raise .stackBounds n := if_pos h

theorem resize_of_max_lt {l : Int} (h0 : 0 ≤ l) (h : (max : Int) < l) :
    m.resize max l = raise .stackOverflow l := by
  rw [Memory.resize, if_neg (by omega), if_pos h]

end

/-! ## CallProc -/

section
variable {max : Nat} {m : Memory}

theorem push64_len_of_le (u : U64) (h : m.len + 8 ≤ max) :
    ∃ m', m.push64 max u = .ok m' ∧ m'.len = m.len + 8 := ⟨_, push_of_le _ h, rfl⟩

/-- The saved pc is pushed first (R180): without room for it nothing else is tried. -/
theorem pushLink_of_full_at_pc (pc fp cur : U64) (h : max < m.len + 8) :
    pushLink max m pc fp cur = raise .stackOverflow ((m.len : Int) + 8) := by
  rw [pushLink, push64_of_lt pc h, raise_bind]

/-- Then the saved fp. -/
theorem pushLink_of_full_at_fp (pc fp cur : U64) (h : m.len + 8 ≤ max) (hfull : max < m.len + 16) :
    pushLink max m pc fp cur = raise .stackOverflow ((m.len : Int) + 16) := by
  obtain ⟨m1, h1, hlen1⟩ := push64_len_of_le pc h
  have h2 := push64_of_lt (m := m1) fp (show max < m1.len + 8 by omega)
  rw [pushLink, h1, ok_bind, h2, raise_bind]
  congr 1
  omega

/-- Then the saved curProc. -/
theorem pushLink_of_full_at_curProc (pc fp cur : U64) (h : m.len + 16 ≤ max) (hfull : max < m.len + 24) :
    pushLink max m pc fp cur = raise .stackOverflow ((m.len : Int) + 24) := by
  obtain ⟨m1, h1, hlen1⟩ := push64_len_of_le pc (show m.len + 8 ≤ max by omega)
  obtain ⟨m2, h2, hlen2⟩ := push64_len_of_le fp (show m1.len + 8 ≤ max by omega)
  have h3 := push64_of_lt (m := m2) cur (show max < m2.len + 8 by omega)
  rw [pushLink, h1, ok_bind, h2, ok_bind, h3]
  congr 1
  omega

end

section
variable {s : State} {p : S16} {e : ProcEntry} {m : Memory} {code : FaultCode} {info : Int}

/-- The one entry that a call writes (R42). -/
theorem procTable_setFramePtr {k : Nat} (f : U64) (he : s.procTable[k]? = some e) :
    (s.setFramePtr k f).procTable = s.procTable.set k { e with framePtr := some f } := by
  rw [setFramePtr_procTable, List.modify_eq_set_getElem?, he]
  rfl

theorem ofInt_of_nonneg {x : Int} (h : 0 ≤ x) : BitVec.ofInt 64 x = BitVec.ofNat 64 x.toNat := by
  rw [← BitVec.ofInt_natCast, Int.toNat_of_nonneg h]

/-- A stack length is a 64-bit number (R10). -/
theorem toNat_ofNat_of_le_maxStack {n : Nat} (h : n ≤ s.maxStack) : (BitVec.ofNat 64 n).toNat = n := by
  have hmax := s.config.maxStackBytes.isLt
  rw [State.maxStack] at h
  rw [BitVec.toNat_ofNat, Nat.mod_eq_of_lt (by omega)]

/-- CallProc whose link record does not fit raises what the push that lacks room raises. -/
theorem callProc_raises_of_link (hpc : s.pc.toNat + 3 < 2 ^ 64) (he : s.procEntry p.toInt = .ok e)
    (hlink : pushLink s.maxStack s.stack (s.pcPlus 3) s.fp s.curProc = raise code info) :
    s.raises (.callProc p) code info :=
  raises_of_finish rfl (by simp only [pcAfter_of_lt hpc, he, hlink, ok_bind, raise_bind])

/-- CallProc whose link record was pushed enters the callee, its frame beginning after the record (R180). -/
theorem exec_callProc_of_link (hpc : s.pc.toNat + 3 < 2 ^ 64) (he : s.procEntry p.toInt = .ok e)
    (hlink : pushLink s.maxStack s.stack (s.pcPlus 3) s.fp s.curProc = .ok m) :
    exec (.callProc p) s = .next { s with
      stack := m
      procTable := s.procTable.set p.toInt.toNat { e with framePtr := some (BitVec.ofNat 64 m.len) }
      fp := BitVec.ofNat 64 m.len
      curProc := BitVec.ofNat 64 p.toInt.toNat
      pc := e.startPos
      traceRecords := s.tracesAfter } := by
  obtain ⟨h0, -, hentry⟩ := procEntry_ok he
  simp only [exec, execCallProc, pcAfter_of_lt hpc, he, hlink, ok_bind, pure_eq_ok, finish_ok,
    procTable_setFramePtr _ hentry, ofInt_of_nonneg h0]
  rfl

end

/-! ## ReturnProc -/

section
variable {s : State} {f : U64} {code : FaultCode} {info : Int}

/-- ReturnProc outside procedure 0 raises what FramePtr(curProc) raises. -/
theorem returnProc_raises_of_framePtr (hpc : s.pc.toNat + 1 < 2 ^ 64) (hcur : s.curProc ≠ 0#64)
    (hf : s.framePtr s.curProc.toNat = raise code info) : s.raises .returnProc code info :=
  raises_of_finish rfl (by simp only [if_neg hcur, pcAfter_of_lt hpc, hf, ok_bind, raise_bind])

/-- ReturnProc outside procedure 0, once the frame pointer of curProc is known, is the truncation and three pops. -/
theorem exec_returnProc_of_framePtr (hpc : s.pc.toNat + 1 < 2 ^ 64) (hcur : s.curProc ≠ 0#64)
    (hf : s.framePtr s.curProc.toNat = .ok f) : exec .returnProc s = s.finish (do
      let m ← s.stack.truncate f.toNat
      let (c, m1) ← m.pop64
      let (f2, m2) ← m1.pop64
      let (p2, m3) ← m2.pop64
      return { s with stack := m3, curProc := c, fp := f2, pc := p2 }) := by
  simp only [exec, execReturnProc, if_neg hcur, pcAfter_of_lt hpc, hf, ok_bind]

/-- The pop of a frame with fewer than 24 bytes below it that first lacks 8 bytes finds what is left of them (R182). -/
theorem returnProc_underflow (hpc : s.pc.toNat + 1 < 2 ^ 64) (hcur : s.curProc ≠ 0#64)
    (hf : s.framePtr s.curProc.toNat = .ok f) (hlen : f.toNat ≤ s.stack.len) (hlt : f.toNat < 24) :
    s.raises .returnProc .stackBounds ((f.toNat % 8 : Nat) : Int) := by
  refine raises_of_finish (exec_returnProc_of_framePtr hpc hcur hf) ?_
  rw [truncate_of_le hlen, ok_bind]
  have hpop (j : Nat) (hj : j < 8) : (s.stack.cut j).pop64 = raise .stackBounds j := pop64_of_lt hj
  have hmod := Nat.mod_lt f.toNat (show 8 > 0 by decide)
  obtain h0 | h1 | h2 : f.toNat = f.toNat % 8 ∨ f.toNat = f.toNat % 8 + 8 ∨ f.toNat = f.toNat % 8 + 8 + 8 := by omega
  · rw [h0, hpop _ hmod, raise_bind, Nat.mod_mod]
  · rw [h1, pop64_cut, ok_bind]
    simp only [hpop _ hmod, raise_bind, Nat.add_mod_right, Nat.mod_mod]
  · rw [h2, pop64_cut, ok_bind]
    simp only [pop64_cut, hpop _ hmod, ok_bind, raise_bind, Nat.add_mod_right, Nat.mod_mod]

/-- ReturnProc takes the three fields below the frame, curProc from the highest (R182). -/
theorem exec_returnProc_of_frame (hpc : s.pc.toNat + 1 < 2 ^ 64) (hcur : s.curProc ≠ 0#64)
    (hf : s.framePtr s.curProc.toNat = .ok f) (hlen : f.toNat ≤ s.stack.len) {k : Nat} (hk : f.toNat = k + 24) :
    exec .returnProc s = .next { s with
      stack := s.stack.cut k
      curProc := BitVec.ofNat 64 (s.stack.field (k + 16))
      fp := BitVec.ofNat 64 (s.stack.field (k + 8))
      pc := BitVec.ofNat 64 (s.stack.field k)
      traceRecords := s.tracesAfter } := by
  rw [exec_returnProc_of_framePtr hpc hcur hf, truncate_of_le hlen, hk]
  simp only [pop64_cut s.stack (k + 16), pop64_cut s.stack (k + 8), pop64_cut s.stack k, ok_bind, pure_eq_ok, finish_ok]
  rfl

end

/-! ## Jump and JumpIfFalse -/

section
variable {s : State} {offset : S16} {target : Int}

/-- The target counted from pc0, where it is an address (R184, R186). -/
theorem jumpTarget_pcPlus (hpc : s.pc.toNat + 3 < 2 ^ 64) (ht : (s.pc.toNat : Int) + 3 + offset.toInt = target)
    (h0 : 0 ≤ target) (h1 : target < (2 : Int) ^ 64) :
    jumpTarget (s.pcPlus 3) offset = .ok (BitVec.ofNat 64 target.toNat) := by
  have hsum : ((s.pcPlus 3).toNat : Int) + offset.toInt = target := by rw [toNat_pcPlus hpc]; exact ht
  rw [jumpTarget_of_lt (by rwa [hsum]) (by rwa [hsum]), hsum]

theorem jumpTarget_pcPlus_of_out (hpc : s.pc.toNat + 3 < 2 ^ 64)
    (ht : (s.pc.toNat : Int) + 3 + offset.toInt = target) (h : target < 0 ∨ (2 : Int) ^ 64 ≤ target) :
    jumpTarget (s.pcPlus 3) offset = raise .addressOverflow target := by
  have hsum : ((s.pcPlus 3).toNat : Int) + offset.toInt = target := by rw [toNat_pcPlus hpc]; exact ht
  rw [jumpTarget_of_out (by rwa [hsum]), hsum]

/-- JumpIfFalse that pops 0 is a jump on what is left of S (R185). -/
theorem exec_jumpIfFalse_of_top_eq_zero (hpc : s.pc.toNat + 3 < 2 ^ 64) (h : s.width.bytes ≤ s.stack.len)
    (htop : s.top = 0) : exec (.jumpIfFalse offset) s = s.finish (do
      let t ← jumpTarget (s.pcPlus 3) offset
      return { s with stack := s.stack.cut (s.stack.len - s.width.bytes), pc := t }) := by
  have hfalse : falseData s.top = true := decide_eq_true htop
  simp only [exec, execJumpIfFalse, popW_stack h, pcAfter_of_lt hpc, hfalse, ok_bind, if_true]

/-- JumpIfFalse that pops another value falls through; its target is not computed (D44). -/
theorem exec_jumpIfFalse_of_top_ne_zero (hpc : s.pc.toNat + 3 < 2 ^ 64) (h : s.width.bytes ≤ s.stack.len)
    (htop : s.top ≠ 0) : exec (.jumpIfFalse offset) s = .next { s with
      stack := s.stack.cut (s.stack.len - s.width.bytes)
      pc := s.pcPlus 3
      traceRecords := s.tracesAfter } := by
  have hfalse : falseData s.top = false := decide_eq_false htop
  simp only [exec, execJumpIfFalse, popW_stack h, pcAfter_of_lt hpc, hfalse, ok_bind, Bool.false_eq_true, if_false]
  rfl

theorem operandReads_jumpIfFalse (s : State) : s.operandReads .jumpIfFalse =
    (s.stack.popW s.width >>= fun _ => s.fetchS16 (s.pc.toNat + 1) >>= fun _ => pure ()) := rfl

/-- The pop comes before the operand, so an underflow hides a truncated operand (R109). -/
theorem operandReads_jumpIfFalse_of_underflow (h : s.stack.len < s.width.bytes) :
    s.operandReads .jumpIfFalse = raise .stackBounds s.stack.len := by
  rw [operandReads_jumpIfFalse, popW_of_lt h, raise_bind]

theorem operandReads_jumpIfFalse_of_missing (h : s.width.bytes ≤ s.stack.len)
    (hread : s.fetchS16 (s.pc.toNat + 1) = raise .truncated s.pb.length) :
    s.operandReads .jumpIfFalse = raise .truncated s.pb.length := by
  rw [operandReads_jumpIfFalse, popW_stack h, ok_bind, hread, raise_bind]

end

/-! ## EntryProc -/

section
variable {s : State} {l p r : S16} {id : Int} {code : FaultCode} {info : Int}

theorem checkEntryId_of_eq (h : id = s.curProc.toNat) : s.checkEntryId id = .ok () := by
  rw [State.checkEntryId, if_neg (by omega)]

theorem checkEntryId_of_ne (h : id ≠ s.curProc.toNat) : s.checkEntryId id = raise .entryMismatch id :=
  if_pos (.inr h)

/-- EntryProc whose id is curProc and whose frame size is not negative ends as its Resize ends (R190). -/
theorem exec_entryProc_of_id (hpc : s.pc.toNat + 7 < 2 ^ 64) (hid : p.toInt = s.curProc.toNat) (h0 : 0 ≤ r.toInt) :
    exec (.entryProc l p r) s = s.finish (do
      let len ← s.address ((s.fp.toNat : Int) + r.toInt)
      let m ← s.stack.resize s.maxStack len
      return { s with stack := m, pc := s.pcPlus 7 }) := by
  simp only [exec, execEntryProc, pcAfter_of_lt hpc, checkEntryId_of_eq hid, if_neg (Int.not_lt.2 h0), ok_bind]

theorem operandReads_entryProc (s : State) : s.operandReads .entryProc =
    (s.fetchS16 (s.pc.toNat + 3) >>= fun id => s.checkEntryId id >>= fun _ =>
      s.fetchS16 (s.pc.toNat + 5) >>= fun _ => pure ()) := rfl

theorem operandReads_entryProc_of_id_missing (hid : s.fetchS16 (s.pc.toNat + 3) = raise code info) :
    s.operandReads .entryProc = raise code info := by
  rw [operandReads_entryProc, hid, raise_bind]

/-- The id is checked before reservedBytes is read (R190). -/
theorem operandReads_entryProc_of_mismatch (hread : s.fetchS16 (s.pc.toNat + 3) = .ok id)
    (hid : id ≠ s.curProc.toNat) : s.operandReads .entryProc = raise .entryMismatch id := by
  rw [operandReads_entryProc, hread, ok_bind, checkEntryId_of_ne hid, raise_bind]

theorem operandReads_entryProc_of_reserved_missing (hread : s.fetchS16 (s.pc.toNat + 3) = .ok id)
    (hid : id = s.curProc.toNat) (hread2 : s.fetchS16 (s.pc.toNat + 5) = raise code info) :
    s.operandReads .entryProc = raise code info := by
  rw [operandReads_entryProc, hread, ok_bind, checkEntryId_of_eq hid, ok_bind, hread2, raise_bind]

/-- An EntryProc without its procId raises at the first byte missing of it. -/
theorem entryProc_stepRaises_of_id_missing {rest : List Byte} (hs : s.status = .running)
    (hdrop : s.pb.drop s.pc.toNat = 0x1A#8 :: rest) (hrest : rest.length < 4) :
    s.stepRaises .truncated (Nat.max (s.pc.toNat + 3) s.pb.length) := by
  have hlen := length_of_drop hdrop
  exact stepRaises_of_operandReads (o := .entryProc) hs hdrop (decodeF3_of_short (by omega))
    (operandReads_entryProc_of_id_missing (fetchS16_of_missing (by omega)))

/-- An EntryProc without its reservedBytes checks its procId, then raises at the end of the program buffer. -/
theorem entryProc_stepRaises_of_reserved_missing {tail : List Byte} (hs : s.status = .running)
    (hdrop : s.pb.drop s.pc.toNat = 0x1A#8 :: s16Bytes l ++ s16Bytes p ++ tail) (htail : tail.length < 2) :
    (p.toInt ≠ s.curProc.toNat → s.stepRaises .entryMismatch p.toInt) ∧
    (p.toInt = s.curProc.toNat → s.stepRaises .truncated s.pb.length) := by
  have hlen : s.pb.length = s.pc.toNat + 5 + tail.length := by
    rw [length_of_drop (rest := s16Bytes l ++ s16Bytes p ++ tail) hdrop]
    simp only [List.length_append, length_s16Bytes]
    omega
  have hread : s.fetchS16 (s.pc.toNat + 3) = .ok p.toInt :=
    fetchS16_of_drop (pos := s.pc.toNat + 3) (rest := tail) (by rw [← List.drop_drop, hdrop]; rfl)
  have hread2 : s.fetchS16 (s.pc.toNat + 5) = raise .truncated s.pb.length :=
    fetchS16_of_cut (by omega) (by omega)
  have hdec : decodeOperands .entryProc (s16Bytes l ++ s16Bytes p ++ tail) = .error .truncated :=
    decodeF3_of_short (by simp only [List.length_append, length_s16Bytes]; omega)
  exact ⟨fun hid => stepRaises_of_operandReads (o := .entryProc) hs hdrop hdec
      (operandReads_entryProc_of_mismatch hread hid),
    fun hid => stepRaises_of_operandReads (o := .entryProc) hs hdrop hdec
      (operandReads_entryProc_of_reserved_missing hread hid hread2)⟩

end

/-! ## The statements -/

/-- Settles O36. -/
theorem endOfCodeHalts : Obligations.EndOfCodeHalts := by
  refine ⟨rfl, fun s hpc => ?_⟩
  rw [exec, execEndOfCode, halt_of_lt .endOfCode hpc, finish_ok]
  rfl

/-- Settles O29: the id is checked first, then the three fields are pushed one by one. -/
theorem callProcCases : Obligations.CallProcCases := by
  intro s p
  refine ⟨rfl, truncatesAt_of_f1 (o := .callProc) rfl nofun, fun ⟨_, hpc⟩ h => raises_of_finish rfl ?_,
    fun e ⟨⟨hwf, _⟩, hpc⟩ h0 h1 hentry => ?_⟩
  · simp only [pcAfter_of_lt hpc, procEntry_of_out h, ok_bind, raise_bind]
  have he := procEntry_of_mem h0 h1 hentry
  refine ⟨fun hfull => callProc_raises_of_link hpc he (pushLink_of_full_at_pc _ _ _ hfull),
    fun h hfull => callProc_raises_of_link hpc he (pushLink_of_full_at_fp _ _ _ h hfull),
    fun h hfull => callProc_raises_of_link hpc he (pushLink_of_full_at_curProc _ _ _ h hfull), fun hroom => ?_⟩
  obtain ⟨m, hlink⟩ := pushLink_of_le (s.pcPlus 3) s.fp s.curProc hroom
  obtain ⟨hwf', hlen, -, hpcField, hfpField, hcurField, hlow⟩ := pushLink_spec hwf hlink
  refine ⟨m, hlen ▸ exec_callProc_of_link hpc he hlink, hwf', hlen, hpcField.trans (toNat_pcPlus hpc), hfpField,
    hcurField, fun a ha => ?_⟩
  rw [byte?_of_lt ha, byte?_of_lt (by omega), hlow a ha]

/-- Settles O30: the halt, what FramePtr(curProc) answers, and the pops after the truncation. -/
theorem returnProcCases : Obligations.ReturnProcCases := by
  refine ⟨rfl, fun s ⟨⟨hwf, _⟩, hpc⟩ => ⟨fun hcur => ?_,
    fun hcur hout => returnProc_raises_of_framePtr hpc hcur (framePtr_of_out (.inr (Int.ofNat_le.2 hout))),
    fun hcur hunset => returnProc_raises_of_framePtr hpc hcur (framePtr_of_unset hunset), fun f hcur hframe => ?_⟩⟩
  · rw [exec, execReturnProc, if_pos hcur, halt_of_lt .normal hpc, finish_ok]
    rfl
  have hf := framePtr_of_frameAt hframe
  refine ⟨fun hlt => raises_of_finish (exec_returnProc_of_framePtr hpc hcur hf) ?_, returnProc_underflow hpc hcur hf,
    fun hlen h24 => ⟨s.stack.cut (f.toNat - 24), ?_, shortenedTo_cut hwf (by omega)⟩⟩
  · rw [truncate_of_lt hlt, raise_bind]
  · rw [exec_returnProc_of_frame hpc hcur hf hlen (k := f.toNat - 24) (by omega),
      show f.toNat - 24 + 16 = f.toNat - 8 by omega, show f.toNat - 24 + 8 = f.toNat - 16 by omega]

/-- Settles O31: the fields that ReturnProc pops are those that CallProc pushed, read from an intact record. -/
theorem callReturnNeutrality : Obligations.CallReturnNeutrality := by
  intro s t u p e hready hp hcount hentry hroom hcall hu hcur hframe hlen hkept
  obtain ⟨-, -, -, hcases⟩ := callProcCases s p
  obtain ⟨-, -, -, hcompletes⟩ := hcases e hready hp.le hcount hentry
  obtain ⟨m, hexec, -, hmlen, hpcField, hfpField, hcurField, -⟩ := hcompletes hroom
  rw [hexec] at hcall
  cases hcall
  simp only [hmlen] at hcur hframe hlen hkept
  have hf := toNat_ofNat_of_le_maxStack hroom
  have hcurNat : (u.curProc.toNat : Int) = p.toInt := by
    have hsmall : p.toInt < 2 ^ 15 := BitVec.toInt_lt
    rw [hcur, BitVec.toNat_ofNat, Nat.mod_eq_of_lt (by omega), Int.toNat_of_nonneg hp.le]
  have hcur0 : u.curProc ≠ 0#64 := fun h0 => by
    have hzero : u.curProc.toNat = 0 := h0 ▸ rfl
    omega
  have hfield (k : Nat) (hlow : s.stack.len ≤ k) (hhigh : k + 8 ≤ s.stack.len + 24) : u.stack.field k = m.field k :=
    field_congr fun c hc1 hc2 => hkept c (by omega) (by omega)
  refine ⟨_, exec_returnProc_of_frame hu.2 hcur0 (hcurNat ▸ framePtr_of_frameAt hframe) (by rwa [hf]) hf, rfl, rfl, ?_,
    ?_, ?_⟩
  · simp only [hfield _ (show s.stack.len ≤ s.stack.len + 8 by omega) (by omega), hfpField, BitVec.ofNat_toNat,
      BitVec.setWidth_eq]
  · simp only [hfield _ (show s.stack.len ≤ s.stack.len + 16 by omega) (by omega), hcurField, BitVec.ofNat_toNat,
      BitVec.setWidth_eq]
  · simp only [hfield _ le_rfl (by omega), hpcField, State.pcPlus]

/-- Settles O32. -/
theorem jumpCases : Obligations.JumpCases := by
  refine fun s offset => ⟨rfl, truncatesAt_of_f1 (o := .jump) rfl nofun, fun hpc => ?_⟩
  refine ⟨fun hout => raises_of_finish rfl ?_, fun h0 h1 => ?_⟩
  · simp only [pcAfter_of_lt hpc, jumpTarget_pcPlus_of_out hpc rfl hout, ok_bind, raise_bind]
  · simp only [exec, execJump, pcAfter_of_lt hpc, jumpTarget_pcPlus hpc rfl h0 h1, ok_bind, pure_eq_ok, finish_ok]
    rfl

/-- Settles O33: the pop, then the value popped decides whether there is a target. -/
theorem jumpIfFalseCases : Obligations.JumpIfFalseCases := by
  intro s offset
  refine ⟨rfl, fun rest hs hdrop hrest => ?_, fun ⟨⟨hwf, _⟩, hpc⟩ => ?_⟩
  · have hlen := length_of_drop hdrop
    have hread : s.fetchS16 (s.pc.toNat + 1) = raise .truncated s.pb.length := fetchS16_of_cut (by omega) (by omega)
    have hraises {code : FaultCode} {info : Int} := stepRaises_of_operandReads (o := .jumpIfFalse) (code := code)
      (info := info) hs hdrop (decodeF1_of_short hrest)
    exact ⟨fun h => hraises (operandReads_jumpIfFalse_of_underflow h),
      fun h => hraises (operandReads_jumpIfFalse_of_missing h hread)⟩
  · have hcut : s.stack.shortenedTo (s.stack.cut (s.stack.len - s.width.bytes)) (s.stack.len - s.width.bytes) :=
      shortenedTo_cut hwf (Nat.sub_le ..)
    refine ⟨fun h => raises_of_finish rfl ?_,
      fun h htop hout => raises_of_finish (exec_jumpIfFalse_of_top_eq_zero hpc h htop) ?_,
      fun h htop h0 h1 => ⟨_, ?_, hcut⟩, fun h htop => ⟨_, exec_jumpIfFalse_of_top_ne_zero hpc h htop, hcut⟩⟩
    · rw [popW_of_lt h, raise_bind]
    · rw [jumpTarget_pcPlus_of_out hpc rfl hout, raise_bind]
    · rw [exec_jumpIfFalse_of_top_eq_zero hpc h htop, jumpTarget_pcPlus hpc rfl h0 h1, ok_bind, pure_eq_ok, finish_ok]
      rfl

/-- Settles O35: the id, the sign of reservedBytes, the new length, then Resize. -/
theorem entryProcCases : Obligations.EntryProcCases := by
  intro s l p r
  refine ⟨rfl, fun rest => entryProc_stepRaises_of_id_missing, fun tail => entryProc_stepRaises_of_reserved_missing,
    fun ⟨⟨hwf, _⟩, hpc⟩ => ⟨fun hid => raises_of_finish rfl ?_, fun hid hneg => raises_of_finish rfl ?_,
      fun hid h0 hwide => raises_of_finish (exec_entryProc_of_id hpc hid h0) ?_,
      fun hid h0 hnw hmax => raises_of_finish (exec_entryProc_of_id hpc hid h0) ?_, fun hid h0 hmax => ?_⟩⟩
  · simp only [pcAfter_of_lt hpc, checkEntryId_of_ne hid, ok_bind, raise_bind]
  · simp only [pcAfter_of_lt hpc, checkEntryId_of_eq hid, if_pos hneg, ok_bind]
  · rw [address_of_tooWide hwide, raise_bind]
  · rw [address_of_not_tooWide hnw, ok_bind, resize_of_max_lt (by omega) hmax, raise_bind]
  · refine ⟨s.stack.cut ((s.fp.toNat : Int) + r.toInt).toNat, ?_, wf_cut hwf _, ?_, fun a ha => byte?_cut hwf ha⟩
    · rw [exec_entryProc_of_id hpc hid h0, address_of_not_tooWide (not_tooWide_of_le hmax), ok_bind,
        resize_of_le (by omega) (by omega), ok_bind, pure_eq_ok, finish_ok]
      rfl
    · rw [len_cut, Int.toNat_of_nonneg (by omega)]

end Sys2Proof.Machine
end

section
/-!
SUPPORT. Reserved instructions and unknown opcode bytes (44_reserved.md R200 to R204). A reserved instruction is its
opcode byte alone, which decodes with every byte after it left over (`fetch_of_reserved`), and its meaning is its raise
(`exec_of_reserved`). The two statements of the family are settled at the end.
-/
namespace Sys2Proof.Machine

/-! ## The fetch at an opcode byte -/

section
variable {s : State} {op : Byte} {rest : List Byte} {i : Instr}

theorem fetch_of_drop (hdrop : s.pb.drop s.pc.toNat = op :: rest) : s.fetch = decode (op :: rest) :=
  congrArg decode hdrop

/-- Where the bytes at pc decode, the step raises what the instruction raises. -/
theorem stepRaises_of_raises {code : FaultCode} {info : Int} (hs : s.status = .running)
    (hfetch : s.fetch = .ok (i, rest)) (h : s.raises i code info) : s.stepRaises code info := by
  obtain ⟨t, hexec, ht⟩ := h
  exact ⟨t, (step_of_fetch_ok hs hfetch).trans hexec, ht⟩

/-! ## A reserved instruction -/

/-- The reserved rows of R97, one by one. -/
theorem eq_of_reserved (hi : i.opcode.cls = .reserved) : i = .put ∨ i = .get ∨ i = .opAddAddr := by
  by_contra hne
  simp only [not_or, ← ne_eq] at hne
  exact nomatch hi.symm.trans (cls_eq_implemented_iff.mpr hne)

theorem exec_of_reserved (hi : i.opcode.cls = .reserved) : exec i s = s.finish (unimplemented i.opcode) := by
  obtain rfl | rfl | rfl := eq_of_reserved hi <;> rfl

theorem raises_of_reserved (hi : i.opcode.cls = .reserved) :
    s.raises i .unimplemented (opcodeByte i.opcode).toNat :=
  raises_of_finish (exec_of_reserved hi) rfl

/-- No byte after a reserved opcode is read (R204). -/
theorem fetch_of_reserved (hi : i.opcode.cls = .reserved)
    (hdrop : s.pb.drop s.pc.toNat = opcodeByte i.opcode :: rest) : s.fetch = .ok (i, rest) := by
  rw [fetch_of_drop hdrop, decode_opcodeByte_cons]
  obtain rfl | rfl | rfl := eq_of_reserved hi <;> rfl

theorem stepRaises_of_reserved (hi : i.opcode.cls = .reserved) (hs : s.status = .running)
    (hdrop : s.pb.drop s.pc.toNat = opcodeByte i.opcode :: rest) :
    s.stepRaises .unimplemented (opcodeByte i.opcode).toNat :=
  stepRaises_of_raises hs (fetch_of_reserved hi hdrop) (raises_of_reserved hi)

end

/-! ## The statements -/

/-- Settles O6: the byte selects no row of the opcode map, and the fault of the fetch carries it. -/
theorem unknownOpcodeStep : Obligations.UnknownOpcodeStep := by
  intro s b rest hs hdrop hb
  have hfetch : s.fetch = .error (.unknownOpcode b) := (fetch_of_drop hdrop).trans (decode_of_unknown rest hb)
  exact stepRaises_of_fetch_error hs hfetch

/-- Settles O37. -/
theorem reservedInstructionsFault : Obligations.ReservedInstructionsFault := by
  have hput : Instr.put.opcode.cls = .reserved := rfl
  have hget : Instr.get.opcode.cls = .reserved := rfl
  have hadd : Instr.opAddAddr.opcode.cls = .reserved := rfl
  exact ⟨rfl, rfl, rfl, fun s => ⟨raises_of_reserved hput, raises_of_reserved hget, raises_of_reserved hadd,
    fun rest hs => ⟨stepRaises_of_reserved hput hs, stepRaises_of_reserved hget hs, stepRaises_of_reserved hadd hs⟩⟩⟩

end Sys2Proof.Machine
end

section
/-!
SUPPORT. Runs of many steps (60_exceptions.md R214, R225, R228): every step answers a next state, a bounded run reports
what its steps lead to, and the debug trace changes nothing but itself. For the last, pseudocode begun in an untraced
state answers what it answers in the traced one, untraced (`UntracedAs`). The statements are settled at the end.
-/
namespace Sys2Proof.Machine

/-! ## InputToAddr, by its operand and the host's answers -/

section
variable {s : State} {e : Raise} {pc : U64} {a v : Int} {m : Memory} {rest : List Int}

/-- What InputToAddr finds out before it asks the host: the next pc, the address popped, what is left of S (R149). -/
def State.inputOperand (s : State) : Checked (U64 × Int × Memory) := do
  let pc ← s.pcAfter 1
  let (a, m) ← s.stack.popW s.width
  return (pc, a, m)

theorem execInputToAddr_of_raise (h : s.inputOperand = .error e) : execInputToAddr s = s.finish (.error e) := by
  rw [State.inputOperand] at h
  rw [execInputToAddr, h]

theorem execInputToAddr_of_wait (h : s.inputOperand = .ok (pc, a, m)) (hin : s.input = []) :
    execInputToAddr s = .next s := by
  rw [State.inputOperand] at h
  simp only [execInputToAddr, h, hin, State.waitForInput]

theorem execInputToAddr_of_answer (h : s.inputOperand = .ok (pc, a, m)) (hin : s.input = v :: rest) :
    execInputToAddr s =
      State.finish { s with input := rest } (State.storeInput { s with input := rest } pc m a v) := by
  rw [State.inputOperand] at h
  simp only [execInputToAddr, h, hin]

end

/-! ## Every step answers -/

theorem execInputToAddr_next (s : State) : ∃ t, execInputToAddr s = .next t := by
  cases h : s.inputOperand with
  | error e => exact ⟨_, execInputToAddr_of_raise h⟩
  | ok operand =>
    cases hin : s.input with
    | nil => exact ⟨s, execInputToAddr_of_wait h hin⟩
    | cons v rest => exact execInputToAddr_of_answer h hin ▸ finish_next ..

/-- Every instruction but InputToAddr is the end of its pseudocode (`finish_next`). -/
theorem exec_next (i : Instr) (s : State) : ∃ t, exec i s = .next t := by
  cases i with
  | inputToAddr => exact execInputToAddr_next s
  | put | get | opAddAddr => exact ⟨_, rfl⟩
  | _ => exact finish_next s _

theorem step_next (s : State) : ∃ t, step s = .next t := by
  by_cases hs : s.status = .running
  · cases hf : s.fetch with
    | ok p => exact step_of_fetch_ok hs hf ▸ exec_next p.1 s
    | error e => exact ⟨_, step_of_fetch_error hs hf⟩
  · exact ⟨s, step_of_not_running hs⟩

/-! ## A bounded run -/

section
variable {s t u : State} {n fuel : Nat}

theorem runFuel_of_not_running (hs : s.status ≠ .running) : runFuel fuel s = .ended s := by
  unfold runFuel
  cases h : s.status with
  | running => exact absurd h hs
  | halted k => rfl
  | faulted r => rfl

theorem runFuel_zero_of_running (hs : s.status = .running) : runFuel 0 s = .notFinished s := by
  simp only [runFuel, hs]

theorem runFuel_succ_of_step (hs : s.status = .running) (h : step s = .next u) :
    runFuel (fuel + 1) s = runFuel fuel u := by
  rw [runFuel]
  simp only [hs, h]

theorem leadsTo_succ_iff (hs : s.status = .running) (h : step s = .next u) :
    State.leadsTo (n + 1) s t ↔ State.leadsTo n u t := by
  refine ⟨fun ⟨_, u', hu', ht⟩ => ?_, fun ht => ⟨hs, u, h, ht⟩⟩
  obtain rfl : u = u' := Host.Outcome.next.inj (h.symm.trans hu')
  exact ht

/-- From a state that runs, what has ended is at least one step away. -/
theorem exists_leadsTo_succ_iff (hs : s.status = .running) (h : step s = .next u) (ht : t.status ≠ .running) :
    (∃ n, n ≤ fuel + 1 ∧ State.leadsTo n s t) ↔ ∃ n, n ≤ fuel ∧ State.leadsTo n u t := by
  constructor
  · rintro ⟨n, hn, hlead⟩
    cases n with
    | zero => exact absurd (hlead ▸ hs) ht
    | succ n => exact ⟨n, Nat.le_of_succ_le_succ hn, (leadsTo_succ_iff hs h).mp hlead⟩
  · rintro ⟨n, hn, hlead⟩
    exact ⟨n + 1, Nat.succ_le_succ hn, (leadsTo_succ_iff hs h).mpr hlead⟩

theorem exists_leadsTo_of_not_running (hs : s.status ≠ .running) :
    (∃ n, n ≤ fuel ∧ State.leadsTo n s t) ↔ s = t :=
  ⟨fun ⟨_, _, hlead⟩ => eq_of_leadsTo hs hlead, fun heq => ⟨0, Nat.zero_le fuel, heq⟩⟩

theorem runFuel_eq_ended_iff_of_not_running (hs : s.status ≠ .running) :
    runFuel fuel s = .ended t ↔ t.status ≠ .running ∧ ∃ n, n ≤ fuel ∧ State.leadsTo n s t := by
  rw [runFuel_of_not_running hs, exists_leadsTo_of_not_running hs, RunResult.ended.injEq]
  exact ⟨fun heq => ⟨heq ▸ hs, heq⟩, And.right⟩

theorem runFuel_eq_ended_iff :
    runFuel fuel s = .ended t ↔ t.status ≠ .running ∧ ∃ n, n ≤ fuel ∧ State.leadsTo n s t := by
  induction fuel generalizing s with
  | zero =>
    by_cases hs : s.status = .running
    · rw [runFuel_zero_of_running hs]
      refine ⟨nofun, fun ⟨ht, n, hn, hlead⟩ => ?_⟩
      obtain rfl := Nat.le_zero.mp hn
      exact absurd (hlead ▸ hs) ht
    · exact runFuel_eq_ended_iff_of_not_running hs
  | succ fuel ih =>
    by_cases hs : s.status = .running
    · obtain ⟨u, hu⟩ := step_next s
      rw [runFuel_succ_of_step hs hu, ih]
      exact and_congr_right fun ht => (exists_leadsTo_succ_iff hs hu ht).symm
    · exact runFuel_eq_ended_iff_of_not_running hs

theorem runFuel_eq_notFinished_iff_of_not_running (hs : s.status ≠ .running) :
    runFuel fuel s = .notFinished t ↔ t.status = .running ∧ State.leadsTo fuel s t := by
  rw [runFuel_of_not_running hs]
  exact ⟨nofun, fun ⟨ht, hlead⟩ => absurd (eq_of_leadsTo hs hlead ▸ ht) hs⟩

theorem runFuel_eq_notFinished_iff :
    runFuel fuel s = .notFinished t ↔ t.status = .running ∧ State.leadsTo fuel s t := by
  induction fuel generalizing s with
  | zero =>
    by_cases hs : s.status = .running
    · rw [runFuel_zero_of_running hs, RunResult.notFinished.injEq]
      exact ⟨fun heq => ⟨heq ▸ hs, heq⟩, And.right⟩
    · exact runFuel_eq_notFinished_iff_of_not_running hs
  | succ fuel ih =>
    by_cases hs : s.status = .running
    · obtain ⟨u, hu⟩ := step_next s
      rw [runFuel_succ_of_step hs hu, ih, leadsTo_succ_iff hs hu]
    · exact runFuel_eq_notFinished_iff_of_not_running hs

end

/-! ## The debug trace -/

/-- A host outcome without what the debug trace adds to its state. -/
def untracedOutcome : Host.Outcome State Fault Refusal → Host.Outcome State Fault Refusal
  | .next t => .next t.untraced
  | .fault r => .fault r
  | .refused r => .refused r

/-- The pseudocode `r'` answers what `r` answers, untraced, or raises what `r` raises. -/
def UntracedAs (r r' : Checked State) : Prop := r.map State.untraced = r'

section
variable {s : State}

theorem untracedAs_bind {α : Type} {x : Checked α} {f g : α → Checked State} (h : ∀ a, UntracedAs (f a) (g a)) :
    UntracedAs (x >>= f) (x >>= g) := by
  cases x with
  | error e => rfl
  | ok a => exact h a

theorem untracedAs_ite {p : Prop} [Decidable p] {r₁ r₂ r₁' r₂' : Checked State} (h₁ : UntracedAs r₁ r₁')
    (h₂ : UntracedAs r₂ r₂') : UntracedAs (if p then r₁ else r₂) (if p then r₁' else r₂') := by
  by_cases h : p
  · simp only [if_pos h]; exact h₁
  · simp only [if_neg h]; exact h₂

theorem finish_untraced {r r' : Checked State} (h : UntracedAs r r') :
    untracedOutcome (s.untraced.finish r') = untracedOutcome (s.finish r) := by
  subst h
  cases r <;> rfl

theorem pushValue_untraced (n : Nat) (b : Base) (addr : S16) :
    UntracedAs (s.pushValue n b addr) (s.untraced.pushValue n b addr) :=
  untracedAs_bind fun _ => untracedAs_bind fun _ => untracedAs_bind fun _ => untracedAs_bind fun _ => rfl

theorem pushAddress_untraced (n : Nat) (b : Base) (addr : S16) :
    UntracedAs (s.pushAddress n b addr) (s.untraced.pushAddress n b addr) :=
  untracedAs_bind fun _ => untracedAs_bind fun _ => untracedAs_bind fun _ => untracedAs_bind fun _ => rfl

theorem unary_untraced (f : Int → Int) : UntracedAs (s.unary f) (s.untraced.unary f) :=
  untracedAs_bind fun _ => untracedAs_bind fun _ => untracedAs_bind fun _ => rfl

theorem binary_untraced (f : Int → Int → Checked Int) : UntracedAs (s.binary f) (s.untraced.binary f) :=
  untracedAs_bind fun _ => untracedAs_bind fun _ => untracedAs_bind fun _ => untracedAs_bind fun _ =>
    untracedAs_bind fun _ => rfl

theorem halt_untraced (k : HaltKind) : UntracedAs (s.halt k) (s.untraced.halt k) :=
  untracedAs_bind fun _ => rfl

theorem execInputToAddr_untraced :
    untracedOutcome (execInputToAddr s.untraced) = untracedOutcome (execInputToAddr s) := by
  have hoperand : s.untraced.inputOperand = s.inputOperand := rfl
  cases h : s.inputOperand with
  | error e =>
    rw [execInputToAddr_of_raise h, execInputToAddr_of_raise (hoperand.trans h)]
    exact finish_untraced rfl
  | ok operand =>
    cases hin : s.input with
    | nil =>
      rw [execInputToAddr_of_wait h hin, execInputToAddr_of_wait (hoperand.trans h) hin]
      rfl
    | cons v rest =>
      rw [execInputToAddr_of_answer h hin, execInputToAddr_of_answer (hoperand.trans h) hin]
      exact finish_untraced (s := { s with input := rest }) (untracedAs_bind fun _ => untracedAs_bind fun _ => rfl)

/-- No instruction's pseudocode reads the trace flag or the count of records: its steps are the same in the untraced
state, and the state it answers is the same but for these two. -/
theorem exec_untraced (i : Instr) (s : State) :
    untracedOutcome (exec i s.untraced) = untracedOutcome (exec i s) := by
  cases i with
  | pushValueLocalVar | pushValueMainVar | pushValueGlobalVar => exact finish_untraced (pushValue_untraced ..)
  | pushAddressLocalVar | pushAddressMainVar | pushAddressGlobalVar => exact finish_untraced (pushAddress_untraced ..)
  | minusify | isOdd => exact finish_untraced (unary_untraced _)
  | opAdd | opSubtract | opMultiply | opDivide => exact finish_untraced (binary_untraced _)
  | compareEq | compareNotEq | compareLT | compareGT | compareLTEq | compareGTEq =>
    exact finish_untraced (binary_untraced _)
  | inputToAddr => exact execInputToAddr_untraced
  | pop | outputValue | jump =>
    exact finish_untraced <| untracedAs_bind fun _ => untracedAs_bind fun _ => rfl
  | pushConstant | callProc =>
    exact finish_untraced <| untracedAs_bind fun _ => untracedAs_bind fun _ => untracedAs_bind fun _ => rfl
  | storeValue | swap =>
    exact finish_untraced <| untracedAs_bind fun _ => untracedAs_bind fun _ => untracedAs_bind fun _ =>
      untracedAs_bind fun _ => rfl
  | jumpIfFalse =>
    exact finish_untraced <| untracedAs_bind fun _ => untracedAs_bind fun _ =>
      untracedAs_ite (untracedAs_bind fun _ => rfl) rfl
  | putString => exact finish_untraced <| untracedAs_ite (untracedAs_bind fun _ => rfl) rfl
  | entryProc =>
    exact finish_untraced <| untracedAs_bind fun _ => untracedAs_bind fun _ => untracedAs_ite rfl <|
      untracedAs_bind fun _ => untracedAs_bind fun _ => rfl
  | returnProc =>
    exact finish_untraced <| untracedAs_ite (halt_untraced .normal) <| untracedAs_bind fun _ =>
      untracedAs_bind fun _ => untracedAs_bind fun _ => untracedAs_bind fun _ => untracedAs_bind fun _ =>
      untracedAs_bind fun _ => rfl
  | endOfCode => exact finish_untraced (halt_untraced .endOfCode)
  | put | get | opAddAddr => rfl

theorem step_untraced (s : State) : untracedOutcome (step s.untraced) = untracedOutcome (step s) := by
  by_cases hs : s.status = .running
  · have hfetch : s.untraced.fetch = s.fetch := rfl
    cases hf : s.fetch with
    | ok p =>
      rw [step_of_fetch_ok hs hf, step_of_fetch_ok (s := s.untraced) hs (hfetch.trans hf), exec_untraced]
    | error e =>
      rw [step_of_fetch_error hs hf, step_of_fetch_error (s := s.untraced) hs (hfetch.trans hf)]
      rfl
  · rw [step_of_not_running hs, step_of_not_running (s := s.untraced) hs]
    rfl

theorem untraced_eq_of_step {s t t' : State} (h : step s = .next t) (h' : step s.untraced = .next t') :
    t'.untraced = t.untraced := by
  have hsame := step_untraced s
  rw [h, h'] at hsame
  exact Host.Outcome.next.inj hsame

theorem runFuel_untraced_of_not_running {fuel : Nat} (hs : s.status ≠ .running) :
    (runFuel fuel s.untraced).untraced = (runFuel fuel s).untraced := by
  rw [runFuel_of_not_running hs, runFuel_of_not_running (s := s.untraced) hs]
  rfl

/-- Two runs that begin alike but for the trace step alike, as long as there is fuel. -/
theorem runFuel_untraced (fuel : Nat) (s : State) :
    (runFuel fuel s.untraced).untraced = (runFuel fuel s).untraced := by
  induction fuel generalizing s with
  | zero =>
    by_cases hs : s.status = .running
    · rw [runFuel_zero_of_running hs, runFuel_zero_of_running (s := s.untraced) hs]
      rfl
    · exact runFuel_untraced_of_not_running hs
  | succ fuel ih =>
    by_cases hs : s.status = .running
    · obtain ⟨t, ht⟩ := step_next s
      obtain ⟨t', ht'⟩ := step_next s.untraced
      rw [runFuel_succ_of_step hs ht, runFuel_succ_of_step (s := s.untraced) hs ht', ← ih t',
        untraced_eq_of_step ht ht', ih t]
    · exact runFuel_untraced_of_not_running hs

end

/-! ## The statements -/

/-- Settles O39. -/
theorem stepAlwaysAnswers : Obligations.StepAlwaysAnswers := step_next

/-- Settles O42, by induction on the fuel: a run that goes on is the run from the next state with one less. -/
theorem boundedRunsReportTheirEnd : Obligations.BoundedRunsReportTheirEnd := fun _ _ _ =>
  ⟨runFuel_eq_ended_iff, runFuel_eq_notFinished_iff⟩

/-- Settles O53: both runs end as the run from the untraced state, which is the same for both. -/
theorem traceChangesNothingElse : Obligations.TraceChangesNothingElse := by
  intro fuel s b
  have hstart : ({ s with debugTrace := b } : State).untraced = s.untraced := rfl
  rw [← runFuel_untraced fuel { s with debugTrace := b }, hstart, runFuel_untraced]

end Sys2Proof.Machine
end

section
/-!
SUPPORT. Which faults a step can take (60_exceptions.md R206 to R209, R213, R216), and how a run ends without one (R215)
or begins (R244, R246). What pseudocode can raise is followed from one access primitive to the next (`RaisesWithin`);
each instruction is gone through once (`exec_faultsWithin`), for every list of codes that has its row of R208 and what
an unsound state adds to it (`Covers`). The statements of the family are settled at the end.
-/
namespace Sys2Proof.Machine

/-! ## Pseudocode that raises only some codes -/

/-- Pseudocode that answers only what `Q` says, and raises only one of `codes` (R213). -/
def RaisesWithin {α : Type} (codes : List FaultCode) (Q : α → Prop) : Checked α → Prop
  | .ok a => Q a
  | .error e => e.code ∈ codes

/-- Pseudocode that raises only one of `codes`, whatever it answers. -/
abbrev RaisesOnly {α : Type} (codes : List FaultCode) (x : Checked α) : Prop := RaisesWithin codes (fun _ => True) x

/-- No fault was taken. -/
def State.unfaulted (s : State) : Prop := ∀ r, s.status ≠ .faulted r

theorem unfaulted_of_running {s : State} (hs : s.status = .running) : s.unfaulted := fun _ hr =>
  nomatch hs.symm.trans hr

/-- A host outcome whose state, where it is Faulted, has a record with one of `codes`. -/
def FaultsWithin (codes : List FaultCode) (o : Host.Outcome State Fault Refusal) : Prop :=
  ∀ t r, o = .next t → t.status = .faulted r → r.code ∈ codes

section
variable {codes : List FaultCode} {α β : Type} {Q : α → Prop} {R : β → Prop}

theorem raisesWithin_raise {code : FaultCode} {info : Int} (h : code ∈ codes) :
    RaisesWithin codes Q (raise code info) := h

theorem raisesWithin_bind {x : Checked α} {f : α → Checked β} (hx : RaisesWithin codes Q x)
    (hf : ∀ a, Q a → RaisesWithin codes R (f a)) : RaisesWithin codes R (x >>= f) := by
  cases x with
  | error e => exact hx
  | ok a => exact hf a hx

theorem RaisesWithin.code_mem {x : Checked α} {e : Raise} (h : RaisesWithin codes Q x) (hx : x = .error e) :
    e.code ∈ codes := by
  subst hx
  exact h

theorem raisesWithin_ite {p : Prop} [Decidable p] {x y : Checked α} (hx : p → RaisesWithin codes Q x)
    (hy : ¬ p → RaisesWithin codes Q y) : RaisesWithin codes Q (if p then x else y) := by
  by_cases h : p
  · rw [if_pos h]; exact hx h
  · rw [if_neg h]; exact hy h

theorem finish_faultsWithin {s : State} {r : Checked State} (h : RaisesWithin codes State.unfaulted r) :
    FaultsWithin codes (s.finish r) := by
  intro t rec ht hrec
  obtain ⟨u, rfl, rfl⟩ | ⟨e, rfl, rfl⟩ := finish_cases ht
  · exact absurd hrec (h rec)
  · cases hrec
    exact h

end

/-! ## What the shared operations raise -/

section
variable {s : State} {codes : List FaultCode} {m : Memory} {w : Width} {max n : Nat} {a v : Int}

theorem pcAfter_raisesOnly (h : s.pc.toNat + n < 2 ^ 64 ∨ .addressOverflow ∈ codes) :
    RaisesOnly codes (s.pcAfter n) :=
  raisesWithin_ite (fun _ => trivial) fun hlt => h.resolve_left hlt

/-- After a pop there is room for what was popped. -/
theorem popW_raisesWithin (h : .stackBounds ∈ codes) :
    RaisesWithin codes (fun p => p.2.len + w.bytes = m.len) (m.popW w) := by
  by_cases hlt : m.len < w.bytes
  · rw [popW_of_lt hlt]; exact h
  · rw [popW_of_le (Nat.not_lt.mp hlt)]
    exact Nat.sub_add_cancel (Nat.not_lt.mp hlt)

theorem pop64_raisesOnly (h : .stackBounds ∈ codes) : RaisesOnly codes m.pop64 := by
  by_cases hlt : m.len < 8
  · rw [pop64_of_lt hlt]; exact h
  · rw [pop64_of_le (Nat.not_lt.mp hlt)]; trivial

theorem read_raisesOnly (ha : .addressOverflow ∈ codes) (hb : .stackBounds ∈ codes) :
    RaisesOnly codes (m.read a n) :=
  raisesWithin_ite (fun _ => ha) fun _ => raisesWithin_ite (fun _ => hb) fun _ => trivial

theorem write_raisesOnly {v : Nat} (ha : .addressOverflow ∈ codes) (ho : .stackOverflow ∈ codes) :
    RaisesOnly codes (m.write max a n v) :=
  raisesWithin_ite (fun _ => ha) fun _ => raisesWithin_ite (fun _ => ho) fun _ => trivial

theorem pushW_raisesOnly (h : m.len + w.bytes ≤ max ∨ .stackOverflow ∈ codes) :
    RaisesOnly codes (m.pushW max w v) := by
  by_cases hle : m.len + w.bytes ≤ max
  · obtain ⟨m', hm'⟩ := pushW_of_le v hle
    rw [hm']; trivial
  · rw [pushW_of_lt v (Nat.not_le.mp hle)]
    exact h.resolve_left hle

theorem push64_raisesOnly {u : U64} (h : .stackOverflow ∈ codes) :
    RaisesOnly codes (m.push64 max u) := by
  by_cases hle : m.len + 8 ≤ max
  · obtain ⟨m', hm'⟩ := push64_of_le u hle
    rw [hm']; trivial
  · rw [push64_of_lt u (Nat.not_le.mp hle)]; exact h

theorem pushLink_raisesOnly {pc fp cur : U64} (h : .stackOverflow ∈ codes) :
    RaisesOnly codes (pushLink max m pc fp cur) :=
  raisesWithin_bind (push64_raisesOnly h) fun _ _ => raisesWithin_bind (push64_raisesOnly h) fun _ _ =>
    push64_raisesOnly h

theorem resize_raisesOnly (ha : .addressOverflow ∈ codes) (ho : .stackOverflow ∈ codes) :
    RaisesOnly codes (m.resize max a) :=
  raisesWithin_ite (fun _ => ha) fun _ => raisesWithin_ite (fun _ => ho) fun _ => trivial

theorem truncate_raisesOnly (h : .stackBounds ∈ codes) : RaisesOnly codes (m.truncate n) :=
  raisesWithin_ite (fun _ => h) fun _ => trivial

theorem address_raisesOnly (h : .addressOverflow ∈ codes) : RaisesOnly codes (s.address a) := by
  by_cases hw : s.tooWide a
  · rw [address_of_tooWide hw]; exact h
  · rw [address_of_not_tooWide hw]; trivial

theorem procEntry_raisesOnly (h : .procOutOfRange ∈ codes) : RaisesOnly codes (s.procEntry a) := by
  refine raisesWithin_ite (fun _ => h) fun _ => ?_
  split
  · exact h
  · trivial

theorem framePtr_raisesOnly (hp : .procOutOfRange ∈ codes) (hf : .frameUnset ∈ codes) :
    RaisesOnly codes (s.framePtr a) := by
  refine raisesWithin_bind (procEntry_raisesOnly hp) fun e _ => ?_
  split
  · exact hf
  · trivial

theorem constant_raisesOnly (h : .constOutOfRange ∈ codes) : RaisesOnly codes (s.constant a) := by
  refine raisesWithin_ite (fun _ => h) fun _ => ?_
  split
  · exact h
  · trivial

theorem addrValue_raisesOnly (h : .addressOverflow ∈ codes) : RaisesOnly codes (addrValue w a) :=
  raisesWithin_ite (fun _ => h) fun _ => raisesWithin_ite (fun _ => h) fun _ => trivial

theorem ea_raisesOnly {b : Base} {addr : S16} (h : .addressOverflow ∈ codes)
    (hb : RaisesOnly codes (s.baseOf b)) : RaisesOnly codes (s.ea b addr) :=
  raisesWithin_bind hb fun _ _ => address_raisesOnly h

theorem jumpTarget_raisesOnly {next : U64} {offset : S16} (h : .addressOverflow ∈ codes) :
    RaisesOnly codes (jumpTarget next offset) :=
  raisesWithin_ite (fun _ => h) fun _ => trivial

theorem divide_raisesOnly {r : Int} (h : .divZero ∈ codes) : RaisesOnly codes (divide w a r) :=
  raisesWithin_ite (fun _ => h) fun _ => trivial

theorem checkEntryId_raisesOnly (h : .entryMismatch ∈ codes) :
    RaisesOnly codes (s.checkEntryId a) :=
  raisesWithin_ite (fun _ => h) fun _ => trivial

theorem pbByte_raisesOnly {pb : List Byte} (h : .truncated ∈ codes) :
    RaisesOnly codes (pbByte pb a) :=
  raisesWithin_ite (fun _ => h) fun _ => trivial

theorem fetchS16_raisesOnly {pos : Nat} (h : .truncated ∈ codes) :
    RaisesOnly codes (s.fetchS16 pos) := by
  have hword : RaisesOnly codes (pbS16 s.pb pos) :=
    raisesWithin_bind (pbByte_raisesOnly h) fun _ _ => raisesWithin_bind (pbByte_raisesOnly h) fun _ _ => trivial
  exact raisesWithin_bind hword fun _ _ => trivial

end

/-! ## What an instruction raises -/

/-- The codes hold those of the instruction's row of R208; and, where pc has no room, S is too long or procedure 0 has
no frame, those that this alone makes an instruction raise. -/
structure Covers (s : State) (i : Instr) (codes : List FaultCode) : Prop where
  unfaulted : s.unfaulted
  row : mayRaise i ⊆ codes
  room : s.pc.toNat + i.length < 2 ^ 64 ∨ .addressOverflow ∈ codes
  fits : s.stack.len ≤ s.maxStack ∨ .stackOverflow ∈ codes
  mainFrame : (∃ f, s.frameAt 0 (some f)) ∨ .procOutOfRange ∈ codes ∧ .frameUnset ∈ codes

section
variable {s : State} {i : Instr} {codes : List FaultCode}

/-- A code that R208 lists for the instruction. -/
theorem Covers.has (h : Covers s i codes) {code : FaultCode} (hcode : code ∈ mayRaise i := by simp [mayRaise]) :
    code ∈ codes :=
  h.row hcode

theorem baseOf_main_raisesOnly (h : Covers s i codes) : RaisesOnly codes (s.baseOf .main) := by
  obtain ⟨f, hf⟩ | ⟨hp, hu⟩ := h.mainFrame
  · rw [State.baseOf, framePtr_of_frameAt hf]; trivial
  · exact framePtr_raisesOnly hp hu

/-- What was popped can be pushed again. -/
theorem pushW_raisesOnly_of_popped (h : Covers s i codes) {m : Memory} {v : Int}
    (hm : m.len + s.width.bytes ≤ s.stack.len) : RaisesOnly codes (m.pushW s.maxStack s.width v) :=
  pushW_raisesOnly (h.fits.imp_left hm.trans)

theorem pushValue_raisesWithin {n : Nat} {b : Base} {addr : S16} (h : Covers s i codes)
    (hb : RaisesOnly codes (s.baseOf b)) (ha : .addressOverflow ∈ codes)
    (hs : .stackBounds ∈ codes) (ho : .stackOverflow ∈ codes) :
    RaisesWithin codes State.unfaulted (s.pushValue n b addr) :=
  raisesWithin_bind (pcAfter_raisesOnly (.inr ha)) fun _ _ =>
  raisesWithin_bind (ea_raisesOnly ha hb) fun _ _ =>
  raisesWithin_bind (read_raisesOnly ha hs) fun _ _ =>
  raisesWithin_bind (pushW_raisesOnly (.inr ho)) fun _ _ => h.unfaulted

theorem pushAddress_raisesWithin {n : Nat} {b : Base} {addr : S16} (h : Covers s i codes)
    (hb : RaisesOnly codes (s.baseOf b)) (ha : .addressOverflow ∈ codes)
    (ho : .stackOverflow ∈ codes) : RaisesWithin codes State.unfaulted (s.pushAddress n b addr) :=
  raisesWithin_bind (pcAfter_raisesOnly (.inr ha)) fun _ _ =>
  raisesWithin_bind (ea_raisesOnly ha hb) fun _ _ =>
  raisesWithin_bind (addrValue_raisesOnly ha) fun _ _ =>
  raisesWithin_bind (pushW_raisesOnly (.inr ho)) fun _ _ => h.unfaulted

theorem unary_raisesWithin {f : Int → Int} (h : Covers s i codes) (hlen : i.length = 1)
    (hs : .stackBounds ∈ codes) : RaisesWithin codes State.unfaulted (s.unary f) :=
  raisesWithin_bind (pcAfter_raisesOnly (hlen ▸ h.room)) fun _ _ =>
  raisesWithin_bind (popW_raisesWithin hs) fun _ hpop =>
  raisesWithin_bind (pushW_raisesOnly_of_popped h hpop.le) fun _ _ => h.unfaulted

theorem binary_raisesWithin {f : Int → Int → Checked Int} (h : Covers s i codes) (hlen : i.length = 1)
    (hs : .stackBounds ∈ codes) (hf : ∀ l r, RaisesOnly codes (f l r)) :
    RaisesWithin codes State.unfaulted (s.binary f) :=
  raisesWithin_bind (pcAfter_raisesOnly (hlen ▸ h.room)) fun _ _ =>
  raisesWithin_bind (popW_raisesWithin hs) fun _ hr =>
  raisesWithin_bind (popW_raisesWithin hs) fun _ hl =>
  raisesWithin_bind (hf _ _) fun _ _ =>
  raisesWithin_bind (pushW_raisesOnly_of_popped h (by omega)) fun _ _ => h.unfaulted

theorem halt_raisesWithin {k : HaltKind} (h : Covers s i codes) (hlen : i.length = 1) :
    RaisesWithin codes State.unfaulted (s.halt k) :=
  raisesWithin_bind (pcAfter_raisesOnly (hlen ▸ h.room)) fun _ _ => nofun

theorem execPushConstant_faultsWithin {idx : S16} (h : Covers s (.pushConstant idx) codes) :
    FaultsWithin codes (execPushConstant idx s) :=
  finish_faultsWithin <|
  raisesWithin_bind (pcAfter_raisesOnly h.room) fun _ _ =>
  raisesWithin_bind (constant_raisesOnly h.has) fun _ _ =>
  raisesWithin_bind (pushW_raisesOnly (.inr h.has)) fun _ _ => h.unfaulted

theorem execStoreValue_faultsWithin (h : Covers s .storeValue codes) : FaultsWithin codes (execStoreValue s) :=
  finish_faultsWithin <|
  raisesWithin_bind (pcAfter_raisesOnly h.room) fun _ _ =>
  raisesWithin_bind (popW_raisesWithin h.has) fun _ _ =>
  raisesWithin_bind (popW_raisesWithin h.has) fun _ _ =>
  raisesWithin_bind (write_raisesOnly h.has h.has) fun _ _ => h.unfaulted

theorem execPop_faultsWithin (h : Covers s .pop codes) : FaultsWithin codes (execPop s) :=
  finish_faultsWithin <|
  raisesWithin_bind (pcAfter_raisesOnly h.room) fun _ _ =>
  raisesWithin_bind (popW_raisesWithin h.has) fun _ _ => h.unfaulted

theorem execSwap_faultsWithin (h : Covers s .swap codes) : FaultsWithin codes (execSwap s) :=
  finish_faultsWithin <|
  raisesWithin_bind (pcAfter_raisesOnly h.room) fun _ _ =>
  raisesWithin_bind (popW_raisesWithin h.has) fun _ hpop =>
  raisesWithin_bind (read_raisesOnly h.has h.has) fun _ _ =>
  raisesWithin_bind (pushW_raisesOnly_of_popped h hpop.le) fun _ _ => h.unfaulted

theorem execOutputValue_faultsWithin (h : Covers s .outputValue codes) : FaultsWithin codes (execOutputValue s) :=
  finish_faultsWithin <|
  raisesWithin_bind (pcAfter_raisesOnly h.room) fun _ _ =>
  raisesWithin_bind (popW_raisesWithin h.has) fun _ _ => h.unfaulted

/-- A wait is no fault (R227). -/
theorem execInputToAddr_faultsWithin (h : Covers s .inputToAddr codes) : FaultsWithin codes (execInputToAddr s) := by
  have hoperand : RaisesOnly codes s.inputOperand :=
    raisesWithin_bind (pcAfter_raisesOnly h.room) fun _ _ =>
    raisesWithin_bind (popW_raisesWithin h.has) fun _ _ => trivial
  cases hop : s.inputOperand with
  | error e =>
    rw [hop] at hoperand
    rw [execInputToAddr_of_raise hop]
    exact finish_faultsWithin hoperand
  | ok operand =>
    cases hin : s.input with
    | nil =>
      rw [execInputToAddr_of_wait hop hin]
      intro t r ht hr
      cases ht
      exact absurd hr (h.unfaulted r)
    | cons v rest =>
      rw [execInputToAddr_of_answer hop hin]
      exact finish_faultsWithin <|
        raisesWithin_bind (address_raisesOnly h.has) fun _ _ =>
        raisesWithin_bind (write_raisesOnly h.has h.has) fun _ _ => h.unfaulted

theorem execPutString_faultsWithin {text : List Byte} (h : Covers s (.putString text) codes) :
    FaultsWithin codes (execPutString text s) :=
  finish_faultsWithin <|
  raisesWithin_ite (fun _ => raisesWithin_bind (pcAfter_raisesOnly h.room) fun _ _ => h.unfaulted) fun _ => h.has

theorem execCallProc_faultsWithin {p : S16} (h : Covers s (.callProc p) codes) :
    FaultsWithin codes (execCallProc p s) :=
  finish_faultsWithin <|
  raisesWithin_bind (pcAfter_raisesOnly h.room) fun _ _ =>
  raisesWithin_bind (procEntry_raisesOnly h.has) fun _ _ =>
  raisesWithin_bind (pushLink_raisesOnly h.has) fun _ _ => h.unfaulted

theorem execReturnProc_faultsWithin (h : Covers s .returnProc codes) : FaultsWithin codes (execReturnProc s) :=
  finish_faultsWithin <|
  raisesWithin_ite (fun _ => halt_raisesWithin h rfl) fun _ =>
  raisesWithin_bind (pcAfter_raisesOnly h.room) fun _ _ =>
  raisesWithin_bind (framePtr_raisesOnly h.has h.has) fun _ _ =>
  raisesWithin_bind (truncate_raisesOnly h.has) fun _ _ =>
  raisesWithin_bind (pop64_raisesOnly h.has) fun _ _ =>
  raisesWithin_bind (pop64_raisesOnly h.has) fun _ _ =>
  raisesWithin_bind (pop64_raisesOnly h.has) fun _ _ => h.unfaulted

theorem execJump_faultsWithin {offset : S16} (h : Covers s (.jump offset) codes) :
    FaultsWithin codes (execJump offset s) :=
  finish_faultsWithin <|
  raisesWithin_bind (pcAfter_raisesOnly h.room) fun _ _ =>
  raisesWithin_bind (jumpTarget_raisesOnly h.has) fun _ _ => h.unfaulted

theorem execJumpIfFalse_faultsWithin {offset : S16} (h : Covers s (.jumpIfFalse offset) codes) :
    FaultsWithin codes (execJumpIfFalse offset s) :=
  finish_faultsWithin <|
  raisesWithin_bind (popW_raisesWithin h.has) fun _ _ =>
  raisesWithin_bind (pcAfter_raisesOnly h.room) fun _ _ =>
  raisesWithin_ite (fun _ => raisesWithin_bind (jumpTarget_raisesOnly h.has) fun _ _ => h.unfaulted) fun _ =>
  h.unfaulted

theorem execEntryProc_faultsWithin {len p reserved : S16} (h : Covers s (.entryProc len p reserved) codes) :
    FaultsWithin codes (execEntryProc len p reserved s) :=
  finish_faultsWithin <|
  raisesWithin_bind (pcAfter_raisesOnly h.room) fun _ _ =>
  raisesWithin_bind (checkEntryId_raisesOnly h.has) fun _ _ =>
  raisesWithin_ite (fun _ => h.has) fun _ =>
  raisesWithin_bind (address_raisesOnly h.has) fun _ _ =>
  raisesWithin_bind (resize_raisesOnly h.has h.has) fun _ _ => h.unfaulted

/-- Every fault of an instruction is covered, by its row or by what the state is unsound in. -/
theorem exec_faultsWithin (h : Covers s i codes) : FaultsWithin codes (exec i s) := by
  cases i with
  | pushValueLocalVar => exact finish_faultsWithin (pushValue_raisesWithin h trivial h.has h.has h.has)
  | pushValueMainVar =>
    exact finish_faultsWithin (pushValue_raisesWithin h (baseOf_main_raisesOnly h) h.has h.has h.has)
  | pushValueGlobalVar =>
    exact finish_faultsWithin (pushValue_raisesWithin h (framePtr_raisesOnly h.has h.has) h.has h.has h.has)
  | pushAddressLocalVar => exact finish_faultsWithin (pushAddress_raisesWithin h trivial h.has h.has)
  | pushAddressMainVar =>
    exact finish_faultsWithin (pushAddress_raisesWithin h (baseOf_main_raisesOnly h) h.has h.has)
  | pushAddressGlobalVar =>
    exact finish_faultsWithin (pushAddress_raisesWithin h (framePtr_raisesOnly h.has h.has) h.has h.has)
  | minusify | isOdd => exact finish_faultsWithin (unary_raisesWithin h rfl h.has)
  | opAdd | opSubtract | opMultiply => exact finish_faultsWithin (binary_raisesWithin h rfl h.has fun _ _ => trivial)
  | opDivide => exact finish_faultsWithin (binary_raisesWithin h rfl h.has fun _ _ => divide_raisesOnly h.has)
  | compareEq | compareNotEq | compareLT | compareGT | compareLTEq | compareGTEq =>
    exact finish_faultsWithin (binary_raisesWithin h rfl h.has fun _ _ => trivial)
  | pushConstant => exact execPushConstant_faultsWithin h
  | storeValue => exact execStoreValue_faultsWithin h
  | pop => exact execPop_faultsWithin h
  | swap => exact execSwap_faultsWithin h
  | outputValue => exact execOutputValue_faultsWithin h
  | inputToAddr => exact execInputToAddr_faultsWithin h
  | putString => exact execPutString_faultsWithin h
  | callProc => exact execCallProc_faultsWithin h
  | returnProc => exact execReturnProc_faultsWithin h
  | jump => exact execJump_faultsWithin h
  | jumpIfFalse => exact execJumpIfFalse_faultsWithin h
  | entryProc => exact execEntryProc_faultsWithin h
  | endOfCode => exact finish_faultsWithin (halt_raisesWithin h rfl)
  | put | get | opAddAddr => exact finish_faultsWithin (r := unimplemented _) (raisesWithin_raise h.has)

end

/-! ## What a step raises -/

/-- The codes of R207 but those of `load` (R210), the loader scan and the analyzer alone. -/
def stepCodes : List FaultCode :=
  [.truncated, .badUtf8, .unknownOpcode, .procOutOfRange, .constOutOfRange, .entryMismatch, .stackBounds,
    .addressOverflow, .unimplemented, .divZero, .stackOverflow, .frameUnset]

theorem of_mem_stepCodes {code : FaultCode} (h : code ∈ stepCodes) :
    code.cls ≠ .loadError ∧ code ≠ .badTarget ∧ code ≠ .duplicateProc ∧ code ≠ .badLayout := by
  revert code
  decide

theorem mayRaise_subset_stepCodes (i : Instr) : mayRaise i ⊆ stepCodes := by
  cases i <;> simp [mayRaise, stepCodes]

theorem covers_stepCodes {s : State} (hs : s.unfaulted) (i : Instr) : Covers s i stepCodes where
  unfaulted := hs
  row := mayRaise_subset_stepCodes i
  room := .inr (by decide)
  fits := .inr (by decide)
  mainFrame := .inr (by decide)

theorem operandReads_raisesOnly (s : State) (o : Opcode) : RaisesOnly stepCodes (s.operandReads o) := by
  have hread : ∀ pos, RaisesOnly stepCodes (s.fetchS16 pos) := fun _ => fetchS16_raisesOnly (by decide)
  cases o with
  | jumpIfFalse =>
    exact raisesWithin_bind (popW_raisesWithin (by decide)) fun _ _ => raisesWithin_bind (hread _) fun _ _ => trivial
  | pushValueLocalVar | pushValueMainVar | pushAddressLocalVar | pushAddressMainVar | pushConstant | callProc | jump =>
    exact raisesWithin_bind (hread _) fun _ _ => trivial
  | pushValueGlobalVar | pushAddressGlobalVar =>
    exact raisesWithin_bind (hread _) fun _ _ => raisesWithin_bind (hread _) fun _ _ => trivial
  | entryProc =>
    exact raisesWithin_bind (hread _) fun _ _ => raisesWithin_bind (checkEntryId_raisesOnly (by decide)) fun _ _ =>
      raisesWithin_bind (hread _) fun _ _ => trivial
  | putString => exact raisesWithin_raise (by decide)
  | _ => exact trivial

theorem truncatedRaise_mem_stepCodes (s : State) : s.truncatedRaise.code ∈ stepCodes := by
  have htruncated : FaultCode.truncated ∈ stepCodes := by decide
  have hbyte : RaisesOnly stepCodes (pbByte s.pb s.pc.toNat) := pbByte_raisesOnly htruncated
  unfold State.truncatedRaise
  split
  next e he => exact hbyte.code_mem he
  split
  · exact htruncated
  split
  next e he => exact (operandReads_raisesOnly s _).code_mem he
  · exact htruncated

theorem fetchRaise_mem_stepCodes (s : State) (e : DecodeError) : (s.fetchRaise e).code ∈ stepCodes := by
  cases e with
  | truncated => exact truncatedRaise_mem_stepCodes s
  | unknownOpcode b =>
    show FaultCode.unknownOpcode ∈ stepCodes
    decide
  | badUtf8 =>
    show FaultCode.badUtf8 ∈ stepCodes
    decide

/-! ## How a running machine's instruction ends -/

section
variable {s t u : State} {i : Instr}

/-- An instruction that completes leaves the machine running, or it is one of the two that halt (R215). -/
theorem Completes.status_cases (h : Completes s i u) :
    u.status = s.status ∨ (i = .returnProc ∧ s.curProc = 0#64 ∧ u.status = .halted .normal) ∨
      (i = .endOfCode ∧ u.status = .halted .endOfCode) := by
  cases h with
  | returnHalts hcur => exact .inr (.inl ⟨rfl, hcur, rfl⟩)
  | codeEnds => exact .inr (.inr ⟨rfl, rfl⟩)
  | moves | emitsValue | emitsString | storesAnswer | calls | returns => exact .inl rfl

theorem EndsIn.of_halted {k : HaltKind} (h : EndsIn s i t) (hs : s.status = .running) (ht : t.status = .halted k) :
    (i = .returnProc ∧ s.curProc = 0#64 ∧ k = .normal) ∨ (i = .endOfCode ∧ k = .endOfCode) := by
  cases h with
  | completes hu =>
    rw [emitTrace_status] at ht
    obtain hu | ⟨hi, hcur, hu⟩ | ⟨hi, hu⟩ := hu.status_cases
    · simp [hu, hs] at ht
    · exact .inl ⟨hi, hcur, by simpa using ht.symm.trans hu⟩
    · exact .inr ⟨hi, by simpa using ht.symm.trans hu⟩
  | raises | storeRaises => cases ht
  | waits => simp [hs] at ht

/-- The record of a fault (R209), which emits nothing (R216). -/
theorem EndsIn.of_faulted {r : FaultRecord} (h : EndsIn s i t) (hs : s.status = .running)
    (ht : t.status = .faulted r) : r.cls = r.code.cls ∧ r.pc0 = s.pc.toNat ∧ t.output = s.output := by
  cases h with
  | completes hu =>
    rw [emitTrace_status] at ht
    obtain hu | ⟨-, -, hu⟩ | ⟨-, hu⟩ := hu.status_cases <;> simp [hu, hs] at ht
  | raises | storeRaises =>
    cases ht
    exact ⟨rfl, rfl, rfl⟩
  | waits => simp [hs] at ht

end

/-! ## The start of a run -/

section
variable {config : Config} {mode : EntryLenMode} {vm : VM} {debugTrace : Bool} {input : List Int} {t : Tables}

theorem length_startPos (h : loaderScan mode vm = .ok t) : t.startPos.length = vm.procCount := by
  obtain ⟨-, found, -, -, htable⟩ := exists_scanReaches_of_loaderScan_ok h
  simpa using congrArg List.length htable

theorem length_cp (h : loaderScan mode vm = .ok t) :
    t.cp.length = (vm.pb.length - t.cpStart) / vm.width.bytes := by
  obtain ⟨hcp, -⟩ := exists_scanReaches_of_loaderScan_ok h
  simp [hcp, constantPool, recordCount]

theorem execute_of_scan_error {r : FaultRecord} (h : loaderScan config.entryLenMode vm = .error r) :
    execute config vm debugTrace input = faultedAtStart config vm debugTrace input r := by
  simp only [execute, h]

/-- R246: with no procedure 0 there is nowhere to start. -/
theorem execute_of_no_procedure (h : loaderScan config.entryLenMode vm = .ok t) (hpos : t.startPos = []) :
    execute config vm debugTrace input = faultedAtStart config vm debugTrace input
      (Raise.record { code := .procOutOfRange, info := 0 } t.cpStart) := by
  simp only [execute, h, hpos]

end

/-! ## The statements -/

/-- Settles O50: the code and class columns of R207, evaluated row by row. -/
theorem faultCodesAndClasses : Obligations.FaultCodesAndClasses := by
  unfold Obligations.FaultCodesAndClasses
  decide

/-- Settles O51: of the ways to complete only `returnHalts` and `codeEnds` halt. -/
theorem haltsOnlyByReturnOrEndOfCode : Obligations.HaltsOnlyByReturnOrEndOfCode := by
  intro s t k hs h ht
  obtain ⟨hne, -⟩ | ⟨-, i, rest, hfetch, hi⟩ | ⟨-, e, -, rfl⟩ := step_cases h
  · exact absurd hs hne
  · obtain ⟨rfl, hcur, hk⟩ | ⟨rfl, hk⟩ := hi.of_halted hs ht
    · exact .inl ⟨rest, hfetch, hcur, hk⟩
    · exact .inr ⟨rest, hfetch, hk⟩
  · cases ht

/-- Settles O48: the record is `takeFault`'s, and its code one that the fetch or the instruction raises. -/
theorem faultRecordsArePrecise : Obligations.FaultRecordsArePrecise := by
  intro s t r hs h hr
  obtain ⟨hne, -⟩ | ⟨-, i, rest, hfetch, hi⟩ | ⟨-, e, -, rfl⟩ := step_cases h
  · exact absurd hs hne
  · have hexec : exec i s = .next t := (step_of_fetch_ok hs hfetch).symm.trans h
    have hcode := exec_faultsWithin (covers_stepCodes (unfaulted_of_running hs) i) t r hexec hr
    obtain ⟨hcls, hpc, hout⟩ := hi.of_faulted hs hr
    exact ⟨hcls, hpc, hout, hcls ▸ of_mem_stepCodes hcode⟩
  · cases hr
    exact ⟨rfl, rfl, rfl, of_mem_stepCodes (fetchRaise_mem_stepCodes s e)⟩

/-- Settles O49: on a sound stack the row alone covers every fault. -/
theorem faultsOfEachInstruction : Obligations.FaultsOfEachInstruction := by
  rintro i s t f r ⟨⟨-, hmax⟩, hroom⟩ hframe hs
  have hrow : Covers s i (mayRaise i) :=
    ⟨unfaulted_of_running hs, List.Subset.refl _, .inl hroom, .inl hmax, .inl ⟨f, hframe⟩⟩
  exact exec_faultsWithin hrow t r

/-- Settles O56: the tables are the scan's, and with a procedure 0 the rest are the values of R244. -/
theorem executeStartsAtReset : Obligations.ExecuteStartsAtReset := by
  intro config vm debugTrace input s
  refine ⟨fun r hscan => ?_, fun t hscan => ⟨fun hnone => ?_, fun hsome => ?_⟩⟩
  · have hexec : s = faultedAtStart config vm debugTrace input r := execute_of_scan_error hscan
    exact hexec ▸ ⟨rfl, rfl⟩
  · have hpos : t.startPos = [] := List.length_eq_zero_iff.mp ((length_startPos hscan).trans hnone)
    have hexec : s = faultedAtStart config vm debugTrace input _ := execute_of_no_procedure hscan hpos
    exact hexec ▸ ⟨_, rfl, rfl, rfl, rfl⟩
  · obtain ⟨p0, ps, hpos⟩ := List.exists_cons_of_length_pos (lt_of_lt_of_eq hsome (length_startPos hscan).symm)
    refine ⟨p0, ps, hpos, ?_⟩
    simp only [s, execute, hscan, hpos, resetTable, length_cp hscan, wf_empty, and_self]

end Sys2Proof.Machine
end

section
/-!
SUPPORT. The start of a run (70_reset_and_hazards.md R236, R237, R241, R244): what `load` answers from the five bytes of
the header, and why the state `execute` starts in has the invariant, after a scan that faults too. The statements are
settled at the end.
-/
namespace Sys2Proof.Machine

/-! ## The header -/

/-- A header field is read little-endian from its two bytes (R74). -/
theorem pbU16_of_drop {pb rest : List Byte} {pos : Nat} {b0 b1 : Byte} (h : pb.drop pos = b0 :: b1 :: rest) :
    pbU16 pb pos = .ok (b0.toNat + 256 * b1.toNat) := by
  have hlow : pbByte pb pos = .ok b0 := pbByte_of_drop h
  have hhigh : pbByte pb ((pos : Int) + 1) = .ok b1 :=
    pbByte_of_drop (pos := pos + 1) (rest := rest) (by rw [← List.drop_drop, h]; rfl)
  simp only [pbU16, hlow, hhigh, ok_bind, pure_eq_ok, leNat_cons, leNat_nil, Nat.mul_zero, Nat.add_zero]

theorem widthOfField_bytes (w : Width) : widthOfField w.bytes = some w := by cases w <;> rfl

theorem widthOfField_eq_none {v : Nat} (h2 : v ≠ 2) (h4 : v ≠ 4) (h8 : v ≠ 8) : widthOfField v = none := by
  rw [widthOfField, if_neg h2, if_neg h4, if_neg h8]

/-- Without a first byte after the header there is nothing to scan (R236). -/
theorem load_of_short {bytes : List Byte} (h : bytes.length ≤ 4) :
    load bytes = .error (Raise.record { code := .tooShort, info := bytes.length } 0) := if_pos h

section
variable {p0 p1 w0 w1 c : Byte} {rest : List Byte}

theorem not_length_header_le : ¬ (p0 :: p1 :: w0 :: w1 :: c :: rest).length ≤ 4 := by simp

theorem pbU16_count : pbU16 (p0 :: p1 :: w0 :: w1 :: c :: rest) 0 = .ok (p0.toNat + 256 * p1.toNat) :=
  pbU16_of_drop (pos := 0) rfl

theorem pbU16_width : pbU16 (p0 :: p1 :: w0 :: w1 :: c :: rest) 2 = .ok (w0.toNat + 256 * w1.toNat) :=
  pbU16_of_drop (pos := 2) rfl

theorem load_of_width {w : Width} (h : w0.toNat + 256 * w1.toNat = w.bytes) :
    load (p0 :: p1 :: w0 :: w1 :: c :: rest) =
      .ok { pb := p0 :: p1 :: w0 :: w1 :: c :: rest, width := w, procCount := p0.toNat + 256 * p1.toNat } := by
  simp only [load, if_neg not_length_header_le, pbU16_width, pbU16_count, h, widthOfField_bytes]

theorem load_of_bad_width (h : widthOfField (w0.toNat + 256 * w1.toNat) = none) :
    load (p0 :: p1 :: w0 :: w1 :: c :: rest) = .error
      (Raise.record { code := .badWidth, info := (w0.toNat + 256 * w1.toNat : Nat) } 2) := by
  simp only [load, if_neg not_length_header_le, pbU16_width, pbU16_count, h]

end

/-! ## What the loader scan leaves -/

/-- A record of the pool reads as a Data value: it has no more than W bytes (R45, R69). -/
theorem constantPool_inRange (w : Width) (pb : List Byte) (cpStart : Nat) :
    (constantPool w pb cpStart).all (inRange w) = true := by
  refine List.all_eq_true.mpr fun v hv => ?_
  obtain ⟨k, -, rfl⟩ := List.mem_map.mp hv
  have hlen : (recordBytes w pb cpStart k).length ≤ w.bytes := List.length_take_le ..
  have hlt : leNat (recordBytes w pb cpStart k) < 256 ^ w.bytes :=
    (leNat_lt _).trans_le (Nat.pow_le_pow_right (by decide) hlen)
  exact sext_inRange w (two_pow_bits w ▸ hlt)

/-- The class of the scan's records is their code's (R207), as each is the record of a raise. -/
theorem scanHeader_error_cls {mode : EntryLenMode} {n pos : Nat} {found : Found} {len id : Int} {r : FaultRecord}
    (h : scanHeader mode n found pos len id = .error r) : r.cls = r.code.cls := by
  unfold scanHeader at h
  split at h
  · cases h; rfl
  split at h
  · cases h; rfl
  · cases h; rfl
  split at h
  · cases h; rfl
  · cases h

theorem scanFrom_error_cls {mode : EntryLenMode} {n : Nat} {bs : List Byte} {pos remaining toFind : Nat}
    {found : Found} {r : FaultRecord} (h : scanFrom mode n bs pos remaining toFind found = .error r) :
    r.cls = r.code.cls := by
  fun_induction scanFrom mode n bs pos remaining toFind found with
  | case1 => cases h
  | case4 | case6 =>
    rename_i ih
    exact ih h
  | case5 =>
    rename_i hhead
    cases h
    exact scanHeader_error_cls hhead
  | case2 | case3 | case7 | case8 | case9 => cases h; rfl

theorem loaderScan_error_cls {mode : EntryLenMode} {vm : VM} {r : FaultRecord} (h : loaderScan mode vm = .error r) :
    r.cls = r.code.cls := by
  unfold loaderScan at h
  split at h
  next r' hscan =>
    cases h
    exact scanFrom_error_cls hscan
  · cases h

/-! ## The invariant at the start -/

section
variable {config : Config} {vm : VM} {debugTrace : Bool} {input : List Int}

/-- Before the first step a faulted machine owes its class and its answers: the rest is empty (log 18). -/
theorem faultedAtStart_inv {r : FaultRecord} (hr : r.cls = r.code.cls) (hin : input.all (inRange vm.width) = true) :
    (faultedAtStart config vm debugTrace input r).Inv where
  stack := ⟨wf_empty, Nat.zero_le _⟩
  tables := nofun
  mainFrame := nofun
  constants := rfl
  answers := hin
  events := rfl
  status := decide_eq_true hr

/-- With a procedure 0 the clauses are what R244 writes down and what the scan built. -/
theorem execute_inv_of_procedure {t : Tables} (hscan : loaderScan config.entryLenMode vm = .ok t)
    (hsome : 0 < vm.procCount) (hin : input.all (inRange vm.width) = true) :
    (execute config vm debugTrace input).Inv := by
  obtain ⟨p0, ps, hpos, hstatus, -, -, -, hlen, hwf, hout, -, hwidth, hcount, -, hcp, hconsts, -, -, hinput, -,
    htable⟩ := ((executeStartsAtReset config vm debugTrace input).2 t hscan).2 hsome
  have hprocs : ps.length + 1 = vm.procCount := by rw [← length_startPos hscan, hpos, List.length_cons]
  obtain ⟨hpool, -⟩ := exists_scanReaches_of_loaderScan_ok hscan
  exact {
    stack := ⟨hwf, hlen ▸ Nat.zero_le _⟩
    tables := fun _ => ⟨by simp [htable, hcount, hprocs], by rw [hcp, hconsts, length_cp hscan]⟩
    mainFrame := fun _ => ⟨_, 0#64, by rw [htable]; rfl, rfl⟩
    constants := by rw [hcp, hwidth, hpool]; exact constantPool_inRange ..
    answers := by rw [hinput, hwidth]; exact hin
    events := by rw [hout]; rfl
    status := by rw [hstatus]; rfl }

end

/-! ## The statements -/

/-- Settles O44: `execute` either faults before its first step or starts with a procedure 0. -/
theorem executeHasInvariant : Obligations.ExecuteHasInvariant := by
  intro config bytes vm debugTrace input _ hin
  cases hscan : loaderScan config.entryLenMode vm with
  | error r => exact execute_of_scan_error hscan ▸ faultedAtStart_inv (loaderScan_error_cls hscan) hin
  | ok t =>
    rcases Nat.eq_zero_or_pos vm.procCount with hnone | hsome
    · have hpos : t.startPos = [] := List.length_eq_zero_iff.mp ((length_startPos hscan).trans hnone)
      exact execute_of_no_procedure hscan hpos ▸ faultedAtStart_inv rfl hin
    · exact execute_inv_of_procedure hscan hsome hin

/-- Settles O54: the length check comes first, then the width field's legal values (`widthOfField`). -/
theorem loadCases : Obligations.LoadCases := by
  intro bytes
  refine ⟨fun hshort => ⟨_, load_of_short hshort, rfl, rfl, rfl⟩, ?_⟩
  rintro p0 p1 w0 w1 c rest rfl field count
  exact ⟨fun h2 h4 h8 => ⟨_, load_of_bad_width (widthOfField_eq_none h2 h4 h8), rfl, rfl, rfl⟩,
    fun w => load_of_width⟩

end Sys2Proof.Machine
end

section
/-!
PROOFS. The invariant of the machine at `State.reset`.
-/
namespace Sys2Proof.Machine

/-- Settles O43: the stack is the empty one, the frame of procedure 0 is R58's (`resetLeavesSpecValues`), and the sizes
of the tables are those the reset writes down (log 4); there are no constants, answers or events. -/
theorem resetHasInvariant : Obligations.ResetHasInvariant := by
  obtain ⟨hrunning, hlen, -, -, -, -, e, hmain, hframe, -⟩ := resetLeavesSpecValues
  exact {
    stack := ⟨wf_empty, hlen ▸ Nat.zero_le _⟩
    tables := fun _ => ⟨rfl, rfl⟩
    mainFrame := fun _ => ⟨e, 0#64, hmain, hframe⟩
    constants := rfl
    answers := rfl
    events := rfl
    status := by rw [hrunning]; rfl }

end Sys2Proof.Machine
end
